-- ==== Sys2Proof/Word.lean ====
section
/-! DEFINITION. The word types of the FHT8V line codec block. -/

namespace Sys2Proof

/-- A register, a buffer byte, an 8-bit index (00_scope.md R9, 10_state.md R30). -/
abbrev Byte := BitVec 8

/-- Two adjacent physical bits at an even bit position of a byte: a bit-pair (00_scope.md R12). -/
abbrev Pair := BitVec 2

/-- A word written to the request port `REQ` (30_encoding.md R80). -/
abbrev ReqWord := BitVec 16

end Sys2Proof
end

