-- ==== Sys2Proof/Syntax.lean ====
section
/-! DEFINITION. The instructions: one constructor for each row of spec/opcode_table.json, and the words they are written in. -/

namespace Sys2Proof

/-- One constructor for each row of the opcode table. Operands are as wide as their fields (30_encoding.md R80, R82), so every
term is well formed. -/
inductive Instr where
  /-- `RESET` (44_control.md R210) -/
  | reset
  /-- `ENC_INIT pos` (40_line_code.md R101) -/
  | encInit (pos : Byte)
  /-- `ENC_RAW v` (R102) -/
  | encRaw (v : Byte)
  /-- `ENC_BIT x` (R103) -/
  | encBit (x : Bool)
  /-- `ENC_BYTE v` (R104) -/
  | encByte (v : Byte)
  /-- `ENC_TERM` (R105) -/
  | encTerm
  /-- `DEC_INIT start` (R125) -/
  | decInit (start : Byte)
  /-- `DEC_PAIR` (R126) -/
  | decPair
  /-- `DEC_BIT` (R127) -/
  | decBit
  /-- `DEC_BYTE` (R128) -/
  | decByte
  /-- `CHECKSUM` (41_frame_builder.md R141) -/
  | checksum
  /-- `BUILD_BITSTREAM base` (R151) -/
  | buildBitstream (base : Byte)
  /-- `BUILD_VALVE_SET` (R150) -/
  | buildValveSet
  /-- `DECODE_BITSTREAM` (42_frame_parser.md R172) -/
  | decodeBitstream
  /-- `PARSE_FRAME` (R175) -/
  | parseFrame
  /-- `LINE0`: the line-code symbol `1100` (30_encoding.md R70) -/
  | line0
  /-- `LINE1`: the line-code symbol `111000` (R71) -/
  | line1
  /-- `CMD_SET_ZERO`: the command byte 0x20 (43_valve_commands.md R201) -/
  | cmdSetZero
  /-- `CMD_SET_PERCENT`: the command byte 0x26 (R202) -/
  | cmdSetPercent
  /-- `CMD_SYNC_TICK`: the command byte 0x2C (R203) -/
  | cmdSyncTick
  deriving DecidableEq, Repr

/-- The two kinds of encoding the block has (30_encoding.md, opening): a 16-bit request word, or one of the wire codewords of
the table's formats LINE4, LINE6 and CMDBYTE, right-aligned in a byte (log 16). -/
inductive Encoded where
  | request (w : ReqWord)
  | codeword (w : Byte)
  deriving DecidableEq, Repr

end Sys2Proof
end

