-- ==== Sys2Proof/Decode.lean ====
section
/-! DEFINITION. The decoder of request words (30_encoding.md R80 to R83) and of the table's wire codewords (R70, R71, R200),
total on any word, and the encoder. -/

namespace Sys2Proof

/-- The instruction of a word whose `B` and `IMM8` must both be 0 (R83(c), R83(d)). -/
def bareRequest (b : Bool) (imm : Byte) (i : Instr) : Option Instr :=
  if !b && imm == 0 then some i else none

/-- The instruction of a word that uses `IMM8` and whose `B` must be 0 (R83(c)). -/
def immRequest (b : Bool) (i : Instr) : Option Instr :=
  if b then none else some i

/-- The operation-code map (R81). `none` is an illegal word: R83(a) here, R83(c) and (d) in the two helpers. -/
def decodeOp (op : Nat) (b : Bool) (imm : Byte) : Option Instr :=
  match op with
  | 0x0 => bareRequest b imm .reset
  | 0x1 => immRequest b (.encInit imm)
  | 0x2 => immRequest b (.encRaw imm)
  | 0x3 => if imm == 0 then some (.encBit b) else none
  | 0x4 => immRequest b (.encByte imm)
  | 0x5 => bareRequest b imm .encTerm
  | 0x6 => immRequest b (.decInit imm)
  | 0x7 => bareRequest b imm .decPair
  | 0x8 => bareRequest b imm .decBit
  | 0x9 => bareRequest b imm .decByte
  | 0xA => bareRequest b imm .checksum
  | 0xB => immRequest b (.buildBitstream imm)
  | 0xC => bareRequest b imm .buildValveSet
  | 0xD => bareRequest b imm .decodeBitstream
  | 0xE => bareRequest b imm .parseFrame
  | _ => none

/-- The request a 16-bit word asks for, `none` when the word is illegal (R80, R83). -/
def decodeRequest (w : ReqWord) : Option Instr :=
  let op := w.extractLsb' 12 4
  let rsv := w.extractLsb' 9 3
  let b := w.getLsbD 8
  let imm := w.extractLsb' 0 8
  if rsv == 0 then decodeOp op.toNat b imm else none

/-- The line-code symbol or command byte a codeword is, `none` when the table names none (R70, R71, R201 to R203). -/
def decodeCodeword (w : Byte) : Option Instr :=
  if w == 0b1100 then some .line0
  else if w == 0b111000 then some .line1
  else if w == 0x20 then some .cmdSetZero
  else if w == 0x26 then some .cmdSetPercent
  else if w == 0x2C then some .cmdSyncTick
  else none

/-- The decoder. -/
def decode : Encoded → Option Instr
  | .request w => decodeRequest w
  | .codeword w => decodeCodeword w

/-- A request word laid out field by field: `OP[15:12]`, `RSV[11:9] = 0`, `B[8]`, `IMM8[7:0]` (R80). -/
def requestWord (op : BitVec 4) (b : Bool) (imm : Byte) : ReqWord :=
  (op ++ (0#3 ++ (BitVec.ofBool b ++ imm)) : BitVec (4 + (3 + (1 + 8))))

/-- The encoder: the word of an instruction, from the `encoding` column of the opcode table (R81, R88). -/
def encode : Instr → Encoded
  | .reset => .request (requestWord 0x0 false 0)
  | .encInit pos => .request (requestWord 0x1 false pos)
  | .encRaw v => .request (requestWord 0x2 false v)
  | .encBit x => .request (requestWord 0x3 x 0)
  | .encByte v => .request (requestWord 0x4 false v)
  | .encTerm => .request (requestWord 0x5 false 0)
  | .decInit start => .request (requestWord 0x6 false start)
  | .decPair => .request (requestWord 0x7 false 0)
  | .decBit => .request (requestWord 0x8 false 0)
  | .decByte => .request (requestWord 0x9 false 0)
  | .checksum => .request (requestWord 0xA false 0)
  | .buildBitstream base => .request (requestWord 0xB false base)
  | .buildValveSet => .request (requestWord 0xC false 0)
  | .decodeBitstream => .request (requestWord 0xD false 0)
  | .parseFrame => .request (requestWord 0xE false 0)
  | .line0 => .codeword 0b1100
  | .line1 => .codeword 0b111000
  | .cmdSetZero => .codeword 0x20
  | .cmdSetPercent => .codeword 0x26
  | .cmdSyncTick => .codeword 0x2C

/-- The table's numbering of a word's bits: rows of at most 8 bits are wire codewords (4-, 6- and 8-bit patterns, the bits
above the pattern 0), rows of 16 bits are request words, which go to the port whole, so no byte order arises (log 16). -/
def tableWord (nbits w : Nat) : Encoded :=
  if nbits ≤ 8 then .codeword (BitVec.ofNat 8 w) else .request (BitVec.ofNat 16 w)

/-- The instruction the decoder reads from a row of spec/opcode_table.json. -/
def decodeTableWord (nbits w : Nat) : Option Instr := decode (tableWord nbits w)

end Sys2Proof
end

