-- ==== Sys2Proof/Config.lean ====
section
/-! DEFINITION. What is fixed when a block is built (00_scope.md R8), and the free values: the Stats Codec's functions and
the power-on contents of the buffers. -/

namespace Sys2Proof

/-- A record of the external Stats Codec. The block reads or writes only the optional ID; every other field is opaque to it
(10_state.md R36) and is carried as bytes nothing looks into (log 5). -/
structure StatsRecord where
  id : Option (Byte × Byte)
  body : List Byte
  deriving DecidableEq, Repr

/-- The answers of `StatsClassify` (42_frame_parser.md R179). -/
inductive TrailerClass where
  | none
  | min
  | full
  deriving DecidableEq, Repr, Inhabited

/-- `P_STATS` of 42_frame_parser.md R179 as functions nothing is known about: a statement that holds for them holds for every
Stats Codec (log 4). -/
opaque Config.statsMinEncode : StatsRecord → Byte × Byte × Byte

/-- `StatsEncode`: `none`, or a list of bytes (R179). -/
opaque Config.statsEncode : StatsRecord → Nat → Option (List Byte)

/-- `StatsClassify`: the kind of trailer its first byte announces (R179). -/
opaque Config.statsClassify : Byte → TrailerClass

/-- `StatsMinDecode` (R179). -/
opaque Config.statsMinDecode : List Byte → Option StatsRecord

/-- `StatsDecode` (R179). -/
opaque Config.statsDecode : List Byte → Option StatsRecord

/-- `JsonDecode` (R179). -/
opaque Config.jsonDecode : List Byte → Option StatsRecord

/-- `LegacyDecode` (R179). -/
opaque Config.legacyDecode : List Byte → Option StatsRecord

/-- `P_JSON_LEAD` on a byte other than 0xCC (R8, R179). -/
opaque Config.jsonLead : Byte → Bool

/-- `P_LEGACY_MATCH` on bytes that do not begin with 0xCC (R8, R179). -/
opaque Config.legacyMatch : List Byte → Bool

/-- The byte that draw number `draw` of a buffer's power-on contents puts at index `a`: any value at all, and the same one at
every read until it is written (70_reset_and_hazards.md R260, R263; log 6). -/
opaque Config.powerOnByte : (draw a : Nat) → Byte

/-- Answers of `P_STATS` that are known of a particular block, as finite tables. An argument that no table lists is answered
by the functions of `Config` above, so that empty tables stand for an arbitrary Stats Codec (log 4). -/
structure StatsAnswers where
  minEncode : List (StatsRecord × (Byte × Byte × Byte)) := []
  encode : List ((StatsRecord × Nat) × Option (List Byte)) := []
  classify : List (Byte × TrailerClass) := []
  minDecode : List (List Byte × Option StatsRecord) := []
  decode : List (List Byte × Option StatsRecord) := []
  json : List (List Byte × Option StatsRecord) := []
  legacy : List (List Byte × Option StatsRecord) := []
  jsonLead : List (Byte × Bool) := []
  legacyMatch : List (List Byte × Bool) := []
  deriving DecidableEq, Repr

/-- The OPEN parameters of 00_scope.md R8. They are arguments of the model: a field of the state that no step changes
(log 3). -/
structure Params where
  /-- `P_TX_BUF_SIZE` -/
  txSize : Nat
  /-- `P_RX_BUF_SIZE` -/
  rxSize : Nat
  /-- `P_ADDR_EN` -/
  addrEn : Bool
  /-- `P_HDR_EN` -/
  hdrEn : Bool
  /-- `P_HDR_BYTE` -/
  hdrByte : Byte
  /-- `P_HDR_LEN` -/
  hdrLen : Nat
  /-- `P_ENTROPY_BITS` -/
  entropyBits : Nat
  /-- what is known of `P_STATS`, `P_JSON_LEAD` and `P_LEGACY_MATCH` -/
  stats : StatsAnswers
  deriving DecidableEq, Repr

/-- The configuration of the spec's vectors (95_test_vectors.md section 0), with the header byte and length of its program P4
although the header is not built in. DESIGN CHOICE, unsafe: the spec leaves every one of these OPEN (log 3). -/
def Params.vectors : Params where
  txSize := 64
  rxSize := 64
  addrEn := false
  hdrEn := false
  hdrByte := 0xAA
  hdrLen := 4
  entropyBits := 0
  stats := {}

end Sys2Proof
end

