-- ==== Sys2Proof/Machine/State.lean ====
section
/-! DEFINITION. The state of the block (10_state.md) with what its surroundings hold for it, the outcomes a step may stop
with, and the machine right after power-on. -/

namespace Sys2Proof.Machine

/-- A buffer: the bytes written since power-on, as (index, byte) pairs with strictly rising indices. An index that is not
listed holds no written value: it reads as the byte that draw number `draw` of the power-on contents put there
(70_reset_and_hazards.md R260, R263; log 6). `draw` is the model's own counter. -/
structure Memory where
  draw : Nat
  cells : List Host.Cell
  deriving DecidableEq, Repr

/-- `DEC_MASK`: the rotating 2-bit mask, one of 0xC0, 0x30, 0x0C and 0x03 and never another value (10_state.md R25). The
constructors name the pair of the byte that the mask selects (00_scope.md R11). -/
inductive PairMask where
  /-- 0xC0 -/
  | pair0
  /-- 0x30 -/
  | pair1
  /-- 0x0C -/
  | pair2
  /-- 0x03 -/
  | pair3
  deriving DecidableEq, Repr

/-- `REASON`: the failure reasons of 60_exceptions.md R240, in the order of their codes 0 to 12. -/
inductive FailReason where
  | none
  | exhausted
  | badPair1
  | badPair2
  | badPair3
  | parity
  | preamble
  | leadBit
  | checksum
  | trailBit
  | trailerCrc
  | trailerId
  | altFrame
  deriving DecidableEq, Repr

/-- `FCODE`: the fault codes of 60_exceptions.md R230, in the order of their codes 0 to 8. -/
inductive FaultCode where
  | none
  | illegalReq
  | txOverflow
  | badArg
  | notReady
  | encNotEmpty
  | txBusy
  | txInvalid
  | statsBad
  deriving DecidableEq, Repr

/-- TXBUF and the encoder state (10_state.md R22, R24, R26). The fill code of the byte being built is not held here: it is the
two low bits of `tx` at `ptr` (R27). -/
structure Encoder where
  /-- `TXBUF` -/
  tx : Memory
  /-- `ENC_PTR` -/
  ptr : Byte
  /-- `ENC_READY` -/
  ready : Bool
  /-- `TX_END` -/
  txEnd : Byte
  /-- `TXVALID` -/
  txValid : Bool
  deriving DecidableEq, Repr

/-- The decode state (10_state.md R25). -/
structure Decoder where
  /-- `DEC_PTR` -/
  ptr : Byte
  /-- `DEC_MASK` -/
  mask : PairMask
  /-- `DEC_END` -/
  stop : Byte
  /-- `DEC_FAILED`, mirrored by `STATUS.DFAIL` -/
  failed : Bool
  /-- `REASON` -/
  reason : FailReason
  deriving DecidableEq, Repr

/-- The argument registers (10_state.md R31, R32). -/
structure ArgRegs where
  hc1 : Byte
  hc2 : Byte
  addr : Byte
  cmd : Byte
  ext : Byte
  pct : Byte
  thresh : Byte
  flags : Byte
  deriving DecidableEq, Repr

/-- The result registers (10_state.md R33, R34). -/
structure ResRegs where
  hc1 : Byte
  hc2 : Byte
  addr : Byte
  cmd : Byte
  ext : Byte
  csum : Byte
  next : Byte
  val : Byte
  kind : Byte
  deriving DecidableEq, Repr

/-- What leaves the block: an entropy event (42_frame_parser.md R180), or a byte the transceiver sent (44_control.md R216). -/
inductive Event where
  | entropy (b : Byte) (bits : Nat)
  | sent (b : Byte)
  deriving DecidableEq, Repr

/-- One step of an agent, as 20_memory.md R61 lists them: a whole request, one host access, one transceiver step; and
power-on. -/
inductive HostStep where
  /-- the host writes a word to `REQ` (30_encoding.md R80) -/
  | request (w : ReqWord)
  /-- one of the opcode table's wire codewords is applied (log 9, log 10) -/
  | codeword (w : Byte)
  /-- the host reads `REQ` (R80) -/
  | readReq
  /-- `RD n` (10_state.md R30) -/
  | readReg (n : Byte)
  /-- `WR n, v` (R30) -/
  | writeReg (n v : Byte)
  /-- the host reads a TX byte (20_memory.md R51) -/
  | readTx (a : Byte)
  /-- the host tries to write a TX byte (93_implementation_defined.md I9) -/
  | writeTx (a v : Byte)
  /-- the host reads an RX byte (R52) -/
  | readRx (a : Byte)
  /-- `RXW a, v` (44_control.md R217) -/
  | writeRx (a v : Byte)
  /-- `TX_START s` (R216) -/
  | txStart (s : Byte)
  /-- one transceiver step (R216) -/
  | transceiver
  /-- the host supplies or withdraws `STATS_IN` (10_state.md R36). DESIGN CHOICE, unsafe: R61 names no such step, and R36 passes
  the record as an input of the request (log 21) -/
  | setStatsIn (r : Option StatsRecord)
  /-- power-on reset (70_reset_and_hazards.md R260), with what the transceiver drives as the block comes up: `none` is
  `TX_ACTIVE = 0`, `some k` is `TX_ACTIVE = 1` with the byte at `k` read next (10_state.md R42; log 14) -/
  | powerOn (drives : Option Byte)
  deriving DecidableEq, Repr

/-- The state: the block's own (10_state.md), the parameters it was built with, and what the host and the transceiver hold. -/
structure State where
  /-- the OPEN parameters; no step changes them (00_scope.md R8) -/
  params : Params
  /-- TXBUF and the encoder -/
  enc : Encoder
  /-- the decode state -/
  dec : Decoder
  /-- the argument registers -/
  args : ArgRegs
  /-- the result registers -/
  res : ResRegs
  /-- `RX_LEN` (10_state.md R35) -/
  rxLen : Byte
  /-- RXBUF (R23) -/
  rx : Memory
  /-- `STATUS.OK` (60_exceptions.md R231) -/
  ok : Bool
  /-- `STATUS.FAULT` (R232) -/
  fault : Bool
  /-- `FCODE` (10_state.md R29) -/
  fcode : FaultCode
  /-- `STATS_IN` (R36), kept until the host replaces it or a reset clears it (log 21) -/
  statsIn : Option StatsRecord
  /-- `STATS_OUT` (R36) -/
  statsOut : Option StatsRecord
  /-- `TX_ACTIVE`, the transceiver's input bit (R42) -/
  txActive : Bool
  /-- the index `k` the transceiver reads next (44_control.md R216; log 8) -/
  txIndex : Nat
  /-- the steps the agents will take, the next one first (20_memory.md R61; log 1) -/
  schedule : List HostStep
  /-- the events so far, the oldest first (log 15) -/
  events : List Event
  /-- what the host's last read returned; the model's own field (log 13) -/
  hostData : BitVec 16
  deriving DecidableEq, Repr

/-- Why the model stops where the spec gives no effect because the byte accessed does not exist (20_memory.md R50). Neither is
a fault of the block: those are NEXT states with `STATUS.FAULT` set (60_exceptions.md R232). -/
inductive Fault where
  /-- An access to TX at an index that is not below `P_TX_BUF_SIZE`: raised by a host read, by a transceiver step, and by an
  encoder or builder request in a state no run of a block with legal parameters reaches. Safe: the model stops where hardware
  might go on. -/
  | txOutside
  /-- An access to RX at an index that is not below `P_RX_BUF_SIZE`: raised by a host read or write, and by a decode request
  with `DEC_END > P_RX_BUF_SIZE`, which no run reaches. Safe: the model stops where hardware might go on. -/
  | rxOutside
  deriving DecidableEq, Repr

/-- Why the model has no meaning for what it was given. -/
inductive Refusal where
  /-- An instruction of the table whose meaning is not written. No arm raises it. Safe. -/
  | notModelled (mnemonic : String)
  /-- A codeword that is no row of the table: the spec gives it no meaning at all (log 11). Raised by the step. Safe. -/
  | unknownCodeword
  deriving DecidableEq, Repr

/-- The machine right after power-on reset: every register and flag at the value of 10_state.md R40, no byte of either buffer
written (R260), no transmission running (log 7), no step scheduled (log 1), built with the parameters of the spec's vectors
(log 3). -/
def State.reset : State where
  params := Params.vectors
  enc := { tx := { draw := 0, cells := [] }, ptr := 0, ready := false, txEnd := 0, txValid := false }
  dec := { ptr := 0, mask := .pair0, stop := 0, failed := false, reason := .none }
  args := { hc1 := 0, hc2 := 0, addr := 0, cmd := 0, ext := 0, pct := 0, thresh := 0, flags := 0 }
  res := { hc1 := 0, hc2 := 0, addr := 0, cmd := 0, ext := 0, csum := 0, next := 0, val := 0, kind := 0 }
  rxLen := 0
  rx := { draw := 1, cells := [] }
  ok := false
  fault := false
  fcode := .none
  statsIn := none
  statsOut := none
  txActive := false
  txIndex := 0
  schedule := []
  events := []
  hostData := 0

end Sys2Proof.Machine
end

