-- ==== Sys2Proof/Machine/Operands.lean ====
section
/-! DEFINITION. The values the requests compute with: bits, pairs and line-code symbols, parity and checksum, the percent
scaling, the numeric codes of the enumerations, the builder's policy and the answers of the Stats Codec. -/

namespace Sys2Proof.Machine

/-! ### Bits, pairs, parity (00_scope.md R9, R11) -/

/-- The bits of a byte, most significant first (R9, 20_memory.md R55). -/
def byteBits (v : Byte) : List Bool :=
  [v.getLsbD 7, v.getLsbD 6, v.getLsbD 5, v.getLsbD 4, v.getLsbD 3, v.getLsbD 2, v.getLsbD 1, v.getLsbD 0]

/-- `popcount(v)` (R11). -/
def popcount (v : Byte) : Nat := (byteBits v).count true

/-- `parity(v) = popcount(v) mod 2` (R11). -/
def parity (v : Byte) : Bool := popcount v % 2 == 1

/-- `weight(v) = popcount(v) + parity(v)` (R11). -/
def weight (v : Byte) : Nat := popcount v + (parity v).toNat

/-- `pairAt(b, k)`: the field `b[7-2k : 6-2k]` (R11). -/
def pairAt (b : Byte) (k : Nat) : Pair := b.extractLsb' (6 - 2 * k) 2

/-- The four pairs of a byte in wire order (20_memory.md R55). -/
def bytePairs (b : Byte) : List Pair := [pairAt b 0, pairAt b 1, pairAt b 2, pairAt b 3]

/-! ### The wire format (30_encoding.md R70 to R77) -/

/-- The preamble byte (R75). -/
def preambleByte : Byte := 0xCC

/-- The sentinel, which is also the empty byte being built (R76, 10_state.md R27). -/
def sentinel : Byte := 0xFF

/-- The pairs of a line-code symbol: `1100` for a logical 0, `111000` for a logical 1 (R70, R71). -/
def lineSymbol (x : Bool) : List Pair := if x then [0b11, 0b10, 0b00] else [0b11, 0b00]

/-- The pairs of a sequence of logical bits. -/
def linePairs (bits : List Bool) : List Pair := bits.flatMap lineSymbol

/-- The nine logical bits of an encoded byte: its bits, most significant first, then its parity (R74). -/
def encodedByte (v : Byte) : List Bool := byteBits v ++ [parity v]

/-- `Checksum(hc1, hc2, a, cmd, ext)` (41_frame_builder.md R140). -/
def checksum (hc1 hc2 a cmd ext : Byte) : Byte :=
  BitVec.ofNat 8 ((0x0C + hc1.toNat + hc2.toNat + a.toNat + cmd.toNat + ext.toNat) % 256)

/-- `Scale(pct) = (255 * pct + 50) div 100` (R145). -/
def scale (pct : Byte) : Byte := BitVec.ofNat 8 ((255 * pct.toNat + 50) / 100)

/-- The address byte of a frame: `ARG_ADDR` if `P_ADDR_EN`, else the placeholder 0 (R76, R140). -/
def frameAddr (p : Params) (a : ArgRegs) : Byte := if p.addrEn then a.addr else 0

/-- The checksum of the frame the argument registers describe (R141, R151). -/
def frameChecksum (p : Params) (a : ArgRegs) : Byte := checksum a.hc1 a.hc2 (frameAddr p a) a.cmd a.ext

/-- The six bytes of a frame in their order (R76, R151). -/
def frameBytes (p : Params) (a : ArgRegs) : List Byte :=
  [a.hc1, a.hc2, frameAddr p a, a.cmd, a.ext, frameChecksum p a]

/-- The logical bits of a frame from preamble to padding (R76). -/
def frameBits (p : Params) (a : ArgRegs) : List Bool :=
  List.replicate 12 false ++ [true] ++ (frameBytes p a).flatMap encodedByte ++ [false, false, false]

/-- `n1`: the logical 1 bits of the six encoded bytes (R77). -/
def frameWeight (p : Params) (a : ArgRegs) : Nat := ((frameBytes p a).map weight).sum

/-- `L`: the completed bytes before the sentinel (R77). -/
def frameLen (p : Params) (a : ArgRegs) : Nat := (282 + 2 * frameWeight p a) / 8

/-! ### The byte being built (10_state.md R27) -/

/-- The pairs already filled, `f = 3 - code`, of a byte being built (R27). -/
def pairsFilled (b : Byte) : Nat := 3 - (b.extractLsb' 0 2).toNat

/-! ### The pair mask (R25, 40_line_code.md R121) -/

/-- The value of `DEC_MASK` (R25). -/
def PairMask.byte : PairMask → Byte
  | .pair0 => 0xC0
  | .pair1 => 0x30
  | .pair2 => 0x0C
  | .pair3 => 0x03

/-- `maskShift(m)` (00_scope.md R11). -/
def PairMask.shift : PairMask → Nat
  | .pair0 => 6
  | .pair1 => 4
  | .pair2 => 2
  | .pair3 => 0

/-- Which pair of the byte the mask selects (R11). -/
def PairMask.index : PairMask → Nat
  | .pair0 => 0
  | .pair1 => 1
  | .pair2 => 2
  | .pair3 => 3

/-- The rotation `0xC0, 0x30, 0x0C, 0x03` and back (R55, R121). -/
def PairMask.next : PairMask → PairMask
  | .pair0 => .pair1
  | .pair1 => .pair2
  | .pair2 => .pair3
  | .pair3 => .pair0

/-- `(b & m) >> maskShift(m)` (R121). -/
def maskedPair (b : Byte) (m : PairMask) : Pair := ((b &&& m.byte) >>> m.shift).setWidth 2

/-! ### The codes of `REASON` and `FCODE` (60_exceptions.md R230, R240) -/

/-- The code of a failure reason (R240). -/
def FailReason.code : FailReason → Byte
  | .none => 0
  | .exhausted => 1
  | .badPair1 => 2
  | .badPair2 => 3
  | .badPair3 => 4
  | .parity => 5
  | .preamble => 6
  | .leadBit => 7
  | .checksum => 8
  | .trailBit => 9
  | .trailerCrc => 10
  | .trailerId => 11
  | .altFrame => 12

/-- The code of a fault (R230). -/
def FaultCode.code : FaultCode → Byte
  | .none => 0
  | .illegalReq => 1
  | .txOverflow => 2
  | .badArg => 3
  | .notReady => 4
  | .encNotEmpty => 5
  | .txBusy => 6
  | .txInvalid => 7
  | .statsBad => 8

/-! ### The fields of `ARG_FLAGS` and the builder's policy (10_state.md R32, 41_frame_builder.md R153) -/

/-- `TRL_PRESENT` (R32). -/
def trlPresent (flags : Byte) : Bool := flags.getLsbD 0

/-- `TRL_HAS_ID` (R32). -/
def trlHasId (flags : Byte) : Bool := flags.getLsbD 1

/-- `TRL_HAS_AMBL` (R32). -/
def trlHasAmbl (flags : Byte) : Bool := flags.getLsbD 2

/-- `MINSTATS_EN` (R32). -/
def minstatsEn (flags : Byte) : Bool := flags.getLsbD 3

/-- The header is sent: `P_HDR_EN = 1 and ARG_PCT >= ARG_THRESH` (R153, 90_conflicts.md C5). -/
def headerWanted (p : Params) (a : ArgRegs) : Bool := p.hdrEn && a.thresh ≤ a.pct

/-- The length of the header actually written (R150). -/
def headerLen (p : Params) (a : ArgRegs) : Nat := if headerWanted p a then p.hdrLen else 0

/-- A trailer is attached: `TRL_PRESENT` and `MINSTATS_EN` (R153). -/
def trailerWanted (a : ArgRegs) : Bool := trlPresent a.flags && minstatsEn a.flags

/-- The trailer is minimal: neither `TRL_HAS_ID` nor `TRL_HAS_AMBL` (R153). -/
def trailerMinimal (a : ArgRegs) : Bool := !trlHasId a.flags && !trlHasAmbl a.flags

/-! ### The Stats Codec (42_frame_parser.md R179) -/

/-- The listed answer for `x`, else `other` (log 4). -/
def listedAnswer {α β : Type} [DecidableEq α] (table : List (α × β)) (x : α) (other : β) : β :=
  match table with
  | [] => other
  | (k, v) :: rest => if k = x then v else listedAnswer rest x other

/-- `StatsMinEncode`: exactly 3 bytes (R179). -/
def statsMinEncode (p : Params) (r : StatsRecord) : Byte × Byte × Byte :=
  listedAnswer p.stats.minEncode r (Config.statsMinEncode r)

/-- `StatsEncode` (R179). -/
def statsEncode (p : Params) (r : StatsRecord) (cap : Nat) : Option (List Byte) :=
  listedAnswer p.stats.encode (r, cap) (Config.statsEncode r cap)

/-- `StatsClassify` (R179). -/
def statsClassify (p : Params) (b : Byte) : TrailerClass :=
  listedAnswer p.stats.classify b (Config.statsClassify b)

/-- `StatsMinDecode` (R179). -/
def statsMinDecode (p : Params) (bs : List Byte) : Option StatsRecord :=
  listedAnswer p.stats.minDecode bs (Config.statsMinDecode bs)

/-- `StatsDecode` (R179). -/
def statsDecode (p : Params) (bs : List Byte) : Option StatsRecord :=
  listedAnswer p.stats.decode bs (Config.statsDecode bs)

/-- `JsonDecode` (R179). -/
def jsonDecode (p : Params) (bs : List Byte) : Option StatsRecord :=
  listedAnswer p.stats.json bs (Config.jsonDecode bs)

/-- `LegacyDecode` (R179). -/
def legacyDecode (p : Params) (bs : List Byte) : Option StatsRecord :=
  listedAnswer p.stats.legacy bs (Config.legacyDecode bs)

/-- `P_JSON_LEAD`: false for 0xCC (00_scope.md R8). -/
def jsonLead (p : Params) (b : Byte) : Bool :=
  if b = preambleByte then false else listedAnswer p.stats.jsonLead b (Config.jsonLead b)

/-- `P_LEGACY_MATCH`: false when byte 0 is 0xCC (R8). -/
def legacyMatch (p : Params) (bs : List Byte) : Bool :=
  if bs.head? = some preambleByte then false else listedAnswer p.stats.legacyMatch bs (Config.legacyMatch bs)

end Sys2Proof.Machine
end

