-- ==== Sys2Proof/Machine/Flags.lean ====
section
/-! DEFINITION. The flags: `STATUS` and its computed bits (10_state.md R28, R37, R44), and the `OK` bit a decode leaves. -/

namespace Sys2Proof.Machine

/-- `HC_OK = (ARG_HC1 <= 99) and (ARG_HC2 <= 99)`, combinational (R37). -/
def hcOk (a : ArgRegs) : Bool := a.hc1 ≤ 99 && a.hc2 ≤ 99

/-- A flag in its bit position. -/
def flagBit (i : Nat) (b : Bool) : Byte := if b then (1 : Byte) <<< i else 0

/-- `STATUS`, bit 7 reading 0 (R28). -/
def statusByte (s : State) : Byte :=
  flagBit 0 s.ok ||| flagBit 1 s.dec.failed ||| flagBit 2 s.fault ||| flagBit 3 s.enc.txValid
    ||| flagBit 4 (hcOk s.args) ||| flagBit 5 s.enc.ready ||| flagBit 6 s.txActive

/-- `OK <- 1 - DEC_FAILED`, what every decode request leaves (60_exceptions.md R231). -/
def okAfterDecode (d : Decoder) : Bool := !d.failed

end Sys2Proof.Machine
end

