-- ==== Sys2Proof/Machine/Ops.lean ====
section
/-! DEFINITION. The named operations the meanings share: the buffers, fault entry and the way out of it, the checks before a
request's body, the encoder's internal functions (40_line_code.md R100, R106, R107) and the decoder's (R120 to R123). -/

namespace Sys2Proof.Machine

/-! ### The buffers (20_memory.md R50, R54) -/

/-- The byte written at index `a`, if any was. -/
def Memory.find (a : Nat) : List Host.Cell → Option Byte
  | [] => none
  | (b, v) :: rest => if a = b then some v else Memory.find a rest

/-- One byte of a buffer: the one written last, else the one the power-on draw put there (R61, 70_reset_and_hazards.md
R260). -/
def Memory.read (m : Memory) (a : Nat) : Byte := (Memory.find a m.cells).getD (Config.powerOnByte m.draw a)

/-- `v` listed at index `a`, the indices kept rising. -/
def Memory.insert (a : Nat) (v : Byte) : List Host.Cell → List Host.Cell
  | [] => [(a, v)]
  | (b, w) :: rest =>
    if a < b then (a, v) :: (b, w) :: rest
    else if a = b then (a, v) :: rest
    else (b, w) :: Memory.insert a v rest

/-- One byte of a buffer written (R54). -/
def Memory.write (m : Memory) (a : Nat) (v : Byte) : Memory := { m with cells := Memory.insert a v m.cells }

/-- Bytes written at rising indices from `a` on. -/
def Memory.writeList (m : Memory) (a : Nat) : List Byte → Memory
  | [] => m
  | v :: vs => (m.write a v).writeList (a + 1) vs

/-- The bytes at the indices `a` to `a + n - 1`. -/
def Memory.readList (m : Memory) (a : Nat) : Nat → List Byte
  | 0 => []
  | n + 1 => m.read a :: m.readList (a + 1) n

/-- The listed indices rise strictly and stay at or above `lo` and below `size`. -/
def Memory.cellsOk (lo size : Nat) : List Host.Cell → Bool
  | [] => true
  | (a, _) :: rest => lo ≤ a && a < size && Memory.cellsOk (a + 1) size rest

/-- The canonical form of a buffer of `size` bytes: indices strictly rising, each one the buffer has. An unlisted index holds
no written value, so no entry repeats what an unlisted index holds, and equal buffers are equal data. -/
def Memory.wf (size : Nat) (m : Memory) : Bool := Memory.cellsOk 0 size m.cells

/-- The next power-on draw of a buffer: nothing written in it (70_reset_and_hazards.md R260). TX and RX use the even and the
odd numbers, so that the two never share a draw. -/
def Memory.powerOn (m : Memory) : Memory := { draw := m.draw + 2, cells := [] }

/-! ### Faults of the block (60_exceptions.md R230 to R236) -/

/-- What a step answers. -/
abbrev Result : Type := Host.Outcome State Fault Refusal

/-- Fault entry: `FAULT <- 1; FCODE <- c; OK <- 0`, and nothing else (R232). -/
def State.raise (s : State) (c : FaultCode) : State := { s with fault := true, fcode := c, ok := false }

/-- The way out of the fault state, and the whole of the `RESET` request: every register and flag to its reset value,
`STATS_IN` and `STATS_OUT` to none, the buffers, `TX_ACTIVE` and everything outside the block unchanged (44_control.md R210,
10_state.md R40, R235). -/
def State.resetRegisters (s : State) : State :=
  { s with
    enc := { State.reset.enc with tx := s.enc.tx }
    dec := State.reset.dec
    args := State.reset.args
    res := State.reset.res
    rxLen := State.reset.rxLen
    ok := State.reset.ok
    fault := State.reset.fault
    fcode := State.reset.fcode
    statsIn := State.reset.statsIn
    statsOut := State.reset.statsOut }

/-- Power-on reset: registers and flags as after `RESET`, both buffers holding a new draw, and a transmission in progress over,
the two ways in which it differs from `RESET` (70_reset_and_hazards.md R260, R261). `TX_ACTIVE` then reads what the transceiver
drives, and its index is the transceiver's own (10_state.md R41, R42; log 14). The host and the parameters are left alone. -/
def State.powerOn (s : State) (drives : Option Byte) : State :=
  { s.resetRegisters with
    enc := { s.resetRegisters.enc with tx := s.enc.tx.powerOn }
    rx := s.rx.powerOn
    txActive := drives.isSome
    txIndex := (drives.getD 0).toNat }

/-- `OK <- b` at the end of a request (R231). -/
def State.setOk (s : State) (b : Bool) : State := { s with ok := b }

/-- The encoder and TXBUF replaced. -/
def State.setEnc (s : State) (e : Encoder) : State := { s with enc := e }

/-- The decode state replaced. -/
def State.setDec (s : State) (d : Decoder) : State := { s with dec := d }

/-- `RES_VAL <- v` (10_state.md R33). -/
def State.setVal (s : State) (v : Byte) : State := { s with res := { s.res with val := v } }

/-- `RES_CSUM <- v` (R33). -/
def State.setCsum (s : State) (v : Byte) : State := { s with res := { s.res with csum := v } }

/-- Events appended in their order. -/
def State.emit (s : State) (es : List Event) : State := { s with events := s.events ++ es }

/-! ### The checks before a request's body (R234) -/

/-- Check 1: while `FAULT = 1` a request is ignored (R233). -/
def unlessFaulted (s : State) (r : Result) : Result := if s.fault then .next s else r

/-- A later check: if it applies, the fault `c` is raised and nothing else is done. -/
def raiseIf (applies : Bool) (c : FaultCode) (s : State) (r : Result) : Result :=
  if applies then .next (s.raise c) else r

/-- The model's own stop: the encoder's byte must be one TXBUF has (20_memory.md R50; log 12). -/
def withinTx (a : Nat) (s : State) (r : Result) : Result :=
  if s.params.txSize ≤ a then .fault .txOutside else r

/-- The model's own stop: bytes below `DEC_END` must be ones RXBUF has (40_line_code.md R121; log 12). -/
def withinRx (s : State) (r : Result) : Result :=
  if s.params.rxSize < s.dec.stop.toNat then .fault .rxOutside else r

/-! ### The encoder's internal functions (40_line_code.md section 1) -/

/-- How an internal function of the encoder ends: with the encoder it leaves, or at the point where it raises `TX_OVERFLOW`,
with what it had written by then. -/
inductive TxRun where
  | ok (e : Encoder)
  | overflow (e : Encoder)
  deriving DecidableEq, Repr

/-- The next internal function runs unless a fault ended the one before (00_scope.md R10, R106). -/
def TxRun.andThen (r : TxRun) (f : Encoder → TxRun) : TxRun :=
  match r with
  | .ok e => f e
  | .overflow e => .overflow e

/-- The byte being built (10_state.md R24). -/
def Encoder.current (e : Encoder) : Byte := e.tx.read e.ptr.toNat

/-- `TX[ENC_PTR] <- v`. -/
def Encoder.setCurrent (e : Encoder) (v : Byte) : Encoder := { e with tx := e.tx.write e.ptr.toNat v }

/-- The move to the next byte, or `TX_OVERFLOW` when TXBUF ends: the next byte is re-initialised to all ones (R100, R102,
R151). -/
def Encoder.advance (size : Nat) (e : Encoder) : TxRun :=
  if size ≤ e.ptr.toNat + 1 then .overflow e
  else .ok { e with tx := e.tx.write (e.ptr.toNat + 1) sentinel, ptr := e.ptr + 1 }

/-- The byte being built with pair `q` added to the `f` pairs filled: the pair in its place, the free pairs 1, the new fill
code in the two low bits (R100). -/
def filledByte (f : Nat) (b : Byte) (q : Pair) : Byte :=
  let v : Byte := q.setWidth 8
  match f with
  | 0 => (v <<< 6) ||| 0x3E
  | 1 => (b &&& 0xC0) ||| (v <<< 4) ||| 0x0D
  | 2 => (b &&& 0xF0) ||| (v <<< 2) ||| 0x00
  | _ => (b &&& 0xFC) ||| v

/-- `PairWrite(q)` (R100). -/
def pairWrite (size : Nat) (q : Pair) (e : Encoder) : TxRun :=
  let f := pairsFilled e.current
  let e' := e.setCurrent (filledByte f e.current q)
  if f = 3 then e'.advance size else .ok e'

/-- `PairWrite` of one pair after another. -/
def appendPairs (size : Nat) : List Pair → Encoder → TxRun
  | [], e => .ok e
  | q :: qs, e => (pairWrite size q e).andThen (appendPairs size qs)

/-- `AppendBit(x)` (R106). -/
def appendBit (size : Nat) (x : Bool) (e : Encoder) : TxRun := appendPairs size (lineSymbol x) e

/-- `AppendBit` of one logical bit after another. -/
def appendBits (size : Nat) : List Bool → Encoder → TxRun
  | [], e => .ok e
  | x :: xs, e => (appendBit size x e).andThen (appendBits size xs)

/-- `AppendByte(v)` (R107). -/
def appendByte (size : Nat) (v : Byte) (e : Encoder) : TxRun := appendBits size (encodedByte v) e

/-- `AppendByte` of one byte after another. -/
def appendBytes (size : Nat) : List Byte → Encoder → TxRun
  | [], e => .ok e
  | v :: vs, e => (appendByte size v e).andThen (appendBytes size vs)

/-- The body of `ENC_RAW`: a whole byte at a byte boundary, then the move to the next (R102). -/
def appendRaw (size : Nat) (v : Byte) (e : Encoder) : TxRun := (e.setCurrent v).advance size

/-- `n` raw bytes (R151). -/
def appendRaws (size : Nat) (v : Byte) : Nat → Encoder → TxRun
  | 0, e => .ok e
  | n + 1, e => (appendRaw size v e).andThen (appendRaws size v n)

/-- A stream started at index `pos`: `TXVALID <- 0; TX[pos] <- 0xFF; ENC_PTR <- pos; ENC_READY <- 1` (R101). -/
def Encoder.start (pos : Byte) (e : Encoder) : Encoder :=
  { e with tx := e.tx.write pos.toNat sentinel, ptr := pos, ready := true, txValid := false }

/-- The sentinel in place of the byte being built: `TX[ENC_PTR] <- 0xFF; TX_END <- ENC_PTR; ENC_READY <- 0` (R105, R151).
`TXVALID` is set by the request. -/
def Encoder.terminate (e : Encoder) : Encoder :=
  { e.setCurrent sentinel with txEnd := e.ptr, ready := false }

/-- `TXVALID` replaced (10_state.md R26). -/
def Encoder.setValid (e : Encoder) (b : Bool) : Encoder := { e with txValid := b }

/-- The end of a request that ran an internal function: `OK <- 1`, or `TX_OVERFLOW` with the writes made so far kept
(R232, D41). -/
def State.finishTx (s : State) (r : TxRun) : Result :=
  match r with
  | .ok e => .next ((s.setEnc e).setOk true)
  | .overflow e => .next ((s.setEnc e).raise .txOverflow)

/-- The checks of an encoder request that writes pairs, and its body: `TXVALID <- 0`, the append, `OK <- 1` (R103, R104,
R234). -/
def State.encodeWith (s : State) (append : Nat → Encoder → TxRun) : Result :=
  unlessFaulted s <|
  raiseIf (!s.enc.ready) .notReady s <|
  raiseIf s.txActive .txBusy s <|
  withinTx s.enc.ptr.toNat s <|
  s.finishTx (append s.params.txSize (s.enc.setValid false))

/-! ### The decoder's internal functions (40_line_code.md section 3) -/

/-- `fail(r)`: only the first failure is recorded (R120). -/
def Decoder.fail (d : Decoder) (r : FailReason) : Decoder :=
  if d.failed then d else { d with failed := true, reason := r }

/-- `fail(r)` when a check finds something wrong and no failure came before (42_frame_parser.md R174). -/
def Decoder.failIf (d : Decoder) (wrong : Bool) (r : FailReason) : Decoder :=
  if wrong then d.fail r else d

/-- `SetDec(i)` with the declared end `rxLen` (R170). -/
def freshDec (rxLen i : Byte) : Decoder :=
  { ptr := i, mask := .pair0, stop := rxLen, failed := false, reason := .none }

/-- The cursor after a pair was read (R121). -/
def Decoder.advance (d : Decoder) : Decoder :=
  { d with mask := d.mask.next, ptr := if d.mask = .pair3 then d.ptr + 1 else d.ptr }

/-- `ReadPair()` (R121). -/
def readPair (rx : Memory) (d : Decoder) : Pair × Decoder :=
  if d.failed then (0, d)
  else if d.stop ≤ d.ptr then (0, d.fail .exhausted)
  else (maskedPair (rx.read d.ptr.toNat) d.mask, d.advance)

/-- `ReadBit()` (R122); the bit is `true` for 1. -/
def readBit (rx : Memory) (d : Decoder) : Bool × Decoder :=
  if d.failed then (false, d)
  else
    let p1 := readPair rx d
    if p1.2.failed then (false, p1.2)
    else if p1.1 ≠ 0b11 then (false, p1.2.fail .badPair1)
    else
      let p2 := readPair rx p1.2
      if p2.2.failed then (false, p2.2)
      else if p2.1 = 0b00 then (false, p2.2)
      else if p2.1 ≠ 0b10 then (false, p2.2.fail .badPair2)
      else
        let p3 := readPair rx p2.2
        if p3.2.failed then (false, p3.2)
        else if p3.1 ≠ 0b00 then (false, p3.2.fail .badPair3)
        else (true, p3.2)

/-- What `ReadByteP` has gathered: the value, the running parity, the decode state. -/
structure BitsRead where
  val : Byte
  par : Bool
  dec : Decoder
  deriving DecidableEq, Repr

/-- The loop of `ReadByteP`: `n` times `x <- ReadBit(); v <- ((v << 1) | x) & 0xFF; par <- par ^ x` (R123). -/
def readBits (rx : Memory) : Nat → BitsRead → BitsRead
  | 0, r => r
  | n + 1, r =>
    let x := readBit rx r.dec
    readBits rx n
      { val := (r.val <<< 1) ||| (BitVec.ofBool x.1).setWidth 8, par := r.par ^^ x.1, dec := x.2 }

/-- `ReadByteP()` (R123). -/
def readByteP (rx : Memory) (d : Decoder) : Byte × Decoder :=
  if d.failed then (0, d)
  else
    let r := readBits rx 8 { val := 0, par := false, dec := d }
    let p := readBit rx r.dec
    if p.2.failed then (0, p.2)
    else if p.1 ≠ r.par then (0, p.2.fail .parity)
    else (r.val, p.2)

/-- The end of a primitive decode: `RES_VAL <- value; OK <- 1 - DEC_FAILED` (R126 to R128). -/
def State.finishRead (s : State) (v : Byte) (d : Decoder) : Result :=
  .next (((s.setDec d).setVal v).setOk (okAfterDecode d))

end Sys2Proof.Machine
end

