-- ==== Sys2Proof/Machine/Control.lean ====
section
/-! DEFINITION. The `RESET` request (44_control.md section 1) and what an illegal request word does (30_encoding.md R83). -/

namespace Sys2Proof.Machine

/-- `RESET` (R210): the one request that runs while `FAULT = 1` (60_exceptions.md R233). -/
def execReset (s : State) : Result := .next s.resetRegisters

/-- A word that is no legal request: ignored while `FAULT = 1`, else `ILLEGAL_REQ` and nothing more (R83, R234). -/
def illegalRequest (s : State) : Result := unlessFaulted s <| .next (s.raise .illegalReq)

end Sys2Proof.Machine
end

