-- ==== Sys2Proof/Machine/FrameBuilder.lean ====
section
/-! DEFINITION. The checksum request and the frame builders (41_frame_builder.md). -/

namespace Sys2Proof.Machine

/-- `BuildBody(base)` (R151), less the checksum register: preamble, lead 1, six bytes, trailing 0, two more 0 bits, sentinel.
`TXVALID` is left 0 for the caller (90_conflicts.md C14). -/
def buildBody (size : Nat) (fields : List Byte) (base : Byte) (e : Encoder) : TxRun :=
  (appendRaws size preambleByte 6 (e.start base)).andThen fun e1 =>
  (appendBit size true e1).andThen fun e2 =>
  (appendBytes size fields e2).andThen fun e3 =>
  (appendBits size [false, false, false] e3).andThen fun e4 =>
  .ok e4.terminate

/-- How `AppendTrailer` ends: with the trailer kind and the encoder it leaves, or at the fault it raises before writing
anything (R154). -/
inductive TrailerRun where
  | done (kind : Byte) (e : Encoder)
  | raised (c : FaultCode)
  deriving DecidableEq, Repr

/-- The trailer bytes over the sentinel at `TX_END`, and a new sentinel after them (R154). -/
def Encoder.writeTrailer (e : Encoder) (bytes : List Byte) : Encoder :=
  let t := e.txEnd.toNat
  { e with
    tx := (e.tx.writeList t bytes).write (t + bytes.length) sentinel
    txEnd := BitVec.ofNat 8 (t + bytes.length) }

/-- The minimal trailer of `AppendTrailer` (R154). -/
def appendMinTrailer (p : Params) (r : StatsRecord) (e : Encoder) : TrailerRun :=
  let (t0, t1, t2) := statsMinEncode p r
  if [t0, t1, t2].contains sentinel then .raised .statsBad
  else if p.txSize ≤ e.txEnd.toNat + 3 then .raised .txOverflow
  else .done 1 (e.writeTrailer [t0, t1, t2])

/-- The full trailer of `AppendTrailer` (R154). -/
def appendFullTrailer (p : Params) (r : StatsRecord) (e : Encoder) : TrailerRun :=
  let cap := p.txSize - e.txEnd.toNat - 1
  match statsEncode p r cap with
  | none => .done 0 e
  | some bytes =>
    if cap < bytes.length || bytes.contains sentinel then .raised .statsBad
    else .done 2 (e.writeTrailer bytes)

/-- `AppendTrailer(TX_END)` for the record to attach, `none` when no trailer is wanted (R154). -/
def appendTrailer (p : Params) (minimal : Bool) (rec : Option StatsRecord) (e : Encoder) : TrailerRun :=
  match rec with
  | none => .done 0 e
  | some r => if minimal then appendMinTrailer p r e else appendFullTrailer p r e

/-- `CHECKSUM` (R141). -/
def execChecksum (s : State) : Result :=
  unlessFaulted s <| .next ((s.setCsum (frameChecksum s.params s.args)).setOk true)

/-- The whole of `BUILD_BITSTREAM base`, shared with the command rows that a build stands behind (R151). -/
def State.buildAt (s : State) (base : Byte) : Result :=
  unlessFaulted s <|
  raiseIf (s.params.txSize ≤ base.toNat) .badArg s <|
  raiseIf s.txActive .txBusy s <|
  let s1 := s.setCsum (frameChecksum s.params s.args)
  match buildBody s.params.txSize (frameBytes s.params s.args) base s.enc with
  | .overflow e => .next ((s1.setEnc e).raise .txOverflow)
  | .ok e => .next ((s1.setEnc (e.setValid true)).setOk true)

/-- `BUILD_BITSTREAM base` (R151). -/
def execBuildBitstream (base : Byte) (s : State) : Result := s.buildAt base

/-- The header: `hlen` bytes `P_HDR_BYTE` from index 0 on, and `TXVALID <- 0` (R150). -/
def Encoder.writeHeader (e : Encoder) (hlen : Nat) (b : Byte) : Encoder :=
  { e with tx := e.tx.writeList 0 (List.replicate hlen b), txValid := false }

/-- The argument registers after `ARG_CMD <- 0x26; ARG_EXT <- Scale(ARG_PCT)` (R150). -/
def valveSetArgs (a : ArgRegs) : ArgRegs := { a with cmd := 0x26, ext := scale a.pct }

/-- The record `BUILD_VALVE_SET` attaches: `STATS_IN` when the policy wants a trailer (R150, R153). -/
def State.trailerRecord (s : State) : Option StatsRecord := if trailerWanted s.args then s.statsIn else none

/-- The body of `BUILD_VALVE_SET` after its checks (R150). -/
def State.valveSetBody (s : State) : Result :=
  let p := s.params
  let a := valveSetArgs s.args
  let hlen := headerLen p s.args
  let s1 := { s with args := a }.setCsum (frameChecksum p a)
  match buildBody p.txSize (frameBytes p a) (BitVec.ofNat 8 hlen) (s.enc.writeHeader hlen p.hdrByte) with
  | .overflow e => .next ((s1.setEnc e).raise .txOverflow)
  | .ok e =>
    match appendTrailer p (trailerMinimal a) s.trailerRecord e with
    | .raised c => .next ((s1.setEnc e).raise c)
    | .done kind e' =>
      .next (({ s1 with res := { s1.res with kind := (kind <<< 2) ||| 1 } }.setEnc (e'.setValid true)).setOk true)

/-- The whole of `BUILD_VALVE_SET`, shared with the command row `CMD_SET_PERCENT` (R150). -/
def State.valveSet (s : State) : Result :=
  unlessFaulted s <|
  raiseIf (100 < s.args.pct.toNat) .badArg s <|
  raiseIf (s.args.thresh.toNat < 1 || 100 < s.args.thresh.toNat) .badArg s <|
  raiseIf (trailerWanted s.args && s.statsIn.isNone) .badArg s <|
  raiseIf s.txActive .txBusy s <|
  withinTx (headerLen s.params s.args) s <|
  s.valveSetBody

/-- `BUILD_VALVE_SET` (R150). -/
def execBuildValveSet (s : State) : Result := s.valveSet

end Sys2Proof.Machine
end

