-- ==== Sys2Proof/Machine/FrameParser.lean ====
section
/-! DEFINITION. The frame parser (42_frame_parser.md). -/

namespace Sys2Proof.Machine

/-- How the preamble scan ends: at the payload's first index, out of data at an index, or at a byte that is not preamble. -/
inductive Scan where
  | start (i : Nat)
  | exhausted (i : Nat)
  | mismatch (i : Nat)
  deriving DecidableEq, Repr

/-- The loop of `ScanPreamble()` with `left` indices to go before index 6 (R171). -/
def scanFrom (rx : Memory) (rxLen : Byte) : (left i : Nat) → Scan
  | 0, i => .start i
  | left + 1, i =>
    if rxLen.toNat ≤ i then .exhausted i
    else if rx.read i = preambleByte then scanFrom rx rxLen left (i + 1)
    else if i < 2 then .mismatch i
    else .start i

/-- `ScanPreamble()` (R171). -/
def scanPreamble (rx : Memory) (rxLen : Byte) : Scan := scanFrom rx rxLen 6 0

/-- The fields of a decoded frame (R174). -/
structure Frame where
  hc1 : Byte
  hc2 : Byte
  addr : Byte
  cmd : Byte
  ext : Byte
  csum : Byte
  next : Byte
  deriving DecidableEq, Repr

/-- What `DecodeFrame()` leaves: the decode state, the frame if it succeeded, the garbage bytes of a preamble failure. -/
structure FrameRun where
  dec : Decoder
  frame : Option Frame
  garbage : List Byte
  deriving DecidableEq, Repr

/-- The index just past the consumed bytes (R173). -/
def nextIndex (d : Decoder) : Byte := if d.mask = .pair0 then d.ptr else d.ptr + 1

/-- `DecodeFrame()` after `SetDec(s)`: lead bit, six bytes, checksum, trailing bit (R174). -/
def decodePayload (rx : Memory) (d : Decoder) : FrameRun :=
  let lead := readBit rx d
  let d0 := lead.2.failIf (!lead.1) .leadBit
  if d0.failed then { dec := d0, frame := none, garbage := [] }
  else
    let hc1 := readByteP rx d0
    let hc2 := readByteP rx hc1.2
    let a := readByteP rx hc2.2
    let cmd := readByteP rx a.2
    let ext := readByteP rx cmd.2
    let cs := readByteP rx ext.2
    if cs.2.failed then { dec := cs.2, frame := none, garbage := [] }
    else if cs.1 ≠ checksum hc1.1 hc2.1 a.1 cmd.1 ext.1 then
      { dec := cs.2.fail .checksum, frame := none, garbage := [] }
    else
      let t := readBit rx cs.2
      let d1 := t.2.failIf t.1 .trailBit
      if d1.failed then { dec := d1, frame := none, garbage := [] }
      else
        { dec := d1
          frame := some { hc1 := hc1.1, hc2 := hc2.1, addr := a.1, cmd := cmd.1, ext := ext.1, csum := cs.1,
                          next := nextIndex d1 }
          garbage := [] }

/-- `DecodeFrame()` on the first `rxLen` bytes of `rx` (R174). -/
def decodeFrame (rx : Memory) (rxLen : Byte) : FrameRun :=
  match scanPreamble rx rxLen with
  | .exhausted i => { dec := (freshDec rxLen (BitVec.ofNat 8 i)).fail .exhausted, frame := none, garbage := [] }
  | .mismatch i =>
    { dec := (freshDec rxLen (BitVec.ofNat 8 i)).fail .preamble, frame := none, garbage := rx.readList 0 (i + 1) }
  | .start i => decodePayload rx (freshDec rxLen (BitVec.ofNat 8 i))

/-- `FailResults()` (R176). -/
def ResRegs.failResults (r : ResRegs) : ResRegs :=
  { r with hc1 := 0, hc2 := 0, addr := 0, cmd := 0, ext := 0, next := 0, kind := 0 }

/-- The result registers after a frame decoded with success (R174). -/
def ResRegs.ofFrame (r : ResRegs) (f : Frame) : ResRegs :=
  { r with hc1 := f.hc1, hc2 := f.hc2, addr := f.addr, cmd := f.cmd, ext := f.ext, csum := f.csum, next := f.next,
           kind := 0x01 }

/-- A failed decode or parse: the decode state as it stands and `FailResults()` (R176). -/
def State.failDecode (s : State) (d : Decoder) : State := { s.setDec d with res := s.res.failResults }

/-- The writes of `DecodeFrame()`, and one entropy event for each garbage byte (R174, R176, R180). -/
def State.applyFrame (s : State) (r : FrameRun) : State :=
  match r.frame with
  | some f => { s.setDec r.dec with res := s.res.ofFrame f }
  | none => (s.failDecode r.dec).emit (r.garbage.map fun b => .entropy b s.params.entropyBits)

/-- `OK <- (r = OK) ? 1 : 0` (R172, R175): a decode or parse fails exactly when the decode state is failed (R178). -/
def State.finishDecode (s : State) : Result := .next (s.setOk (okAfterDecode s.dec))

/-- `DECODE_BITSTREAM` (R172). -/
def execDecodeBitstream (s : State) : Result :=
  unlessFaulted s <|
  raiseIf (s.params.rxSize < s.rxLen.toNat) .badArg s <|
  (s.applyFrame (decodeFrame s.rx s.rxLen)).finishDecode

/-- `AltFrame(dec, k)` with the answer `dec` gave (R177). -/
def State.altFrame (s : State) (answer : Option StatsRecord) (k : Byte) : State :=
  match answer with
  | none => s.failDecode ((freshDec s.rxLen 0).fail .altFrame)
  | some r =>
    { s.setDec (freshDec s.rxLen 0) with
      res := { s.res with hc1 := 0, hc2 := 0, addr := 0, cmd := 0, ext := 0, next := s.rxLen, kind := k }
      statsOut := some r }

/-- The record of a trailer once its ID is compared with the frame's house code: back-filled when it has none, `none` when it
names another (R178). -/
def withHouseCode (r : StatsRecord) (hc1 hc2 : Byte) : Option StatsRecord :=
  match r.id with
  | none => some { r with id := some (hc1, hc2) }
  | some i => if i = (hc1, hc2) then some r else none

/-- A trailer that the Stats Codec answered with `answer`, of trailer kind `k` (R178). -/
def State.takeTrailer (s : State) (answer : Option StatsRecord) (k : Byte) : State :=
  match answer with
  | none => s.failDecode (s.dec.fail .trailerCrc)
  | some r =>
    match withHouseCode r s.res.hc1 s.res.hc2 with
    | none => s.failDecode (s.dec.fail .trailerId)
    | some r' => { s with statsOut := some r', res := { s.res with kind := 0x01 ||| (k <<< 2) } }

/-- `Trailer(RES_NEXT)` (R178). -/
def State.trailer (s : State) : State :=
  let n := s.res.next.toNat
  let bytes := s.rx.readList n (s.rxLen.toNat - n)
  match statsClassify s.params (s.rx.read n) with
  | .none => s
  | .min => s.takeTrailer (statsMinDecode s.params bytes) 1
  | .full => s.takeTrailer (statsDecode s.params bytes) 2

/-- The FHT8V path of `PARSE_FRAME`: the frame, then a trailer when bytes follow it (R175). -/
def State.parseFht8v (s : State) : State :=
  let s1 := s.applyFrame (decodeFrame s.rx s.rxLen)
  if !s1.dec.failed && s1.res.next < s1.rxLen then s1.trailer else s1

/-- The body of `PARSE_FRAME` after its check (R175). -/
def State.parse (s : State) : State :=
  let s0 := { s with statsOut := none }
  let bytes := s.rx.readList 0 s.rxLen.toNat
  if 1 ≤ s.rxLen.toNat && jsonLead s.params (s.rx.read 0) then s0.altFrame (jsonDecode s.params bytes) 2
  else if 1 ≤ s.rxLen.toNat && legacyMatch s.params bytes then s0.altFrame (legacyDecode s.params bytes) 3
  else s0.parseFht8v

/-- `PARSE_FRAME` (R175). -/
def execParseFrame (s : State) : Result :=
  unlessFaulted s <|
  raiseIf (s.params.rxSize < s.rxLen.toNat) .badArg s <|
  s.parse.finishDecode

end Sys2Proof.Machine
end

