-- ==== Sys2Proof/Machine/LineDecoder.lean ====
section
/-! DEFINITION. The decoder requests (40_line_code.md section 4). -/

namespace Sys2Proof.Machine

/-- `DEC_INIT start` (R125). -/
def execDecInit (start : Byte) (s : State) : Result :=
  unlessFaulted s <|
  raiseIf (s.params.rxSize < s.rxLen.toNat) .badArg s <|
  .next ((s.setDec (freshDec s.rxLen start)).setOk true)

/-- `DEC_PAIR` (R126). -/
def execDecPair (s : State) : Result :=
  unlessFaulted s <| withinRx s <|
  let r := readPair s.rx s.dec
  s.finishRead (r.1.setWidth 8) r.2

/-- `DEC_BIT` (R127). -/
def execDecBit (s : State) : Result :=
  unlessFaulted s <| withinRx s <|
  let r := readBit s.rx s.dec
  s.finishRead ((BitVec.ofBool r.1).setWidth 8) r.2

/-- `DEC_BYTE` (R128). -/
def execDecByte (s : State) : Result :=
  unlessFaulted s <| withinRx s <|
  let r := readByteP s.rx s.dec
  s.finishRead r.1 r.2

end Sys2Proof.Machine
end

