-- ==== Sys2Proof/Machine/LineEncoder.lean ====
section
/-! DEFINITION. The encoder requests (40_line_code.md section 2). Their checks stand in the order of 60_exceptions.md R234. -/

namespace Sys2Proof.Machine

/-- `ENC_INIT pos` (R101). -/
def execEncInit (pos : Byte) (s : State) : Result :=
  unlessFaulted s <|
  raiseIf (s.params.txSize ≤ pos.toNat) .badArg s <|
  raiseIf s.txActive .txBusy s <|
  .next ((s.setEnc (s.enc.start pos)).setOk true)

/-- `ENC_RAW v` (R102). -/
def execEncRaw (v : Byte) (s : State) : Result :=
  unlessFaulted s <|
  raiseIf (!s.enc.ready) .notReady s <|
  raiseIf (v == 0xFF) .badArg s <|
  raiseIf s.txActive .txBusy s <|
  withinTx s.enc.ptr.toNat s <|
  raiseIf (s.enc.current.extractLsb' 0 2 != 0b11) .encNotEmpty s <|
  s.finishTx (appendRaw s.params.txSize v (s.enc.setValid false))

/-- `ENC_BIT x` (R103). -/
def execEncBit (x : Bool) (s : State) : Result := s.encodeWith fun size => appendBit size x

/-- `ENC_BYTE v` (R104). -/
def execEncByte (v : Byte) (s : State) : Result := s.encodeWith fun size => appendByte size v

/-- `ENC_TERM` (R105). -/
def execEncTerm (s : State) : Result :=
  unlessFaulted s <|
  raiseIf (!s.enc.ready) .notReady s <|
  raiseIf s.txActive .txBusy s <|
  withinTx s.enc.ptr.toNat s <|
  .next ((s.setEnc (s.enc.terminate.setValid true)).setOk true)

end Sys2Proof.Machine
end

