-- ==== Sys2Proof/Machine/Wire.lean ====
section
/-! DEFINITION. The rows of the opcode table that are no requests: the line-code symbols (30_encoding.md R70, R71) and the
command bytes (43_valve_commands.md R201 to R203). -/

namespace Sys2Proof.Machine

/-- `LINE0` (R70): the encoder lays down the pairs `11`, `00`, under the checks and with the flags of an encoder request. DESIGN
CHOICE, unsafe: the spec gives the symbol, not a step that applies it (log 9). -/
def execLine0 (s : State) : Result := s.encodeWith fun size => appendPairs size [0b11, 0b00]

/-- `LINE1` (R71): the encoder lays down the pairs `11`, `10`, `00`. DESIGN CHOICE, unsafe (log 9). -/
def execLine1 (s : State) : Result := s.encodeWith fun size => appendPairs size [0b11, 0b10, 0b00]

/-- The two host writes that give a frame its command and its extension. -/
def State.setCommand (s : State) (cmd ext : Byte) : State := { s with args := { s.args with cmd := cmd, ext := ext } }

/-- `CMD_SET_ZERO` (R201): the host's steps `WR ARG_CMD, 0x20; WR ARG_EXT, 0x00; BUILD_BITSTREAM 0x00`. DESIGN CHOICE, unsafe:
the spec has no one step that does them (log 10). -/
def execCmdSetZero (s : State) : Result := (s.setCommand 0x20 0x00).buildAt 0

/-- `CMD_SET_PERCENT` (R202): the request that produces it, `BUILD_VALVE_SET`, which writes command 0x26 and the scaled
percentage. DESIGN CHOICE, unsafe (log 10). -/
def execCmdSetPercent (s : State) : Result := s.valveSet

/-- `CMD_SYNC_TICK` (R203): the host's steps `WR ARG_CMD, 0x2C; BUILD_BITSTREAM 0x00`, with the countdown the host has put in
`ARG_EXT`. DESIGN CHOICE, unsafe (log 10). -/
def execCmdSyncTick (s : State) : Result := (s.setCommand 0x2C s.args.ext).buildAt 0

end Sys2Proof.Machine
end

