-- ==== Sys2Proof/Machine/Dispatch.lean ====
section
/-! DEFINITION. The meaning of each instruction: one arm for each row of spec/opcode_table.json. -/

namespace Sys2Proof.Machine

def exec (i : Instr) (s : State) : Host.Outcome State Fault Refusal :=
  match i with
  | .reset => Sys2Proof.Machine.execReset s
  | .encInit pos => Sys2Proof.Machine.execEncInit pos s
  | .encRaw v => Sys2Proof.Machine.execEncRaw v s
  | .encBit x => Sys2Proof.Machine.execEncBit x s
  | .encByte v => Sys2Proof.Machine.execEncByte v s
  | .encTerm => Sys2Proof.Machine.execEncTerm s
  | .decInit start => Sys2Proof.Machine.execDecInit start s
  | .decPair => Sys2Proof.Machine.execDecPair s
  | .decBit => Sys2Proof.Machine.execDecBit s
  | .decByte => Sys2Proof.Machine.execDecByte s
  | .checksum => Sys2Proof.Machine.execChecksum s
  | .buildBitstream base => Sys2Proof.Machine.execBuildBitstream base s
  | .buildValveSet => Sys2Proof.Machine.execBuildValveSet s
  | .decodeBitstream => Sys2Proof.Machine.execDecodeBitstream s
  | .parseFrame => Sys2Proof.Machine.execParseFrame s
  | .line0 => Sys2Proof.Machine.execLine0 s
  | .line1 => Sys2Proof.Machine.execLine1 s
  | .cmdSetZero => Sys2Proof.Machine.execCmdSetZero s
  | .cmdSetPercent => Sys2Proof.Machine.execCmdSetPercent s
  | .cmdSyncTick => Sys2Proof.Machine.execCmdSyncTick s

end Sys2Proof.Machine
end

