-- ==== Sys2Proof/Machine/HostPort.lean ====
section
/-! DEFINITION. The steps of the host and the transceiver that are no requests: register and buffer accesses (10_state.md R30,
20_memory.md R51, R52), `TX_START` and the transmission (44_control.md R216), `STATS_IN` (10_state.md R36). -/

namespace Sys2Proof.Machine

/-- The value of register `n`; reserved numbers read 0 (10_state.md R30, R38). -/
def State.readReg (s : State) (n : Byte) : Byte :=
  match n.toNat with
  | 0x01 => statusByte s
  | 0x02 => s.dec.reason.code
  | 0x03 => s.fcode.code
  | 0x04 => s.enc.ptr
  | 0x05 => s.enc.txEnd
  | 0x06 => s.dec.ptr
  | 0x07 => s.dec.mask.byte
  | 0x08 => s.dec.stop
  | 0x09 => s.rxLen
  | 0x0A => s.args.hc1
  | 0x0B => s.args.hc2
  | 0x0C => s.args.addr
  | 0x0D => s.args.cmd
  | 0x0E => s.args.ext
  | 0x0F => s.args.pct
  | 0x10 => s.args.thresh
  | 0x11 => s.args.flags
  | 0x12 => s.res.hc1
  | 0x13 => s.res.hc2
  | 0x14 => s.res.addr
  | 0x15 => s.res.cmd
  | 0x16 => s.res.ext
  | 0x17 => s.res.csum
  | 0x18 => s.res.next
  | 0x19 => s.res.val
  | 0x1A => s.res.kind
  | _ => 0

/-- A host write of `v` to register `n`: only the RW registers change, and `ARG_FLAGS` keeps its bits 7:4 at 0 (R30, R32,
R38). -/
def State.writeReg (s : State) (n v : Byte) : State :=
  match n.toNat with
  | 0x09 => { s with rxLen := v }
  | 0x0A => { s with args := { s.args with hc1 := v } }
  | 0x0B => { s with args := { s.args with hc2 := v } }
  | 0x0C => { s with args := { s.args with addr := v } }
  | 0x0D => { s with args := { s.args with cmd := v } }
  | 0x0E => { s with args := { s.args with ext := v } }
  | 0x0F => { s with args := { s.args with pct := v } }
  | 0x10 => { s with args := { s.args with thresh := v } }
  | 0x11 => { s with args := { s.args with flags := v &&& 0x0F } }
  | _ => s

/-- What a host read returned (log 13). -/
def State.setHostData (s : State) (v : BitVec 16) : State := { s with hostData := v }

/-- A read of `REQ` returns 0 (30_encoding.md R80). -/
def readReqPort (s : State) : Result := .next (s.setHostData 0)

/-- `RD n`: no state of the block changes (20_memory.md R58). -/
def readRegStep (n : Byte) (s : State) : Result := .next (s.setHostData ((s.readReg n).setWidth 16))

/-- `WR n, v`, also while `FAULT = 1` (60_exceptions.md R233). -/
def writeRegStep (n v : Byte) (s : State) : Result := .next (s.writeReg n v)

/-- A host read of a TX byte (20_memory.md R51, R58). -/
def readTxStep (a : Byte) (s : State) : Result :=
  withinTx a.toNat s <| .next (s.setHostData ((s.enc.tx.read a.toNat).setWidth 16))

/-- A host write to TX is refused: it has no effect (93_implementation_defined.md I9, D34). -/
def writeTxStep (_a _v : Byte) (s : State) : Result := .next s

/-- A host read of an RX byte (R52, R58). -/
def readRxStep (a : Byte) (s : State) : Result :=
  if s.params.rxSize ≤ a.toNat then .fault .rxOutside
  else .next (s.setHostData ((s.rx.read a.toNat).setWidth 16))

/-- `RXW a, v` (44_control.md R217). -/
def writeRxStep (a v : Byte) (s : State) : Result :=
  if s.params.rxSize ≤ a.toNat then .fault .rxOutside
  else .next { s with rx := s.rx.write a.toNat v }

/-- `TX_START k`: ignored while `FAULT = 1`, else `TX_BUSY`, `TX_INVALID`, or the start of a transmission at `k` (R216). -/
def txStart (k : Byte) (s : State) : Result :=
  unlessFaulted s <|
  raiseIf s.txActive .txBusy s <|
  raiseIf (!s.enc.txValid || s.enc.txEnd < k) .txInvalid s <|
  .next { s with txActive := true, txIndex := k.toNat }

/-- One transceiver step while `TX_ACTIVE = 1`: the sentinel ends the transmission and is not sent, any other byte is sent
(R216). While `TX_ACTIVE = 0` the transceiver takes no step. -/
def transceiverStep (s : State) : Result :=
  if s.txActive then
    withinTx s.txIndex s <|
    if s.enc.tx.read s.txIndex = sentinel then .next { s with txActive := false }
    else .next { s.emit [.sent (s.enc.tx.read s.txIndex)] with txIndex := s.txIndex + 1 }
  else .next s

/-- The host supplies `STATS_IN`, or withdraws it, also while `FAULT = 1`, and nothing else changes (10_state.md R36). DESIGN
CHOICE, unsafe: the spec passes the record as an input of the request and names no step for it, neither among the steps of
20_memory.md R61 nor among the host accesses of 60_exceptions.md R233 (log 21). -/
def setStatsIn (r : Option StatsRecord) (s : State) : Result := .next { s with statsIn := r }

/-- Power-on reset (70_reset_and_hazards.md R260). -/
def powerOnStep (drives : Option Byte) (s : State) : Result := .next (s.powerOn drives)

/-- No step is scheduled: the block waits, and a transmission that has started goes on (R216, R280; log 2). -/
def idleStep (s : State) : Result := transceiverStep s

end Sys2Proof.Machine
end

