-- ==== Sys2Proof/Machine/Step.lean ====
section
/-! DEFINITION. One step of the machine: the next step of the schedule (20_memory.md R61). -/

namespace Sys2Proof.Machine

/-- A word written to `REQ` (60_exceptions.md R234): the request it asks for, or an illegal word. -/
def submitRequest (w : ReqWord) (s : State) : Result :=
  match decode (.request w) with
  | some i => exec i s
  | none => illegalRequest s

/-- One of the table's wire codewords applied (log 9, log 10); a byte that is none of them has no meaning (log 11). -/
def applyCodeword (w : Byte) (s : State) : Result :=
  match decode (.codeword w) with
  | some i => exec i s
  | none => .refused .unknownCodeword

/-- What one scheduled step does, the state being the one with that step taken off the schedule. -/
def runHostStep (h : HostStep) (s : State) : Result :=
  match h with
  | .request w => submitRequest w s
  | .codeword w => applyCodeword w s
  | .readReq => readReqPort s
  | .readReg n => readRegStep n s
  | .writeReg n v => writeRegStep n v s
  | .readTx a => readTxStep a s
  | .writeTx a v => writeTxStep a v s
  | .readRx a => readRxStep a s
  | .writeRx a v => writeRxStep a v s
  | .txStart k => txStart k s
  | .transceiver => transceiverStep s
  | .setStatsIn r => setStatsIn r s
  | .powerOn drives => powerOnStep drives s

/-- One step: the first step of the schedule, or, with none scheduled, the idle step. -/
def step (s : State) : Host.Outcome State Fault Refusal :=
  match s.schedule with
  | [] => idleStep s
  | h :: rest => runHostStep h { s with schedule := rest }

/-- The schedule entry that carries an encoded word. -/
def HostStep.ofEncoded : Encoded → HostStep
  | .request w => .request w
  | .codeword w => .codeword w

/-- `s` with the word put at the head of the schedule, where the next step takes it from (log 1). -/
def State.withFetchWord (s : State) (nbits w : Nat) : State :=
  { s with schedule := .ofEncoded (tableWord nbits w) :: s.schedule }

end Sys2Proof.Machine
end

