-- ==== Sys2Proof/WellFormed.lean ====
section
/-! DEFINITION. The checks: which request words are legal (30_encoding.md R83), which codewords the table names, and which
parameters a block may be built with (00_scope.md R8). An `Instr` needs no check: its operands are as wide as their fields. -/

namespace Sys2Proof

/-- The operation codes that use `IMM8` (30_encoding.md R83(d)). -/
def usesImm (op : BitVec 4) : Bool :=
  op == 0x1 || op == 0x2 || op == 0x4 || op == 0x6 || op == 0xB

/-- A request word is legal when none of R83(a) to (d) holds of it. -/
def legalRequest (w : ReqWord) : Bool :=
  let op := w.extractLsb' 12 4
  let rsv := w.extractLsb' 9 3
  let b := w.getLsbD 8
  let imm := w.extractLsb' 0 8
  !(op == 0xF) && rsv == 0 && !(b && !(op == 0x3)) && !(imm != 0 && !usesImm op)

/-- The codewords of the table: `1100`, `111000` and the three command bytes (R70, R71, R200). -/
def knownCodeword (w : Byte) : Bool :=
  w == 0b1100 || w == 0b111000 || w == 0x20 || w == 0x26 || w == 0x2C

/-- Whether a word is the encoding of some instruction. -/
def Encoded.legal : Encoded → Bool
  | .request w => legalRequest w
  | .codeword w => knownCodeword w

/-- The longest header a build can write: `HDRLEN = P_HDR_EN ? P_HDR_LEN : 0` (00_scope.md R8, 41_frame_builder.md R152). -/
def Params.maxHeader (p : Params) : Nat := if p.hdrEn then p.hdrLen else 0

/-- `P_TX_BUF_SIZE` is in [46, 255] and at least `HDRLEN + (P_ADDR_EN ? 48 : 46)` (R8). -/
def Params.txSizeOk (p : Params) : Bool :=
  46 ≤ p.txSize && p.txSize ≤ 255 && p.maxHeader + (if p.addrEn then 48 else 46) ≤ p.txSize

/-- `P_RX_BUF_SIZE` is in [1, 255] (R8). -/
def Params.rxSizeOk (p : Params) : Bool := 1 ≤ p.rxSize && p.rxSize ≤ 255

/-- `P_HDR_BYTE` is not 0xFF and `P_HDR_LEN` is in [1, 209] (R8, D20). -/
def Params.headerOk (p : Params) : Bool :=
  p.hdrByte != 0xFF && 1 ≤ p.hdrLen && p.hdrLen ≤ 209

/-- The ranges R8 gives the parameters. -/
def Params.wf (p : Params) : Bool := p.txSizeOk && p.rxSizeOk && p.headerOk

end Sys2Proof
end

