-- ==== Sys2Proof/Safety.lean ====
section
/-! DEFINITION. The terms the claims use: the physical pairs an encoder has laid down, the pairs a decoder has still to read,
and the invariant of the block's state. -/

namespace Sys2Proof.Machine

/-- One byte of TXBUF. -/
def State.txByte (s : State) (a : Nat) : Byte := s.enc.tx.read a

/-- One byte of RXBUF. -/
def State.rxByte (s : State) (a : Nat) : Byte := s.rx.read a

/-- The pairs of `n` bytes of a buffer from index `a` on, in wire order (20_memory.md R55). -/
def Memory.pairs (m : Memory) (a n : Nat) : List Pair := (m.readList a n).flatMap bytePairs

/-- The pairs laid down since index `base`: those of the completed bytes and the filled ones of the byte being built
(10_state.md R24, R27). -/
def Encoder.stream (e : Encoder) (base : Nat) : List Pair :=
  e.tx.pairs base (e.ptr.toNat - base) ++ (bytePairs e.current).take (pairsFilled e.current)

/-- How far `ENC_PTR` moves when `n` more pairs are laid down (40_line_code.md R100). -/
def Encoder.bytesFilledBy (e : Encoder) (n : Nat) : Nat := (pairsFilled e.current + n) / 4

/-- The pairs the decoder has still to read: from its cursor to the declared end (40_line_code.md R121). -/
def Decoder.ahead (d : Decoder) (rx : Memory) : List Pair :=
  (rx.pairs d.ptr.toNat (d.stop.toNat - d.ptr.toNat)).drop d.mask.index

/-- How many pairs of RXBUF stand before the cursor: `DEC_PTR` and `DEC_MASK` in one number (40_line_code.md R121). -/
def Decoder.pos (d : Decoder) : Nat := 4 * d.ptr.toNat + d.mask.index

/-- The payload that `DECODE_BITSTREAM` finds starts at RX index `i`: at the first byte from 2 on that is no preamble, or at 6
(42_frame_parser.md R171). -/
def State.payloadAt (s : State) (i : Nat) : Prop :=
  2 ≤ i ∧ i ≤ 6 ∧ (∀ k, k < i → s.rxByte k = 0xCC) ∧ (i < 6 → s.rxByte i ≠ 0xCC)

/-- The pairs that `L` completed bytes of a frame hold: the frame from preamble to padding, cut after `L` bytes
(30_encoding.md R76, R77). -/
def framePairs (p : Params) (a : ArgRegs) : List Pair := (linePairs (frameBits p a)).take (4 * frameLen p a)

/-- The frame of the argument registers `a` stands in TXBUF from index `base` on, its sentinel right after it (R76, R77,
20_memory.md R59). -/
def State.holdsFrame (s : State) (a : ArgRegs) (base : Nat) : Prop :=
  s.enc.tx.pairs base (frameLen s.params a) = framePairs s.params a ∧
  s.txByte (base + frameLen s.params a) = sentinel

/-- The first `n` bytes of RXBUF are the bytes of TXBUF of `t` from index `base` on (41_frame_builder.md R156). -/
def State.receives (u t : State) (base n : Nat) : Prop :=
  u.rxLen.toNat = n ∧ ∀ k, k < n → u.rxByte k = t.txByte (base + k)

/-- The fault codes an instruction may raise, as the table of 60_exceptions.md R230 lists them by request. The rows of the
table that are no requests have those of the operation the model gives them (log 9, log 10). -/
def mayRaise : Instr → List FaultCode
  | .reset => []
  | .encInit _ => [.badArg, .txBusy]
  | .encRaw _ => [.notReady, .badArg, .txBusy, .encNotEmpty, .txOverflow]
  | .encBit _ => [.notReady, .txBusy, .txOverflow]
  | .encByte _ => [.notReady, .txBusy, .txOverflow]
  | .encTerm => [.notReady, .txBusy]
  | .decInit _ => [.badArg]
  | .decPair => []
  | .decBit => []
  | .decByte => []
  | .checksum => []
  | .buildBitstream _ => [.badArg, .txBusy, .txOverflow]
  | .buildValveSet => [.badArg, .txBusy, .txOverflow, .statsBad]
  | .decodeBitstream => [.badArg]
  | .parseFrame => [.badArg]
  | .line0 => [.notReady, .txBusy, .txOverflow]
  | .line1 => [.notReady, .txBusy, .txOverflow]
  | .cmdSetZero => [.badArg, .txBusy, .txOverflow]
  | .cmdSetPercent => [.badArg, .txBusy, .txOverflow, .statsBad]
  | .cmdSyncTick => [.badArg, .txBusy, .txOverflow]

/-- What every state of a block with legal parameters satisfies. -/
structure State.Inv (s : State) : Prop where
  /-- the parameters are in the ranges of 00_scope.md R8 -/
  paramsOk : s.params.wf = true
  /-- TXBUF is in canonical form (20_memory.md R50) -/
  txOk : s.enc.tx.wf s.params.txSize = true
  /-- RXBUF is in canonical form -/
  rxOk : s.rx.wf s.params.rxSize = true
  /-- `ENC_PTR` stays inside TXBUF (10_state.md R21) -/
  ptrOk : s.enc.ptr.toNat < s.params.txSize
  /-- `TX_END` is an index of TXBUF (R26) -/
  txEndOk : s.enc.txEnd.toNat < s.params.txSize
  /-- while `TXVALID = 1` the stream in TXBUF ends with the sentinel (R26, 44_control.md R216) -/
  sentinelOk : s.enc.txValid = true → s.txByte s.enc.txEnd.toNat = sentinel
  /-- an open stream is not a complete one (R24, R26) -/
  openNotValid : s.enc.ready = true → s.enc.txValid = false
  /-- `DEC_END <= P_RX_BUF_SIZE` (R21) -/
  stopOk : s.dec.stop.toNat ≤ s.params.rxSize
  /-- a reason is recorded exactly when the decode state is failed (40_line_code.md R120) -/
  reasonOk : s.dec.failed = true ↔ s.dec.reason ≠ .none
  /-- `FCODE` holds 0 exactly when `FAULT = 0` (10_state.md R29) -/
  fcodeOk : s.fault = true ↔ s.fcode ≠ .none
  /-- `OK = 0` in the fault state (60_exceptions.md R231 to R233) -/
  okOk : s.fault = true → s.ok = false
  /-- bits 7:4 of `ARG_FLAGS` read 0 (10_state.md R32) -/
  flagsOk : s.args.flags &&& 0xF0 = 0
  /-- bits 7:4 of `RES_KIND` read 0 and its `TRAILER` is never 3 (R34) -/
  kindOk : s.res.kind &&& 0xF0 = 0 ∧ s.res.kind &&& 0x0C ≠ 0x0C

end Sys2Proof.Machine
end

