-- ==== Sys2Proof/Certificates/Slice0/Obligations.lean ====
section
/-! DEFINITION. The statements for the provers. Each docstring names the rule of spec/ it formalises, or says that it states a
choice of the model and names the log entry. -/

open Sys2Proof Sys2Proof.Machine

/-! ### Encoding -/

/-- Decoding the word of any instruction gives it back, with every operand, and a word that decodes is the word of the instruction
it decodes to, so that no two words mean the same (30_encoding.md R80 to R83; the table's codewords as log 16 lays them out). -/
def Obligations.DecodeAndEncodeAgree : Prop :=
  (∀ i : Instr, decode (encode i) = some i) ∧ (∀ (w : Encoded) (i : Instr), decode w = some i → encode i = w)

/-- R83: which words are illegal, what an illegal word does, and that every other word is exactly one request. -/
def Obligations.IllegalWordsRaiseIllegalReq : Prop :=
  ∀ w : ReqWord,
    ((w.extractLsb' 12 4 = 0xF ∨ w.extractLsb' 9 3 ≠ 0 ∨ (w.getLsbD 8 = true ∧ w.extractLsb' 12 4 ≠ 0x3) ∨
        (w.extractLsb' 0 8 ≠ 0 ∧ w.extractLsb' 12 4 ∉ ([0x1, 0x2, 0x4, 0x6, 0xB] : List (BitVec 4)))) →
      decode (.request w) = none ∧
      ∀ (s : State) (rest : List HostStep), s.schedule = .request w :: rest → s.fault = false →
        step s = .next { s with schedule := rest, fault := true, fcode := .illegalReq, ok := false }) ∧
    (¬ (w.extractLsb' 12 4 = 0xF ∨ w.extractLsb' 9 3 ≠ 0 ∨ (w.getLsbD 8 = true ∧ w.extractLsb' 12 4 ≠ 0x3) ∨
        (w.extractLsb' 0 8 ≠ 0 ∧ w.extractLsb' 12 4 ∉ ([0x1, 0x2, 0x4, 0x6, 0xB] : List (BitVec 4)))) →
      ∃ i, decode (.request w) = some i ∧ encode i = .request w)

/-- Request words written out from the encodings of R81 decode to their instructions; so do three codewords of the table, whose
patterns are those of R70, R71 and R202 and whose layout in a byte, right-aligned, is the model's reading (log 16). -/
def Obligations.SampleWordsDecode : Prop :=
  decode (.request 0b0000000000000000) = some .reset ∧
  decode (.request 0b0001000000000101) = some (.encInit 5) ∧
  decode (.request 0b0010000011001100) = some (.encRaw 0xCC) ∧
  decode (.request 0b0011000100000000) = some (.encBit true) ∧
  decode (.request 0b0100000000100110) = some (.encByte 0x26) ∧
  decode (.request 0b0110000000000010) = some (.decInit 2) ∧
  decode (.request 0b1000000000000000) = some .decBit ∧
  decode (.request 0b1010000000000000) = some .checksum ∧
  decode (.request 0b1011000000011100) = some (.buildBitstream 0x1C) ∧
  decode (.request 0b1110000000000000) = some .parseFrame ∧
  decode (.codeword 0b1100) = some .line0 ∧
  decode (.codeword 0b111000) = some .line1 ∧
  decode (.codeword 0b00100110) = some .cmdSetPercent

/-- When the word at the head of the schedule decodes to an instruction, the step is that instruction, run on the state with
the word taken off (20_memory.md R61; the schedule is the model's, log 1). -/
def Obligations.StepRunsDecodedInstruction : Prop :=
  (∀ (s : State) (w : ReqWord) (rest : List HostStep) (i : Instr), s.schedule = .request w :: rest →
    decode (.request w) = some i → step s = exec i { s with schedule := rest }) ∧
  (∀ (s : State) (w : Byte) (rest : List HostStep) (i : Instr), s.schedule = .codeword w :: rest →
    decode (.codeword w) = some i → step s = exec i { s with schedule := rest }) ∧
  (∀ (s : State) (nbits w : Nat) (i : Instr), decodeTableWord nbits w = some i →
    step (s.withFetchWord nbits w) = exec i s)

/-! ### Reset -/

/-- After power-on every register reads its value of 10_state.md R40, and no stats record is held. (`TX_ACTIVE` is 0 in the reset
state by the model's choice, log 7.) -/
def Obligations.ResetStateRegisterValues : Prop :=
  (∀ n : Byte, State.reset.readReg n = if n = 0x01 then 0x10 else if n = 0x07 then 0xC0 else 0) ∧
  State.reset.enc.ready = false ∧ State.reset.enc.txValid = false ∧ State.reset.dec.failed = false ∧
  State.reset.ok = false ∧ State.reset.fault = false ∧ State.reset.statsIn = none ∧ State.reset.statsOut = none

/-- `RESET` completes in every state, the fault state too: every register reads its reset value, `STATUS` reads 0x10, or 0x50
during a transmission, no record is held, and the buffers, the transmission and everything outside the block are as before
(44_control.md R210). -/
def Obligations.ResetRequestRestoresRegisters : Prop :=
  ∀ s : State, ∃ t, exec .reset s = .next t ∧
    (∀ n : Byte, n ≠ 0x01 → t.readReg n = State.reset.readReg n) ∧
    t.readReg 0x01 = (if s.txActive then 0x50 else 0x10) ∧
    t.statsIn = none ∧ t.statsOut = none ∧
    (∀ a, t.txByte a = s.txByte a) ∧ (∀ a, t.rxByte a = s.rxByte a) ∧
    t = { s with enc := { State.reset.enc with tx := s.enc.tx }, dec := State.reset.dec, args := State.reset.args,
                 res := State.reset.res, rxLen := 0, ok := false, fault := false, fcode := .none,
                 statsIn := none, statsOut := none }

/-- Power-on reset from any state: registers as after `RESET`, no byte of either buffer written any more, and a transmission in
progress over (70_reset_and_hazards.md R260, R261). `TX_ACTIVE` then reads what the transceiver drives; that it comes with an
index, and that the schedule and the events are left alone, is the model's choice (log 14). -/
def Obligations.PowerOnRestoresRegisters : Prop :=
  ∀ (s : State) (drives : Option Byte) (rest : List HostStep), s.schedule = .powerOn drives :: rest →
    ∃ t, step s = .next t ∧ (∀ n : Byte, n ≠ 0x01 → t.readReg n = State.reset.readReg n) ∧
      t.readReg 0x01 = (if drives = none then 0x10 else 0x50) ∧ t.statsIn = none ∧ t.statsOut = none ∧
      t.enc.tx.cells = [] ∧ t.rx.cells = [] ∧ t.fault = false ∧
      t.txActive = decide (drives ≠ none) ∧ (∀ k, drives = some k → t.txIndex = k.toNat) ∧
      t.params = s.params ∧ t.events = s.events ∧ t.schedule = rest ∧ t.hostData = s.hostData

/-! ### The invariant -/

/-- The reset state satisfies the invariant. The clauses on the parameters hold by the model's choice of them (log 3). -/
def Obligations.ResetStateSatisfiesInvariant : Prop := State.reset.Inv

/-- Every step that answers a next state keeps the invariant: canonical buffers, cursors inside their buffers, the sentinel
where `TXVALID` promises it, reasons and fault codes exactly when there is a failure or a fault, reserved bits 0. -/
def Obligations.StepKeepsInvariant : Prop := ∀ s t : State, s.Inv → step s = .next t → t.Inv

/-! ### Faults -/

/-- 60_exceptions.md R233: while `FAULT = 1` requests and `TX_START` are ignored, host accesses and the transmission are not. -/
def Obligations.FaultStateIsSticky : Prop :=
  ∀ (s : State) (rest : List HostStep), s.fault = true →
    (∀ w : ReqWord, w ≠ 0 → s.schedule = .request w :: rest → step s = .next { s with schedule := rest }) ∧
    (∀ k : Byte, s.schedule = .txStart k :: rest → step s = .next { s with schedule := rest }) ∧
    (∀ n : Byte, s.schedule = .readReg n :: rest →
      step s = .next { s with schedule := rest, hostData := (s.readReg n).setWidth 16 }) ∧
    (∀ n v : Byte, s.schedule = .writeReg n v :: rest →
      step s = .next ((State.writeReg { s with schedule := rest } n v))) ∧
    (∀ a v : Byte, a.toNat < s.params.rxSize → s.schedule = .writeRx a v :: rest →
      step s = .next { s with schedule := rest, rx := s.rx.write a.toNat v }) ∧
    (∀ a : Byte, a.toNat < s.params.txSize → s.schedule = .readTx a :: rest →
      step s = .next { s with schedule := rest, hostData := (s.txByte a.toNat).setWidth 16 }) ∧
    (s.txActive = true → s.txIndex < s.params.txSize → s.schedule = .transceiver :: rest →
      (s.txByte s.txIndex = 0xFF → step s = .next { s with schedule := rest, txActive := false }) ∧
      (s.txByte s.txIndex ≠ 0xFF → step s = .next { s with schedule := rest, txIndex := s.txIndex + 1,
                                                           events := s.events ++ [.sent (s.txByte s.txIndex)] })) ∧
    (s.schedule = .request 0 :: rest → ∃ t, step s = .next t ∧ t.fault = false)

/-- The only ways out of the fault state are the `RESET` request and power-on, and until then `FCODE` keeps its code (R235,
10_state.md R29). -/
def Obligations.FaultLeftOnlyByReset : Prop :=
  ∀ s t : State, s.fault = true → step s = .next t →
    (t.fault = true ∧ t.fcode = s.fcode) ∨
    (∃ rest, s.schedule = .request 0 :: rest) ∨ (∃ drives rest, s.schedule = .powerOn drives :: rest)

/-- Each instruction raises only the faults the table of R230 lists for it, with `OK = 0` (R232); `RESET`, `CHECKSUM` and the
primitive decodes raise none (R236). -/
def Obligations.OnlyListedFaultsAreRaised : Prop :=
  ∀ (i : Instr) (s t : State), s.fault = false → exec i s = .next t → t.fault = true →
    t.fcode ∈ mayRaise i ∧ t.ok = false

/-- A TX-writing request that reaches the check while a transmission runs raises `TX_BUSY` and changes nothing else (R234,
20_memory.md R66). -/
def Obligations.TxWritingRequestsRaiseTxBusy : Prop :=
  ∀ (s : State) (i : Instr), s.fault = false → s.txActive = true →
    ((∃ pos, i = .encInit pos ∧ pos.toNat < s.params.txSize) ∨
     (∃ v, i = .encRaw v ∧ s.enc.ready = true ∧ v ≠ 0xFF) ∨
     (∃ x, i = .encBit x ∧ s.enc.ready = true) ∨
     (∃ v, i = .encByte v ∧ s.enc.ready = true) ∨
     (i = .encTerm ∧ s.enc.ready = true) ∨
     (∃ base, i = .buildBitstream base ∧ base.toNat < s.params.txSize) ∨
     (i = .buildValveSet ∧ s.args.pct.toNat ≤ 100 ∧ 1 ≤ s.args.thresh.toNat ∧ s.args.thresh.toNat ≤ 100 ∧
       (s.args.flags.getLsbD 0 = true → s.args.flags.getLsbD 3 = true → s.statsIn ≠ none))) →
    exec i s = .next { s with fault := true, fcode := .txBusy, ok := false }

/-- `NOT_READY` comes before every other check of the encoder requests, and the `BAD_ARG` of `ENC_RAW 0xFF` before its
`TX_BUSY` and its `ENC_NOT_EMPTY` (R234). -/
def Obligations.EncoderChecksComeInOrder : Prop :=
  (∀ (s : State) (i : Instr), s.fault = false → s.enc.ready = false →
    ((∃ v, i = .encRaw v) ∨ (∃ x, i = .encBit x) ∨ (∃ v, i = .encByte v) ∨ i = .encTerm) →
    exec i s = .next { s with fault := true, fcode := .notReady, ok := false }) ∧
  (∀ s : State, s.fault = false → s.enc.ready = true →
    exec (.encRaw 0xFF) s = .next { s with fault := true, fcode := .badArg, ok := false }) ∧
  (∀ (s : State) (v : Byte), s.fault = false → s.enc.ready = true → v ≠ 0xFF → s.txActive = false →
    s.enc.ptr.toNat < s.params.txSize → s.enc.current.extractLsb' 0 2 ≠ 0b11 →
    exec (.encRaw v) s = .next { s with fault := true, fcode := .encNotEmpty, ok := false })

/-- An operand out of its range raises `BAD_ARG` and changes nothing else, also while a transmission runs (R230, R234). -/
def Obligations.OutOfRangeOperandsRaiseBadArg : Prop :=
  ∀ (s : State) (i : Instr), s.fault = false →
    ((∃ pos, i = .encInit pos ∧ s.params.txSize ≤ pos.toNat) ∨
     (∃ base, i = .buildBitstream base ∧ s.params.txSize ≤ base.toNat) ∨
     ((i = .decodeBitstream ∨ i = .parseFrame ∨ ∃ start, i = .decInit start) ∧ s.params.rxSize < s.rxLen.toNat) ∨
     (i = .buildValveSet ∧ (100 < s.args.pct.toNat ∨ s.args.thresh = 0 ∨ 100 < s.args.thresh.toNat ∨
       (s.args.flags.getLsbD 0 = true ∧ s.args.flags.getLsbD 3 = true ∧ s.statsIn = none)))) →
    exec i s = .next { s with fault := true, fcode := .badArg, ok := false }

/-- Where the model stops: at a byte that a buffer does not have, and at a codeword that is no row of the table. The stops are the
model's (log 11, log 12); in a state that a run reaches only the host's own accesses and an unknown codeword meet them. -/
def Obligations.AccessesOutsideTheBuffersStop : Prop :=
  (∀ (s : State) (i : Instr), s.fault = false → s.txActive = false →
    (s.enc.ready = true ∧ s.params.txSize ≤ s.enc.ptr.toNat ∧
      ((∃ v, v ≠ 0xFF ∧ i = .encRaw v) ∨ (∃ x, i = .encBit x) ∨ (∃ v, i = .encByte v) ∨ i = .encTerm ∨ i = .line0 ∨
        i = .line1)) ∨
    ((i = .buildValveSet ∨ i = .cmdSetPercent) ∧ s.args.pct.toNat ≤ 100 ∧ 1 ≤ s.args.thresh.toNat ∧
      s.args.thresh.toNat ≤ 100 ∧ (s.args.flags.getLsbD 0 = true → s.args.flags.getLsbD 3 = true → s.statsIn ≠ none) ∧
      s.params.txSize ≤ (if s.params.hdrEn = true ∧ s.args.thresh.toNat ≤ s.args.pct.toNat then s.params.hdrLen else 0)) →
    exec i s = .fault .txOutside) ∧
  (∀ (s : State) (i : Instr), s.fault = false → s.params.rxSize < s.dec.stop.toNat →
    i = .decPair ∨ i = .decBit ∨ i = .decByte → exec i s = .fault .rxOutside) ∧
  (∀ (s : State) (rest : List HostStep) (a v : Byte),
    (s.params.txSize ≤ a.toNat → s.schedule = .readTx a :: rest → step s = .fault .txOutside) ∧
    (s.params.rxSize ≤ a.toNat → s.schedule = .readRx a :: rest → step s = .fault .rxOutside) ∧
    (s.params.rxSize ≤ a.toNat → s.schedule = .writeRx a v :: rest → step s = .fault .rxOutside) ∧
    (s.txActive = true → s.params.txSize ≤ s.txIndex → s.schedule = .transceiver :: rest →
      step s = .fault .txOutside) ∧
    (v ∉ ([0x0C, 0x38, 0x20, 0x26, 0x2C] : List Byte) → s.schedule = .codeword v :: rest →
      step s = .refused .unknownCodeword))

/-! ### What no instruction touches -/

/-- No instruction changes RXBUF, the parameters, the schedule, the host's data or the transmission; only `RESET` changes
`RX_LEN` and `STATS_IN`; only `RESET`, `BUILD_VALVE_SET` and the command rows change an argument register (10_state.md R23,
R31; `RESET` as log 20 reads R31). -/
def Obligations.InstructionsLeaveTheSurroundingsAlone : Prop :=
  ∀ (i : Instr) (s t : State), exec i s = .next t →
    (∀ a, t.rxByte a = s.rxByte a) ∧ t.rx = s.rx ∧ t.params = s.params ∧ t.schedule = s.schedule ∧
    t.hostData = s.hostData ∧ t.txActive = s.txActive ∧ t.txIndex = s.txIndex ∧
    (i ≠ .reset → t.rxLen = s.rxLen ∧ t.statsIn = s.statsIn) ∧
    (i ∉ [.reset, .buildValveSet, .cmdSetZero, .cmdSetPercent, .cmdSyncTick] → t.args = s.args)

/-- While a transmission runs no instruction writes a byte of TXBUF (20_memory.md R66, 70_reset_and_hazards.md R272). -/
def Obligations.NoTxWriteDuringTransmission : Prop :=
  ∀ (i : Instr) (s t : State), s.txActive = true → exec i s = .next t →
    (∀ a, t.txByte a = s.txByte a) ∧ t.enc.tx = s.enc.tx ∧ t.txActive = true

/-- The decoder and parser requests and `CHECKSUM` leave TXBUF and the encoder alone (20_memory.md R51, 41_frame_builder.md R141);
the encoder, builder and checksum requests leave the decode state, `STATS_OUT`, `RES_VAL` and `RES_NEXT` alone (10_state.md R33,
R44, 40_line_code.md R101 to R105). That the LINE rows and the CMD rows do too rests on the operations the model gives them
(log 9, log 10). -/
def Obligations.EncoderAndDecoderAreSeparate : Prop :=
  ∀ (i : Instr) (s t : State), exec i s = .next t →
    ((i ∈ [.decPair, .decBit, .decByte, .decodeBitstream, .parseFrame, .checksum] ∨ ∃ start, i = .decInit start) →
      t.enc = s.enc ∧ ∀ a, t.txByte a = s.txByte a) ∧
    ((i ∈ [.encTerm, .checksum, .buildValveSet, .line0, .line1, .cmdSetZero, .cmdSetPercent, .cmdSyncTick] ∨
        (∃ v, i = .encInit v ∨ i = .encRaw v ∨ i = .encByte v ∨ i = .buildBitstream v) ∨ ∃ x, i = .encBit x) →
      t.dec = s.dec ∧ t.statsOut = s.statsOut ∧ t.events = s.events ∧ t.res.val = s.res.val ∧
      t.res.next = s.res.next)

/-! ### The encoder requests -/

/-- `ENC_INIT pos` starts a stream: one byte of TXBUF, the cursor and the flags change, nothing else (40_line_code.md R101). -/
def Obligations.EncInitStartsAStream : Prop :=
  ∀ (s : State) (pos : Byte), s.fault = false → pos.toNat < s.params.txSize → s.txActive = false →
    ∃ t, exec (.encInit pos) s = .next t ∧ t.txByte pos.toNat = 0xFF ∧
      (∀ a, a ≠ pos.toNat → t.txByte a = s.txByte a) ∧
      t = { s with enc := { s.enc with tx := t.enc.tx, ptr := pos, ready := true, txValid := false }, ok := true }

/-- `ENC_RAW v` at a byte boundary writes its byte, re-initialises the next and moves on; at the end of TXBUF it writes its
byte and raises `TX_OVERFLOW` (R102). -/
def Obligations.EncRawWritesOneByte : Prop :=
  ∀ (s : State) (v : Byte), s.fault = false → s.enc.ready = true → v ≠ 0xFF → s.txActive = false →
    s.enc.current.extractLsb' 0 2 = 0b11 → s.params.txSize ≤ 255 →
    (s.enc.ptr.toNat + 1 < s.params.txSize →
      ∃ t, exec (.encRaw v) s = .next t ∧ t.txByte s.enc.ptr.toNat = v ∧ t.txByte (s.enc.ptr.toNat + 1) = 0xFF ∧
        (∀ a, a ≠ s.enc.ptr.toNat → a ≠ s.enc.ptr.toNat + 1 → t.txByte a = s.txByte a) ∧
        t.enc.ptr.toNat = s.enc.ptr.toNat + 1 ∧
        t = { s with enc := { s.enc with tx := t.enc.tx, ptr := t.enc.ptr, txValid := false }, ok := true }) ∧
    (s.enc.ptr.toNat + 1 = s.params.txSize →
      ∃ t, exec (.encRaw v) s = .next t ∧ t.txByte s.enc.ptr.toNat = v ∧
        (∀ a, a ≠ s.enc.ptr.toNat → t.txByte a = s.txByte a) ∧
        t = { s with enc := { s.enc with tx := t.enc.tx, txValid := false }, ok := false, fault := true,
                     fcode := .txOverflow })

/-- `ENC_BIT` lays down the symbol of its bit: the pairs `11 00` for a 0, the pairs `11 10 00` for a 1, after the pairs already
laid down since any earlier index (30_encoding.md R70, R71). Only the bytes the cursor passes over are written. -/
def Obligations.EncBitAppendsItsSymbol : Prop :=
  ∀ (s : State) (x : Bool), s.fault = false → s.enc.ready = true → s.txActive = false → s.params.txSize ≤ 255 →
    s.enc.ptr.toNat + s.enc.bytesFilledBy (if x then 3 else 2) < s.params.txSize →
    ∃ t, exec (.encBit x) s = .next t ∧
      (∀ base, base ≤ s.enc.ptr.toNat →
        t.enc.stream base = s.enc.stream base ++ if x then [0b11, 0b10, 0b00] else [0b11, 0b00]) ∧
      t.enc.ptr.toNat = s.enc.ptr.toNat + s.enc.bytesFilledBy (if x then 3 else 2) ∧
      (∀ a, a < s.enc.ptr.toNat ∨ s.enc.ptr.toNat + s.enc.bytesFilledBy (if x then 3 else 2) < a →
        t.txByte a = s.txByte a) ∧
      t = { s with enc := { s.enc with tx := t.enc.tx, ptr := t.enc.ptr, txValid := false }, ok := true }

/-- The rows `LINE0` and `LINE1` lay down their pairs under the conditions of an encoder request, as the model chose (log 9); the
pairs are those of R70 and R71. -/
def Obligations.LineRowsAppendTheirPairs : Prop :=
  ∀ (s : State) (i : Instr) (ps : List Pair),
    (i = .line0 ∧ ps = [0b11, 0b00]) ∨ (i = .line1 ∧ ps = [0b11, 0b10, 0b00]) →
    s.fault = false → s.enc.ready = true → s.txActive = false → s.params.txSize ≤ 255 →
    s.enc.ptr.toNat + s.enc.bytesFilledBy ps.length < s.params.txSize →
    ∃ t, exec i s = .next t ∧
      (∀ base, base ≤ s.enc.ptr.toNat → t.enc.stream base = s.enc.stream base ++ ps) ∧
      (∀ a, a < s.enc.ptr.toNat ∨ s.enc.ptr.toNat + s.enc.bytesFilledBy ps.length < a → t.txByte a = s.txByte a) ∧
      t = { s with enc := { s.enc with tx := t.enc.tx, ptr := t.enc.ptr, txValid := false }, ok := true }

/-- `ENC_BYTE v` lays down the line code of `v[7], ..., v[0], parity(v)`; that is `18 + weight(v)` pairs, 36 to 52 physical
bits, with an even number of logical 1 bits (R74). -/
def Obligations.EncByteAppendsItsEncodedByte : Prop :=
  (∀ v : Byte, weight v % 2 = 0 ∧ weight v ≤ 8 ∧ weight v = popcount v + (if popcount v % 2 = 1 then 1 else 0)) ∧
  ∀ (s : State) (v : Byte), s.fault = false → s.enc.ready = true → s.txActive = false → s.params.txSize ≤ 255 →
    s.enc.ptr.toNat + s.enc.bytesFilledBy (18 + weight v) < s.params.txSize →
    ∃ t ps, exec (.encByte v) s = .next t ∧
      ps = ([v.getLsbD 7, v.getLsbD 6, v.getLsbD 5, v.getLsbD 4, v.getLsbD 3, v.getLsbD 2, v.getLsbD 1, v.getLsbD 0,
             decide (popcount v % 2 = 1)] : List Bool).flatMap
            (fun x => if x then ([0b11, 0b10, 0b00] : List Pair) else [0b11, 0b00]) ∧
      ps.length = 18 + weight v ∧
      (∀ base, base ≤ s.enc.ptr.toNat → t.enc.stream base = s.enc.stream base ++ ps) ∧
      t.enc.ptr.toNat = s.enc.ptr.toNat + s.enc.bytesFilledBy (18 + weight v) ∧
      (∀ a, a < s.enc.ptr.toNat ∨ s.enc.ptr.toNat + s.enc.bytesFilledBy (18 + weight v) < a →
        t.txByte a = s.txByte a) ∧
      t = { s with enc := { s.enc with tx := t.enc.tx, ptr := t.enc.ptr, txValid := false }, ok := true }

/-- `ENC_TERM` puts the sentinel in place of the byte being built and closes the stream (40_line_code.md R105). -/
def Obligations.EncTermEndsTheStream : Prop :=
  ∀ s : State, s.fault = false → s.enc.ready = true → s.txActive = false → s.enc.ptr.toNat < s.params.txSize →
    ∃ t, exec .encTerm s = .next t ∧ t.txByte s.enc.ptr.toNat = 0xFF ∧
      (∀ a, a ≠ s.enc.ptr.toNat → t.txByte a = s.txByte a) ∧
      t = { s with enc := { s.enc with tx := t.enc.tx, ready := false, txEnd := s.enc.ptr, txValid := true }, ok := true }

/-- An encoder request whose pairs do not fit raises `TX_OVERFLOW` on the last byte of TXBUF, with `TXVALID = 0` and the cursor
there. The writes before the raise stay: from any earlier index to the end, TXBUF holds the pairs laid down before and those of
the symbols, as many as fit (R100, R103, R104, 60_exceptions.md R232). -/
def Obligations.EncoderOverflowFaults : Prop :=
  ∀ (s : State) (i : Instr) (ps : List Pair),
    (i = .encBit false ∧ ps = [0b11, 0b00]) ∨ (i = .encBit true ∧ ps = [0b11, 0b10, 0b00]) ∨
      (∃ v, i = .encByte v ∧ ps = linePairs (encodedByte v)) →
    s.fault = false → s.enc.ready = true → s.txActive = false → s.params.txSize ≤ 255 →
    s.enc.ptr.toNat < s.params.txSize → s.params.txSize ≤ s.enc.ptr.toNat + s.enc.bytesFilledBy ps.length →
    ∃ t, exec i s = .next t ∧ t.enc.ptr.toNat + 1 = s.params.txSize ∧
      (∀ base, base ≤ s.enc.ptr.toNat →
        t.enc.tx.pairs base (s.params.txSize - base) <+: s.enc.stream base ++ ps) ∧
      (∀ a, a < s.enc.ptr.toNat ∨ s.params.txSize ≤ a → t.txByte a = s.txByte a) ∧
      t = { s with enc := { s.enc with tx := t.enc.tx, ptr := t.enc.ptr, txValid := false }, ok := false, fault := true,
                   fcode := .txOverflow }

/-! ### The decoder requests -/

/-- `DEC_INIT start` initialises the decode state at `start`, with `RX_LEN` as its declared end (R125). -/
def Obligations.DecInitStartsADecode : Prop :=
  ∀ (s : State) (start : Byte), s.fault = false → s.rxLen.toNat ≤ s.params.rxSize →
    ∃ t, exec (.decInit start) s = .next t ∧ t.readReg 0x06 = start ∧ t.readReg 0x07 = 0xC0 ∧
      t.readReg 0x08 = s.rxLen ∧ t.readReg 0x02 = 0 ∧ t.dec.failed = false ∧
      t = { s with dec := t.dec, ok := true }

/-- `DEC_PAIR` reads the next pair ahead and rotates the mask; with none ahead it fails `EXHAUSTED` and moves nothing (R121,
R126). -/
def Obligations.DecPairReadsTheNextPair : Prop :=
  ∀ s : State, s.fault = false → s.dec.stop.toNat ≤ s.params.rxSize → s.dec.failed = false →
    (∀ (q : Pair) (rest : List Pair), s.dec.ahead s.rx = q :: rest →
      ∃ t, exec .decPair s = .next t ∧ t.res.val = q.setWidth 8 ∧ t.dec.ahead t.rx = rest ∧
        t.dec.mask = s.dec.mask.next ∧
        t.dec.ptr.toNat = s.dec.ptr.toNat + (if s.dec.mask.byte = 0x03 then 1 else 0) ∧
        t = { s with dec := { s.dec with ptr := t.dec.ptr, mask := t.dec.mask }, res := { s.res with val := t.res.val },
                     ok := true }) ∧
    (s.dec.ahead s.rx = [] →
      exec .decPair s = .next { s with dec := { s.dec with failed := true, reason := .exhausted },
                                       res := { s.res with val := 0 }, ok := false })

/-- `DEC_BIT` reads a line-code symbol ahead as its bit and stands after it; a symbol cut by the declared end fails `EXHAUSTED`
with the cursor after the pairs there were (R121, R122, R127). `Decoder.pos` is `DEC_PTR` and `DEC_MASK` in one number. -/
def Obligations.DecBitReadsASymbol : Prop :=
  ∀ s : State, s.fault = false → s.dec.stop.toNat ≤ s.params.rxSize → s.dec.failed = false →
    (∀ (x : Bool) (rest : List Pair),
      s.dec.ahead s.rx = (if x then [0b11, 0b10, 0b00] else [0b11, 0b00]) ++ rest →
      ∃ t, exec .decBit s = .next t ∧ t.res.val = (if x then 1 else 0) ∧ t.dec.ahead t.rx = rest ∧
        t.dec.pos = s.dec.pos + (if x then 3 else 2) ∧
        t = { s with dec := { s.dec with ptr := t.dec.ptr, mask := t.dec.mask }, res := { s.res with val := t.res.val },
                     ok := true }) ∧
    (∀ cut : List Pair, cut = [] ∨ cut = [0b11] ∨ cut = [0b11, 0b10] → s.dec.ahead s.rx = cut →
      ∃ t, exec .decBit s = .next t ∧ t.res.val = 0 ∧ t.dec.ahead t.rx = [] ∧ t.dec.pos = s.dec.pos + cut.length ∧
        t = { s with dec := { s.dec with ptr := t.dec.ptr, mask := t.dec.mask, failed := true, reason := .exhausted },
                     res := { s.res with val := 0 }, ok := false })

/-- The illegal pair sequences of 30_encoding.md R73, each reported as its own failure, with the cursor after the wrong pair. -/
def Obligations.IllegalPairsFailTheDecode : Prop :=
  ∀ s : State, s.fault = false → s.dec.stop.toNat ≤ s.params.rxSize → s.dec.failed = false →
    ∀ (ps rest : List Pair) (r : FailReason), s.dec.ahead s.rx = ps ++ rest →
      (∃ p1, ps = [p1] ∧ p1 ≠ 0b11 ∧ r = .badPair1) ∨
      (∃ p2, ps = [0b11, p2] ∧ (p2 = 0b01 ∨ p2 = 0b11) ∧ r = .badPair2) ∨
      (∃ p3, ps = [0b11, 0b10, p3] ∧ p3 ≠ 0b00 ∧ r = .badPair3) →
      ∃ t, exec .decBit s = .next t ∧ t.res.val = 0 ∧ t.dec.ahead t.rx = rest ∧ t.dec.pos = s.dec.pos + ps.length ∧
        t = { s with dec := { s.dec with ptr := t.dec.ptr, mask := t.dec.mask, failed := true, reason := r },
                     res := { s.res with val := 0 }, ok := false }

/-- `DEC_BYTE` reads an encoded byte ahead as its byte; nine bits whose parity is wrong fail `PARITY` after all nine are read. The
cursor stands after the nine symbols in both cases (40_line_code.md R123, R128). -/
def Obligations.DecByteReadsAnEncodedByte : Prop :=
  ∀ (s : State) (v : Byte) (p : Bool) (rest : List Pair),
    s.fault = false → s.dec.stop.toNat ≤ s.params.rxSize → s.dec.failed = false →
    s.dec.ahead s.rx = linePairs (byteBits v ++ [p]) ++ rest →
    ∃ t, exec .decByte s = .next t ∧ t.dec.ahead t.rx = rest ∧
      t.dec.pos = s.dec.pos + (linePairs (byteBits v ++ [p])).length ∧
      (p = parity v → t = { s with dec := { s.dec with ptr := t.dec.ptr, mask := t.dec.mask },
                                   res := { s.res with val := v }, ok := true }) ∧
      (p ≠ parity v → t = { s with dec := { s.dec with ptr := t.dec.ptr, mask := t.dec.mask, failed := true,
                                                       reason := .parity },
                                   res := { s.res with val := 0 }, ok := false })

/-- Flipping one physical bit of an encoded byte makes its decode fail, whatever comes after it (R128). -/
def Obligations.DecByteDetectsEverySingleFlip : Prop :=
  ∀ (s : State) (v : Byte) (before after rest : List Pair) (q flip : Pair),
    s.fault = false → s.dec.stop.toNat ≤ s.params.rxSize → s.dec.failed = false →
    linePairs (encodedByte v) = before ++ q :: after → flip = 0b01 ∨ flip = 0b10 →
    s.dec.ahead s.rx = before ++ (q ^^^ flip) :: after ++ rest →
    ∃ t, exec .decByte s = .next t ∧ t.dec.failed = true ∧ t.dec.reason ≠ .none ∧ t.res.val = 0 ∧ t.ok = false

/-- On a failed decode state the primitive decodes return 0 and change nothing of it (R120 to R123). -/
def Obligations.FailedDecodeStateIsFrozen : Prop :=
  ∀ (s : State) (i : Instr), s.fault = false → s.dec.stop.toNat ≤ s.params.rxSize → s.dec.failed = true →
    i = .decPair ∨ i = .decBit ∨ i = .decByte →
    exec i s = .next { s with res := { s.res with val := 0 }, ok := false }

/-! ### Checksum, scaling and builders -/

/-- `CHECKSUM` puts the checksum of the argument registers into `RES_CSUM` and changes nothing else but `OK`
(41_frame_builder.md R140). -/
def Obligations.ChecksumIsTheSumModulo256 : Prop :=
  ∀ s : State, s.fault = false →
    ∃ t, exec .checksum s = .next t ∧
      t.res.csum.toNat = (0x0C + s.args.hc1.toNat + s.args.hc2.toNat +
        (if s.params.addrEn then s.args.addr.toNat else 0) + s.args.cmd.toNat + s.args.ext.toNat) % 256 ∧
      t = { s with res := { s.res with csum := t.res.csum }, ok := true }

/-- `BUILD_VALVE_SET` turns the percentage into the extension by `Scale`, which rounds `255 pct / 100` to the nearest integer, ties
up, is 0 at 0 and 255 at 100, and never decreases (R145). -/
def Obligations.ScaleRoundsTiesUp : Prop :=
  (∀ s t : State, s.fault = false → exec .buildValveSet s = .next t → t.fault = false →
    s.args.pct.toNat ≤ 100 ∧ t.args.ext.toNat = (255 * s.args.pct.toNat + 50) / 100) ∧
  (∀ pct : Byte, pct.toNat ≤ 100 →
    100 * (scale pct).toNat ≤ 255 * pct.toNat + 50 ∧ 255 * pct.toNat + 50 < 100 * (scale pct).toNat + 100) ∧
  (∀ p q : Byte, p.toNat ≤ q.toNat → q.toNat ≤ 100 → (scale p).toNat ≤ (scale q).toNat) ∧
  scale 0 = 0 ∧ scale 100 = 255 ∧ scale 10 = 26 ∧ scale 30 = 77 ∧ scale 50 = 128 ∧ scale 70 = 179

/-- `BUILD_BITSTREAM base` lays down the frame of R76 at `base`: completed bytes only, then the sentinel; it writes those bytes
and no other (30_encoding.md R76). -/
def Obligations.BuildBitstreamLaysDownTheFrame : Prop :=
  ∀ (s : State) (base : Byte), s.fault = false → s.txActive = false → s.params.txSize ≤ 255 →
    base.toNat + frameLen s.params s.args + 1 ≤ s.params.txSize →
    ∃ t, exec (.buildBitstream base) s = .next t ∧ t.holdsFrame s.args base.toNat ∧
      t.enc.txEnd.toNat = base.toNat + frameLen s.params s.args ∧
      (∀ a, a < base.toNat ∨ base.toNat + frameLen s.params s.args < a → t.txByte a = s.txByte a) ∧
      t = { s with enc := { tx := t.enc.tx, ptr := t.enc.txEnd, ready := false, txEnd := t.enc.txEnd, txValid := true },
                   res := { s.res with csum := frameChecksum s.params s.args }, ok := true }

/-- A frame that does not fit raises `TX_OVERFLOW` on the last byte of TXBUF, with `ENC_READY = 1`, `TXVALID = 0` and nothing
written before `base`. The writes before the raise stay: from `base` to the end TXBUF holds the frame's pairs, as many as fit
(41_frame_builder.md R151, 60_exceptions.md R232). -/
def Obligations.BuildBitstreamOverflowFaults : Prop :=
  ∀ (s : State) (base : Byte), s.fault = false → s.txActive = false → s.params.txSize ≤ 255 →
    base.toNat < s.params.txSize → s.params.txSize < base.toNat + frameLen s.params s.args + 1 →
    ∃ t, exec (.buildBitstream base) s = .next t ∧ t.enc.ptr.toNat + 1 = s.params.txSize ∧
      t.enc.tx.pairs base.toNat (s.params.txSize - base.toNat) <+: linePairs (frameBits s.params s.args) ∧
      (∀ a, a < base.toNat ∨ s.params.txSize ≤ a → t.txByte a = s.txByte a) ∧
      t = { s with enc := { tx := t.enc.tx, ptr := t.enc.ptr, ready := true, txEnd := s.enc.txEnd, txValid := false },
                   res := { s.res with csum := frameChecksum s.params s.args }, ok := false, fault := true,
                   fcode := .txOverflow }

/-- After a successful `BUILD_BITSTREAM base`, `TX_END - base` is the `L` of R77, within [35, 45], or [35, 47] with the address
enabled (41_frame_builder.md R157). -/
def Obligations.FrameLengthIsInRange : Prop :=
  ∀ (s t : State) (base : Byte), s.fault = false → s.params.txSize ≤ 255 →
    exec (.buildBitstream base) s = .next t → t.fault = false →
    t.enc.txEnd.toNat - base.toNat = (282 + 2 * frameWeight s.params s.args) / 8 ∧ base.toNat ≤ t.enc.txEnd.toNat ∧
    35 ≤ t.enc.txEnd.toNat - base.toNat ∧
    t.enc.txEnd.toNat - base.toNat ≤ (if s.params.addrEn then 47 else 45)

/-- Every byte of a built frame before its sentinel is one of the seven line-code bytes, so never 0xFF, and the first byte after
the preamble is 0xE3 (30_encoding.md R78). -/
def Obligations.BuiltBytesAreLineCodeBytes : Prop :=
  ∀ (s t : State) (base : Byte), s.fault = false → s.params.txSize ≤ 255 →
    exec (.buildBitstream base) s = .next t → t.fault = false →
    (∀ a, base.toNat ≤ a → a < t.enc.txEnd.toNat →
      t.txByte a ∈ ([0x33, 0x38, 0x8C, 0x8E, 0xCC, 0xCE, 0xE3] : List Byte)) ∧
    (∀ a, base.toNat ≤ a → a < base.toNat + 6 → t.txByte a = 0xCC) ∧
    t.txByte (base.toNat + 6) = 0xE3

/-- R156: what `BUILD_BITSTREAM` builds, copied to RX, `DECODE_BITSTREAM` decodes to the same fields, with `RES_NEXT` at the end,
for every value of every field. -/
def Obligations.DecodeOfBuildIsTheCommand : Prop :=
  ∀ (s t u : State) (base : Byte), s.fault = false → s.params.txSize ≤ 255 →
    exec (.buildBitstream base) s = .next t → t.fault = false →
    u.fault = false → t.enc.txEnd.toNat - base.toNat ≤ u.params.rxSize →
    u.receives t base.toNat (t.enc.txEnd.toNat - base.toNat) →
    ∃ v, exec .decodeBitstream u = .next v ∧
      v = { u with dec := v.dec, ok := true,
                   res := { u.res with hc1 := s.args.hc1, hc2 := s.args.hc2,
                                       addr := if s.params.addrEn then s.args.addr else 0,
                                       cmd := s.args.cmd, ext := s.args.ext,
                                       csum := t.res.csum, next := u.rxLen, kind := 0x01 } } ∧
      v.dec.failed = false

/-- Neither builder depends on what TXBUF held before: with another content of TXBUF everything but TXBUF ends the same, and
after a success the bytes of the stream do too (41_frame_builder.md R155). -/
def Obligations.BuildersIgnoreOldTxContents : Prop :=
  ∀ (i : Instr) (s t u : State) (m : Memory), (∃ base, i = .buildBitstream base) ∨ i = .buildValveSet →
    s.params.wf = true → exec i s = .next t → exec i { s with enc := { s.enc with tx := m } } = .next u →
    u = { t with enc := { t.enc with tx := u.enc.tx } } ∧
    (s.fault = false → t.fault = false →
      (∀ base : Byte, i = .buildBitstream base → ∀ a, base.toNat ≤ a → a ≤ t.enc.txEnd.toNat → u.txByte a = t.txByte a) ∧
      (i = .buildValveSet → ∀ a, a ≤ t.enc.txEnd.toNat → u.txByte a = t.txByte a))

/-- R158: a builder request issued twice in succession leaves the same bytes over `[0, TX_END]` and the same `TX_END`, `RES_CSUM`,
`RES_KIND`, `ARG_CMD` and `ARG_EXT`. -/
def Obligations.BuildersAreIdempotent : Prop :=
  ∀ (i : Instr) (s t u : State), (∃ base, i = .buildBitstream base) ∨ i = .buildValveSet →
    s.params.wf = true → exec i s = .next t → exec i t = .next u →
    (∀ a, a ≤ t.enc.txEnd.toNat → u.txByte a = t.txByte a) ∧
    u.enc.txEnd = t.enc.txEnd ∧ u.res.csum = t.res.csum ∧ u.res.kind = t.res.kind ∧ u.args.cmd = t.args.cmd ∧
    u.args.ext = t.args.ext

/-- `BUILD_VALVE_SET` with no trailer wanted completes, never overflows, and writes the header the policy asks for, the frame of
command 0x26 with the scaled percentage, and the sentinel (41_frame_builder.md R150, R152, R153). The row `CMD_SET_PERCENT` does
the same, as the model chose (log 10). -/
def Obligations.ValveSetBuildsHeaderAndFrame : Prop :=
  ∀ (s : State) (i : Instr) (hlen : Nat) (a : ArgRegs), i = .buildValveSet ∨ i = .cmdSetPercent →
    s.fault = false → s.txActive = false → s.params.wf = true →
    s.args.pct.toNat ≤ 100 → 1 ≤ s.args.thresh.toNat → s.args.thresh.toNat ≤ 100 →
    (s.args.flags.getLsbD 0 && s.args.flags.getLsbD 3) = false →
    hlen = (if s.params.hdrEn = true ∧ s.args.thresh.toNat ≤ s.args.pct.toNat then s.params.hdrLen else 0) →
    a = { s.args with cmd := 0x26, ext := scale s.args.pct } →
    ∃ t, exec i s = .next t ∧ (∀ k, k < hlen → t.txByte k = s.params.hdrByte) ∧ t.holdsFrame a hlen ∧
      t.enc.txEnd.toNat = hlen + frameLen s.params a ∧
      (∀ k, hlen + frameLen s.params a < k → t.txByte k = s.txByte k) ∧
      t = { s with enc := { tx := t.enc.tx, ptr := t.enc.txEnd, ready := false, txEnd := t.enc.txEnd, txValid := true },
                   args := a, res := { s.res with csum := frameChecksum s.params a, kind := 0x01 }, ok := true }

/-- The minimal trailer of `BUILD_VALVE_SET`, after the header and the frame: its three bytes over the old sentinel and a new one
after them, or `STATS_BAD` or `TX_OVERFLOW` before any of them is written (R150, R153, R154). The row `CMD_SET_PERCENT` does the
same, as the model chose (log 10). -/
def Obligations.ValveSetAppendsMinimalTrailer : Prop :=
  ∀ (s : State) (i : Instr) (hlen T : Nat) (a : ArgRegs) (r : StatsRecord) (b0 b1 b2 : Byte),
    i = .buildValveSet ∨ i = .cmdSetPercent →
    s.fault = false → s.txActive = false → s.params.wf = true →
    s.args.pct.toNat ≤ 100 → 1 ≤ s.args.thresh.toNat → s.args.thresh.toNat ≤ 100 →
    s.args.flags.extractLsb' 0 4 = 0b1001 → s.statsIn = some r → statsMinEncode s.params r = (b0, b1, b2) →
    hlen = (if s.params.hdrEn = true ∧ s.args.thresh.toNat ≤ s.args.pct.toNat then s.params.hdrLen else 0) →
    a = { s.args with cmd := 0x26, ext := scale s.args.pct } → T = hlen + frameLen s.params a →
    ∃ t, exec i s = .next t ∧ (∀ k, k < hlen → t.txByte k = s.params.hdrByte) ∧
      t.enc.tx.pairs hlen (frameLen s.params a) = framePairs s.params a ∧
      (0xFF ∉ [b0, b1, b2] ∧ T + 3 < s.params.txSize →
        t.txByte T = b0 ∧ t.txByte (T + 1) = b1 ∧ t.txByte (T + 2) = b2 ∧ t.txByte (T + 3) = 0xFF ∧
        (∀ k, T + 3 < k → t.txByte k = s.txByte k) ∧ t.enc.txEnd.toNat = T + 3 ∧ t.enc.ptr.toNat = T ∧
        t = { s with enc := { tx := t.enc.tx, ptr := t.enc.ptr, ready := false, txEnd := t.enc.txEnd, txValid := true },
                     args := a, res := { s.res with csum := frameChecksum s.params a, kind := 0x05 }, ok := true }) ∧
      (∀ c : FaultCode, (0xFF ∈ [b0, b1, b2] ∧ c = .statsBad) ∨
          (0xFF ∉ [b0, b1, b2] ∧ s.params.txSize ≤ T + 3 ∧ c = .txOverflow) →
        t.txByte T = 0xFF ∧ (∀ k, T < k → t.txByte k = s.txByte k) ∧ t.enc.txEnd.toNat = T ∧
        t = { s with enc := { tx := t.enc.tx, ptr := t.enc.txEnd, ready := false, txEnd := t.enc.txEnd, txValid := false },
                     args := a, res := { s.res with csum := frameChecksum s.params a }, ok := false, fault := true,
                     fcode := c })

/-- The full trailer of `BUILD_VALVE_SET`, after the header and the frame: what the Stats Codec answers for the room left, or no
trailer when it answers none, or `STATS_BAD` when the answer breaks its contract (R150, R153, R154). The row `CMD_SET_PERCENT` does
the same, as the model chose (log 10). -/
def Obligations.ValveSetAppendsFullTrailer : Prop :=
  ∀ (s : State) (i : Instr) (hlen T : Nat) (a : ArgRegs) (r : StatsRecord) (answer : Option (List Byte)),
    i = .buildValveSet ∨ i = .cmdSetPercent →
    s.fault = false → s.txActive = false → s.params.wf = true →
    s.args.pct.toNat ≤ 100 → 1 ≤ s.args.thresh.toNat → s.args.thresh.toNat ≤ 100 →
    s.args.flags.getLsbD 0 = true → s.args.flags.getLsbD 3 = true → s.args.flags.extractLsb' 1 2 ≠ 0 →
    s.statsIn = some r →
    hlen = (if s.params.hdrEn = true ∧ s.args.thresh.toNat ≤ s.args.pct.toNat then s.params.hdrLen else 0) →
    a = { s.args with cmd := 0x26, ext := scale s.args.pct } → T = hlen + frameLen s.params a →
    statsEncode s.params r (s.params.txSize - T - 1) = answer →
    ∃ t, exec i s = .next t ∧ (∀ k, k < hlen → t.txByte k = s.params.hdrByte) ∧
      t.enc.tx.pairs hlen (frameLen s.params a) = framePairs s.params a ∧
      (answer = none → t.txByte T = 0xFF ∧ t.enc.txEnd.toNat = T ∧ (∀ k, T < k → t.txByte k = s.txByte k) ∧
        t = { s with enc := { tx := t.enc.tx, ptr := t.enc.txEnd, ready := false, txEnd := t.enc.txEnd, txValid := true },
                     args := a, res := { s.res with csum := frameChecksum s.params a, kind := 0x01 }, ok := true }) ∧
      (∀ bytes, answer = some bytes → bytes.length ≤ s.params.txSize - T - 1 ∧ 0xFF ∉ bytes →
        t.enc.tx.readList T bytes.length = bytes ∧ t.txByte (T + bytes.length) = 0xFF ∧
        (∀ k, T + bytes.length < k → t.txByte k = s.txByte k) ∧ t.enc.txEnd.toNat = T + bytes.length ∧
        t.enc.ptr.toNat = T ∧
        t = { s with enc := { tx := t.enc.tx, ptr := t.enc.ptr, ready := false, txEnd := t.enc.txEnd, txValid := true },
                     args := a, res := { s.res with csum := frameChecksum s.params a, kind := 0x09 }, ok := true }) ∧
      (∀ bytes, answer = some bytes → ¬ (bytes.length ≤ s.params.txSize - T - 1 ∧ 0xFF ∉ bytes) →
        t.txByte T = 0xFF ∧ (∀ k, T < k → t.txByte k = s.txByte k) ∧ t.enc.txEnd.toNat = T ∧
        t = { s with enc := { tx := t.enc.tx, ptr := t.enc.txEnd, ready := false, txEnd := t.enc.txEnd, txValid := false },
                     args := a, res := { s.res with csum := frameChecksum s.params a }, ok := false, fault := true,
                     fcode := .statsBad })

/-- The rows `CMD_SET_ZERO` and `CMD_SYNC_TICK` put their command (and the extension 0, or the countdown that stands in `ARG_EXT`)
into the argument registers and build the frame at index 0, as the model chose (log 10); the commands and extensions are those of
43_valve_commands.md R201 and R203. -/
def Obligations.CommandRowsBuildTheirFrames : Prop :=
  ∀ (s : State) (i : Instr) (a : ArgRegs),
    (i = .cmdSetZero ∧ a = { s.args with cmd := 0x20, ext := 0x00 }) ∨
    (i = .cmdSyncTick ∧ a = { s.args with cmd := 0x2C }) →
    s.fault = false → s.txActive = false → s.params.txSize ≤ 255 → frameLen s.params a + 1 ≤ s.params.txSize →
    ∃ t, exec i s = .next t ∧ t.holdsFrame a 0 ∧ t.enc.txEnd.toNat = frameLen s.params a ∧
      (∀ k, frameLen s.params a < k → t.txByte k = s.txByte k) ∧
      t = { s with enc := { tx := t.enc.tx, ptr := t.enc.txEnd, ready := false, txEnd := t.enc.txEnd, txValid := true },
                   args := a, res := { s.res with csum := frameChecksum s.params a }, ok := true }

/-! ### The parser -/

/-- `DECODE_BITSTREAM` completes on every content of RX: `OK` says whether the decode failed, a failure has a reason and clears the
frame's results, a success has none and a checksum that matches its fields. Where the payload starts with a lead 0 it fails
`LEAD_BIT`; with a lead 1 and six encoded bytes it fails `CHECKSUM` if the sixth is not their checksum, else `TRAIL_BIT` if a 1
follows, and succeeds with those bytes if a 0 does; the cursor stands after the symbol that decided (42_frame_parser.md R172,
R173, R174, R176, 60_exceptions.md R240, R241). -/
def Obligations.DecodeBitstreamCompletes : Prop :=
  ∀ s : State, s.fault = false → s.rxLen.toNat ≤ s.params.rxSize →
    ∃ t, exec .decodeBitstream s = .next t ∧ t.dec.stop = s.rxLen ∧ t.ok = !t.dec.failed ∧
      (t.dec.failed = true → t.dec.reason ≠ .none ∧
        t.res = { s.res with hc1 := 0, hc2 := 0, addr := 0, cmd := 0, ext := 0, next := 0, kind := 0 }) ∧
      (t.dec.failed = false → t.dec.reason = .none ∧ t.res.kind = 0x01 ∧ t.res.val = s.res.val ∧
        t.res.csum = checksum t.res.hc1 t.res.hc2 t.res.addr t.res.cmd t.res.ext ∧ t.events = s.events) ∧
      (∀ (i : Nat) (rest : List Pair), s.payloadAt i → s.rx.pairs i (s.rxLen.toNat - i) = [0b11, 0b00] ++ rest →
        t.dec.reason = .leadBit ∧ t.dec.pos = 4 * i + 2) ∧
      (∀ (i : Nat) (hc1 hc2 a cmd ext cs : Byte) (body rest : List Pair), s.payloadAt i →
        body = [0b11, 0b10, 0b00] ++ linePairs ([hc1, hc2, a, cmd, ext, cs].flatMap encodedByte) →
        s.rx.pairs i (s.rxLen.toNat - i) = body ++ rest →
        (cs ≠ checksum hc1 hc2 a cmd ext → t.dec.reason = .checksum ∧ t.dec.pos = 4 * i + body.length) ∧
        (cs = checksum hc1 hc2 a cmd ext →
          (∀ more, rest = [0b11, 0b10, 0b00] ++ more →
            t.dec.reason = .trailBit ∧ t.dec.pos = 4 * i + body.length + 3) ∧
          (∀ more, rest = [0b11, 0b00] ++ more →
            t.dec.failed = false ∧ t.dec.pos = 4 * i + body.length + 2 ∧ t.res.next.toNat = (t.dec.pos + 3) / 4 ∧
            t.res = { s.res with hc1 := hc1, hc2 := hc2, addr := a, cmd := cmd, ext := ext, csum := cs,
                                 next := t.res.next, kind := 0x01 }))) ∧
      t = { s with dec := t.dec, res := t.res, ok := t.ok, events := t.events }

/-- `PARSE_FRAME` completes on every content of RX and every Stats Codec: a failure has a reason, clears the frame's results and
leaves no record; a success names its frame kind (R175 to R178). -/
def Obligations.ParseFrameCompletes : Prop :=
  ∀ s : State, s.fault = false → s.rxLen.toNat ≤ s.params.rxSize →
    ∃ t, exec .parseFrame s = .next t ∧ t.dec.stop = s.rxLen ∧ t.ok = !t.dec.failed ∧
      (t.dec.failed = true → t.dec.reason ≠ .none ∧ t.statsOut = none ∧ t.res.hc1 = 0 ∧ t.res.hc2 = 0 ∧
        t.res.addr = 0 ∧ t.res.cmd = 0 ∧ t.res.ext = 0 ∧ t.res.next = 0 ∧ t.res.kind = 0 ∧ t.res.val = s.res.val) ∧
      (t.dec.failed = false → t.dec.reason = .none ∧ t.res.kind ∈ ([0x01, 0x02, 0x03, 0x05, 0x09] : List Byte) ∧
        (t.statsOut = none ↔ t.res.kind = 0x01) ∧ t.res.val = s.res.val ∧ t.events = s.events) ∧
      t = { s with dec := t.dec, res := t.res, ok := t.ok, events := t.events, statsOut := t.statsOut }

/-- How the preamble scan fails: a byte other than 0xCC at index 0 or 1 is `PREAMBLE` with one or two entropy events, and data that
ends inside the preamble is `EXHAUSTED` with none (R171, R180). -/
def Obligations.PreambleScanFailures : Prop :=
  ∀ s : State, s.fault = false → s.rxLen.toNat ≤ s.params.rxSize →
    ∃ t, exec .decodeBitstream s = .next t ∧
      (1 ≤ s.rxLen.toNat ∧ s.rxByte 0 ≠ 0xCC →
        t.dec = { ptr := 0, mask := .pair0, stop := s.rxLen, failed := true, reason := .preamble } ∧
        t.events = s.events ++ [.entropy (s.rxByte 0) s.params.entropyBits]) ∧
      (2 ≤ s.rxLen.toNat ∧ s.rxByte 0 = 0xCC ∧ s.rxByte 1 ≠ 0xCC →
        t.dec = { ptr := 1, mask := .pair0, stop := s.rxLen, failed := true, reason := .preamble } ∧
        t.events = s.events ++ [.entropy 0xCC s.params.entropyBits, .entropy (s.rxByte 1) s.params.entropyBits]) ∧
      (s.rxLen.toNat < 6 ∧ (∀ k, k < s.rxLen.toNat → s.rxByte k = 0xCC) →
        t.dec = { ptr := s.rxLen, mask := .pair0, stop := s.rxLen, failed := true, reason := .exhausted } ∧
        t.events = s.events)

/-- Entropy events come from a `PREAMBLE` failure of `DECODE_BITSTREAM` or `PARSE_FRAME`, one for each byte up to the failing index in
index order, and from no other failure and no other request (R180). -/
def Obligations.EntropyOnlyFromPreambleFailures : Prop :=
  ∀ (i : Instr) (s t : State), exec i s = .next t →
    ((i = .decodeBitstream ∨ i = .parseFrame) ∧ s.fault = false ∧ t.fault = false ∧ t.dec.reason = .preamble →
      t.dec.ptr.toNat < 2 ∧
      t.events = s.events ++ (s.rx.readList 0 (t.dec.ptr.toNat + 1)).map fun b => .entropy b s.params.entropyBits) ∧
    (¬ ((i = .decodeBitstream ∨ i = .parseFrame) ∧ s.fault = false ∧ t.fault = false ∧ t.dec.reason = .preamble) →
      t.events = s.events)

/-- The alternate framings: the record the Stats Codec answers is taken as it is and the whole buffer is consumed, and no answer
fails `ALT_FRAME` (R177). -/
def Obligations.AlternateFramesAreHandedOver : Prop :=
  ∀ (s : State) (bytes : List Byte) (answer : Option StatsRecord) (k : Byte),
    s.fault = false → 1 ≤ s.rxLen.toNat → s.rxLen.toNat ≤ s.params.rxSize → bytes = s.rx.readList 0 s.rxLen.toNat →
    (jsonLead s.params (s.rxByte 0) = true ∧ answer = jsonDecode s.params bytes ∧ k = 0x02) ∨
    (jsonLead s.params (s.rxByte 0) = false ∧ legacyMatch s.params bytes = true ∧ answer = legacyDecode s.params bytes ∧
      k = 0x03) →
    (∀ r, answer = some r →
      exec .parseFrame s = .next
        { s with dec := { ptr := 0, mask := .pair0, stop := s.rxLen, failed := false, reason := .none },
                 res := { s.res with hc1 := 0, hc2 := 0, addr := 0, cmd := 0, ext := 0, next := s.rxLen, kind := k },
                 statsOut := some r, ok := true }) ∧
    (answer = none →
      exec .parseFrame s = .next
        { s with dec := { ptr := 0, mask := .pair0, stop := s.rxLen, failed := true, reason := .altFrame },
                 res := { s.res with hc1 := 0, hc2 := 0, addr := 0, cmd := 0, ext := 0, next := 0, kind := 0 },
                 statsOut := none, ok := false })

/-- What `PARSE_FRAME` makes of the bytes after a frame that `DECODE_BITSTREAM` would decode to `d`: nothing when there are none or
they are no trailer; else the trailer's record with the house code back-filled, or `TRAILER_CRC`, or `TRAILER_ID` (R175, R178). -/
def Obligations.TrailerIsDecodedOrRejected : Prop :=
  ∀ (s d : State) (bytes : List Byte) (c : TrailerClass) (answer : Option StatsRecord),
    s.fault = false → s.rxByte 0 = 0xCC → exec .decodeBitstream s = .next d → d.fault = false → d.ok = true →
    (d.res.next = s.rxLen → exec .parseFrame s = .next { d with statsOut := none }) ∧
    (d.res.next < s.rxLen →
      bytes = s.rx.readList d.res.next.toNat (s.rxLen.toNat - d.res.next.toNat) →
      c = statsClassify s.params (s.rxByte d.res.next.toNat) →
      answer = (if c = .min then statsMinDecode s.params bytes else statsDecode s.params bytes) →
      (c = .none → exec .parseFrame s = .next { d with statsOut := none }) ∧
      (c ≠ .none → answer = none →
        exec .parseFrame s = .next
          { d with dec := { d.dec with failed := true, reason := .trailerCrc },
                   res := { d.res with hc1 := 0, hc2 := 0, addr := 0, cmd := 0, ext := 0, next := 0, kind := 0 },
                   statsOut := none, ok := false }) ∧
      (∀ r, c ≠ .none → answer = some r → (r.id = none ∨ r.id = some (d.res.hc1, d.res.hc2)) →
        exec .parseFrame s = .next
          { d with res := { d.res with kind := if c = .min then 0x05 else 0x09 },
                   statsOut := some { r with id := some (d.res.hc1, d.res.hc2) } }) ∧
      (∀ r j, c ≠ .none → answer = some r → r.id = some j → j ≠ (d.res.hc1, d.res.hc2) →
        exec .parseFrame s = .next
          { d with dec := { d.dec with failed := true, reason := .trailerId },
                   res := { d.res with hc1 := 0, hc2 := 0, addr := 0, cmd := 0, ext := 0, next := 0, kind := 0 },
                   statsOut := none, ok := false }))

/-! ### The host's accesses and the transmission -/

/-- 10_state.md R38: a reserved register reads 0, and a write to a reserved or an RO register has no effect. -/
def Obligations.ReservedRegistersReadZero : Prop :=
  ∀ (s : State) (rest : List HostStep) (n v : Byte),
    (n = 0x00 ∨ 0x1B ≤ n.toNat → s.schedule = .readReg n :: rest →
      step s = .next { s with schedule := rest, hostData := 0 }) ∧
    (n.toNat < 0x09 ∨ 0x12 ≤ n.toNat → s.schedule = .writeReg n v :: rest →
      step s = .next { s with schedule := rest })

/-- A host write to an RW register is read back, bits 7:4 of `ARG_FLAGS` as 0; no other register but `STATUS` changes, and no byte
of either buffer (10_state.md R30, R31, R32, R35). A record the host supplies, or withdraws, is in `STATS_IN` and nothing else
changes (R36); that this is a step of its own is the model's choice (log 21). -/
def Obligations.WritableRegistersReadBack : Prop :=
  (∀ (s : State) (rest : List HostStep) (n v : Byte), 0x09 ≤ n.toNat → n.toNat ≤ 0x11 →
    s.schedule = .writeReg n v :: rest →
    ∃ t, step s = .next t ∧ t.readReg n = (if n = 0x11 then v &&& 0x0F else v) ∧
      (∀ m : Byte, m ≠ n → m ≠ 0x01 → t.readReg m = s.readReg m) ∧
      (∀ a, t.txByte a = s.txByte a) ∧ (∀ a, t.rxByte a = s.rxByte a) ∧
      t = { s with schedule := rest, rxLen := t.rxLen, args := t.args }) ∧
  (∀ (s : State) (rest : List HostStep) (r : Option StatsRecord), s.schedule = .setStatsIn r :: rest →
    step s = .next { s with schedule := rest, statsIn := r })

/-- The bits of `STATUS`: each mirrors its flag, `HC_OK` is `ARG_HC1 <= 99 and ARG_HC2 <= 99` at all times, bit 7 reads 0
(10_state.md R28, R37, R42). -/
def Obligations.StatusBitsMirrorTheFlags : Prop :=
  ∀ s : State,
    (s.readReg 0x01).getLsbD 0 = s.ok ∧ (s.readReg 0x01).getLsbD 1 = s.dec.failed ∧
    (s.readReg 0x01).getLsbD 2 = s.fault ∧ (s.readReg 0x01).getLsbD 3 = s.enc.txValid ∧
    (s.readReg 0x01).getLsbD 4 = (decide (s.args.hc1.toNat ≤ 99) && decide (s.args.hc2.toNat ≤ 99)) ∧
    (s.readReg 0x01).getLsbD 5 = s.enc.ready ∧ (s.readReg 0x01).getLsbD 6 = s.txActive ∧
    (s.readReg 0x01).getLsbD 7 = false

/-- Reads have no side effects: a host read of a register, of `REQ` or of a byte changes nothing but what the host holds
(20_memory.md R58, 30_encoding.md R80; where the host's value is kept is the model's choice, log 13). -/
def Obligations.HostReadsChangeNothing : Prop :=
  ∀ (s : State) (rest : List HostStep),
    (s.schedule = .readReq :: rest → step s = .next { s with schedule := rest, hostData := 0 }) ∧
    (∀ n : Byte, s.schedule = .readReg n :: rest →
      step s = .next { s with schedule := rest, hostData := (s.readReg n).setWidth 16 }) ∧
    (∀ a : Byte, a.toNat < s.params.txSize → s.schedule = .readTx a :: rest →
      step s = .next { s with schedule := rest, hostData := (s.txByte a.toNat).setWidth 16 }) ∧
    (∀ a : Byte, a.toNat < s.params.rxSize → s.schedule = .readRx a :: rest →
      step s = .next { s with schedule := rest, hostData := (s.rxByte a.toNat).setWidth 16 }) ∧
    (∀ a v : Byte, s.schedule = .writeTx a v :: rest → step s = .next { s with schedule := rest })

/-- A host write to RX changes that byte and no other, and the next read sees it (20_memory.md R61, R67, 44_control.md R217). -/
def Obligations.RxWriteIsSeenByTheNextRead : Prop :=
  ∀ (s : State) (rest : List HostStep) (a v : Byte), a.toNat < s.params.rxSize → s.schedule = .writeRx a v :: rest →
    ∃ t, step s = .next t ∧ t.rxByte a.toNat = v ∧ (∀ b, b ≠ a.toNat → t.rxByte b = s.rxByte b) ∧
      t = { s with schedule := rest, rx := t.rx }

/-- `TX_START k`: `TX_BUSY` during a transmission, else `TX_INVALID` without a valid stream or past its end, else the transmission
starts at `k`; `OK` and `TXVALID` are not written when it starts (R216). -/
def Obligations.TxStartChecksThenStarts : Prop :=
  ∀ (s : State) (rest : List HostStep) (k : Byte), s.fault = false → s.schedule = .txStart k :: rest →
    (s.txActive = true →
      step s = .next { s with schedule := rest, fault := true, fcode := .txBusy, ok := false }) ∧
    (s.txActive = false → s.enc.txValid = false ∨ s.enc.txEnd.toNat < k.toNat →
      step s = .next { s with schedule := rest, fault := true, fcode := .txInvalid, ok := false }) ∧
    (s.txActive = false → s.enc.txValid = true → k.toNat ≤ s.enc.txEnd.toNat →
      step s = .next { s with schedule := rest, txActive := true, txIndex := k.toNat })

/-- A transmission sends the bytes up to the first sentinel, in order, and ends there: after one transceiver step for each byte and
one for the sentinel, `TX_ACTIVE` is 0 and nothing else of the block has changed (R216, 70_reset_and_hazards.md R280). -/
def Obligations.TransmissionSendsUpToTheSentinel : Prop :=
  ∀ (n : Nat) (s : State) (rest : List HostStep), s.txActive = true →
    s.schedule = List.replicate (n + 1) .transceiver ++ rest → s.txIndex + n < s.params.txSize →
    (∀ k, k < n → s.txByte (s.txIndex + k) ≠ 0xFF) → s.txByte (s.txIndex + n) = 0xFF →
    Host.Core.run Sys2Proof.core (n + 1) s = .next
      { s with schedule := rest, txActive := false, txIndex := s.txIndex + n,
               events := s.events ++ (s.enc.tx.readList s.txIndex n).map Event.sent }

/-- The inverse law for bits: a stream of bits encoded from `ENC_INIT` on, padded with two 0 bits and terminated, then copied to RX,
is decoded by `DEC_INIT 0` and one `DEC_BIT` for each bit to those bits, with no failure (40_line_code.md R129). -/
def Obligations.DecBitsInvertEncBits : Prop :=
  ∀ (xs : List Bool) (start : Byte) (s t u : State), s.fault = false → s.params.txSize ≤ 255 →
    s.schedule = .request (requestWord 0x1 false start) ::
      ((xs ++ [false, false]).map fun x => .request (requestWord 0x3 x 0)) ++ [.request (requestWord 0x5 false 0)] →
    Host.Core.run Sys2Proof.core (xs.length + 4) s = .next t → t.fault = false →
    u.fault = false → t.enc.txEnd.toNat - start.toNat ≤ u.params.rxSize →
    u.receives t start.toNat (t.enc.txEnd.toNat - start.toNat) →
    u.schedule = .request (requestWord 0x6 false 0) :: List.replicate xs.length (.request (requestWord 0x8 false 0)) →
    ∀ (k : Nat) (x : Bool), xs[k]? = some x →
      ∃ v : State, Host.Core.run Sys2Proof.core (k + 2) u = .next v ∧ v.res.val = (if x then 1 else 0) ∧
        v.dec.failed = false ∧ v.ok = true
end

