-- ==== Sys2Proof/Laws/Memory.lean ====
section
/-! SUPPORT. The laws of the buffers: a read after a write, the canonical form kept by every operation, and equal contents as
equal data. -/

namespace Sys2Proof.Machine

/-- A listed index is one the canonical form allows. -/
theorem Memory.find_bounds {b : Nat} {v : Byte} {cs : List Host.Cell} {lo size : Nat}
    (h : Memory.cellsOk lo size cs = true) (hf : Memory.find b cs = some v) : lo ≤ b ∧ b < size := by
  induction cs generalizing lo with
  | nil => simp [Memory.find] at hf
  | cons c rest ih =>
    obtain ⟨k, w⟩ := c
    simp only [Memory.cellsOk, Bool.and_eq_true, decide_eq_true_eq] at h
    simp only [Memory.find] at hf
    split at hf
    · subst_vars; exact h.1
    · have := ih h.2 hf; omega

theorem Memory.find_insert_same (a : Nat) (v : Byte) (cs : List Host.Cell) :
    Memory.find a (Memory.insert a v cs) = some v := by
  induction cs with
  | nil => simp [Memory.insert, Memory.find]
  | cons c rest ih =>
    obtain ⟨k, w⟩ := c
    simp only [Memory.insert]
    split
    · simp [Memory.find]
    · split
      · simp [Memory.find]
      · simp_all [Memory.find]

theorem Memory.find_insert_other {a b : Nat} (v : Byte) (cs : List Host.Cell) (h : b ≠ a) :
    Memory.find b (Memory.insert a v cs) = Memory.find b cs := by
  induction cs with
  | nil => simp [Memory.insert, Memory.find, h]
  | cons c rest ih =>
    obtain ⟨k, w⟩ := c
    simp only [Memory.insert]
    split
    · simp [Memory.find, h]
    · split
      · subst_vars; simp [Memory.find, h]
      · simp [Memory.find, ih]

/-- A read after a write to the same index gives the value written. -/
@[simp] theorem Memory.read_write_same (m : Memory) (a : Nat) (v : Byte) : (m.write a v).read a = v := by
  simp [Memory.read, Memory.write, Memory.find_insert_same]

/-- A write leaves every other index alone. -/
theorem Memory.read_write_other (m : Memory) {a b : Nat} (v : Byte) (h : b ≠ a) :
    (m.write a v).read b = m.read b := by
  simp [Memory.read, Memory.write, Memory.find_insert_other _ _ h]

theorem Memory.read_write (m : Memory) (a b : Nat) (v : Byte) :
    (m.write a v).read b = if b = a then v else m.read b := by
  split
  · subst_vars; exact m.read_write_same _ v
  · exact m.read_write_other v ‹_›

@[simp] theorem Memory.write_draw (m : Memory) (a : Nat) (v : Byte) : (m.write a v).draw = m.draw := rfl

theorem Memory.insert_cellsOk {a : Nat} {v : Byte} {cs : List Host.Cell} {lo size : Nat}
    (h : Memory.cellsOk lo size cs = true) (hlo : lo ≤ a) (ha : a < size) :
    Memory.cellsOk lo size (Memory.insert a v cs) = true := by
  induction cs generalizing lo with
  | nil => simp [Memory.insert, Memory.cellsOk, hlo, ha]
  | cons c rest ih =>
    obtain ⟨k, w⟩ := c
    simp only [Memory.cellsOk, Bool.and_eq_true, decide_eq_true_eq] at h
    simp only [Memory.insert]
    split
    · simp only [Memory.cellsOk, Bool.and_eq_true, decide_eq_true_eq]
      exact ⟨⟨hlo, ha⟩, ⟨⟨by omega, h.1.2⟩, h.2⟩⟩
    · split
      · subst_vars
        simp only [Memory.cellsOk, Bool.and_eq_true, decide_eq_true_eq]
        exact h
      · simp only [Memory.cellsOk, Bool.and_eq_true, decide_eq_true_eq]
        exact ⟨h.1, ih h.2 (by omega)⟩

/-- A write to an index the buffer has keeps the canonical form. -/
theorem Memory.write_wf {m : Memory} {size a : Nat} (v : Byte) (h : m.wf size = true) (ha : a < size) :
    (m.write a v).wf size = true :=
  Memory.insert_cellsOk h (Nat.zero_le a) ha

/-- Writing a list of bytes that fits keeps the canonical form. -/
theorem Memory.writeList_wf {m : Memory} {size a : Nat} (vs : List Byte) (h : m.wf size = true)
    (ha : a + vs.length ≤ size) : (m.writeList a vs).wf size = true := by
  induction vs generalizing m a with
  | nil => exact h
  | cons v vs ih =>
    simp only [List.length_cons] at ha
    exact ih (Memory.write_wf v h (by omega)) (by omega)

/-- A buffer after power-on is in canonical form. -/
theorem Memory.powerOn_wf (m : Memory) (size : Nat) : m.powerOn.wf size = true := rfl

/-- Both buffers of the reset state are in canonical form. -/
theorem State.reset_memory_wf :
    State.reset.enc.tx.wf State.reset.params.txSize = true ∧ State.reset.rx.wf State.reset.params.rxSize = true :=
  ⟨rfl, rfl⟩

/-- What a list of written bytes leaves at every index. -/
theorem Memory.read_writeList (m : Memory) (a b : Nat) (vs : List Byte) :
    (m.writeList a vs).read b =
      if h : a ≤ b ∧ b - a < vs.length then vs[b - a] else m.read b := by
  induction vs generalizing m a with
  | nil => simp [Memory.writeList]
  | cons v vs ih =>
    simp only [Memory.writeList, ih, Memory.read_write]
    by_cases hb : b = a
    · subst hb; simp
    · by_cases hlt : a ≤ b
      · obtain ⟨k, rfl⟩ : ∃ k, b = a + 1 + k := ⟨b - (a + 1), by omega⟩
        have e1 : a + 1 + k - (a + 1) = k := by omega
        have e2 : a + 1 + k - a = k + 1 := by omega
        have hle : a ≤ a + 1 + k := by omega
        simp only [e1, e2, hle, hb, Nat.le_add_right, true_and, List.length_cons, Nat.add_lt_add_iff_right,
          List.getElem_cons_succ, if_false]
      · have h1 : ¬ a + 1 ≤ b := by omega
        simp [hlt, h1, hb]

/-- Bytes outside the indices written are left alone. -/
theorem Memory.read_writeList_outside (m : Memory) {a b : Nat} (vs : List Byte)
    (h : b < a ∨ a + vs.length ≤ b) : (m.writeList a vs).read b = m.read b := by
  rw [Memory.read_writeList, dif_neg (by omega)]

@[simp] theorem Memory.readList_length (m : Memory) (a n : Nat) : (m.readList a n).length = n := by
  induction n generalizing a with
  | zero => rfl
  | succ n ih => simp [Memory.readList, ih]

theorem Memory.readList_succ (m : Memory) (a n : Nat) :
    m.readList a (n + 1) = m.readList a n ++ [m.read (a + n)] := by
  induction n generalizing a with
  | zero => simp [Memory.readList]
  | succ n ih =>
    rw [Memory.readList, ih (a + 1), Memory.readList]
    simp [Nat.add_assoc, Nat.add_comm 1 n]

theorem Memory.readList_append (m : Memory) (a n k : Nat) :
    m.readList a (n + k) = m.readList a n ++ m.readList (a + n) k := by
  induction n generalizing a with
  | zero => simp [Memory.readList]
  | succ n ih =>
    rw [show n + 1 + k = (n + k) + 1 by omega, Memory.readList, ih, Memory.readList]
    simp [Nat.add_assoc, Nat.add_comm 1 n]

/-- A list of bytes read depends only on the bytes read. -/
theorem Memory.readList_congr {m m' : Memory} {a b n : Nat}
    (h : ∀ k, k < n → m.read (a + k) = m'.read (b + k)) : m.readList a n = m'.readList b n := by
  induction n generalizing a b with
  | zero => rfl
  | succ n ih =>
    rw [Memory.readList, Memory.readList, show m.read a = m'.read b from h 0 (by omega)]
    congr 1
    exact ih fun k hk => by
      have := h (k + 1) (by omega)
      rwa [show a + (k + 1) = a + 1 + k by omega, show b + (k + 1) = b + 1 + k by omega] at this

@[simp] theorem Memory.pairs_length (m : Memory) (a n : Nat) : (m.pairs a n).length = 4 * n := by
  induction n generalizing a with
  | zero => rfl
  | succ n ih =>
    have := ih (a + 1)
    simp only [Memory.pairs, Memory.readList, List.flatMap_cons, List.length_append] at this ⊢
    rw [this]
    simp [bytePairs]
    omega

theorem Memory.pairs_append (m : Memory) (a n k : Nat) :
    m.pairs a (n + k) = m.pairs a n ++ m.pairs (a + n) k := by
  simp [Memory.pairs, Memory.readList_append]

theorem Memory.pairs_succ (m : Memory) (a n : Nat) :
    m.pairs a (n + 1) = m.pairs a n ++ bytePairs (m.read (a + n)) := by
  simp [Memory.pairs, Memory.readList_succ]

theorem Memory.pairs_congr {m m' : Memory} {a b n : Nat}
    (h : ∀ k, k < n → m.read (a + k) = m'.read (b + k)) : m.pairs a n = m'.pairs b n := by
  simp [Memory.pairs, Memory.readList_congr h]

/-- Buffers of one draw with the same listed contents, both in canonical form, are equal data. -/
theorem Memory.cells_ext {cs ds : List Host.Cell} {lo lo' size : Nat}
    (hc : Memory.cellsOk lo size cs = true) (hd : Memory.cellsOk lo' size ds = true)
    (h : ∀ a, Memory.find a cs = Memory.find a ds) : cs = ds := by
  induction cs generalizing ds lo lo' with
  | nil =>
    cases ds with
    | nil => rfl
    | cons d ds => have := h d.1; simp [Memory.find] at this
  | cons c cs ih =>
    obtain ⟨k, w⟩ := c
    cases ds with
    | nil => have := h k; simp [Memory.find] at this
    | cons d ds =>
      obtain ⟨j, u⟩ := d
      simp only [Memory.cellsOk, Bool.and_eq_true, decide_eq_true_eq] at hc hd
      have hkj : k = j := by
        have hk := h k
        have hj := h j
        simp only [Memory.find, if_true] at hk hj
        by_contra hne
        rw [if_neg hne] at hk
        rw [if_neg (Ne.symm hne)] at hj
        have := Memory.find_bounds hd.2 hk.symm
        have := Memory.find_bounds hc.2 hj
        omega
      subst hkj
      have hw : w = u := by have := h k; simpa [Memory.find] using this
      subst hw
      congr 1
      refine ih hc.2 hd.2 fun a => ?_
      have ha := h a
      simp only [Memory.find] at ha
      by_cases hak : a = k
      · subst hak
        cases h1 : Memory.find a cs with
        | none =>
          cases h2 : Memory.find a ds with
          | none => rfl
          | some v => have := Memory.find_bounds hd.2 h2; omega
        | some v => have := Memory.find_bounds hc.2 h1; omega
      · simpa [hak] using ha

theorem Memory.write_write (m : Memory) (a : Nat) (v w : Byte) {size : Nat} (h : m.wf size = true) (ha : a < size) :
    (m.write a v).write a w = m.write a w := by
  have h1 : Memory.cellsOk 0 size ((m.write a v).write a w).cells = true :=
    Memory.write_wf w (Memory.write_wf v h ha) ha
  have h2 : Memory.cellsOk 0 size (m.write a w).cells = true := Memory.write_wf w h ha
  have : ((m.write a v).write a w).cells = (m.write a w).cells := by
    refine Memory.cells_ext h1 h2 fun b => ?_
    by_cases hb : b = a
    · subst hb; simp [Memory.write, Memory.find_insert_same]
    · simp [Memory.write, Memory.find_insert_other _ _ hb]
  exact congrArg (fun c => ({ draw := m.draw, cells := c } : Memory)) this

end Sys2Proof.Machine
end

