-- ==== Sys2Proof/Laws/Encoder.lean ====
section
/-! SUPPORT. What the encoder's internal functions can do, said once in terms of the pairs laid down. -/

namespace Sys2Proof.Machine

/-! ### One byte -/

/-- Adding a pair to a byte that is not about to be completed fills one pair more and keeps the filled ones. -/
theorem filledByte_partial : ∀ (b : Byte) (q : Pair), pairsFilled b < 3 →
    pairsFilled (filledByte (pairsFilled b) b q) = pairsFilled b + 1 ∧
    (bytePairs (filledByte (pairsFilled b) b q)).take (pairsFilled b + 1) =
      (bytePairs b).take (pairsFilled b) ++ [q] := by
  decide +kernel

/-- The fourth pair completes the byte and keeps the three before it. -/
theorem filledByte_complete : ∀ (b : Byte) (q : Pair),
    bytePairs (filledByte 3 b q) = (bytePairs b).take 3 ++ [q] := by
  decide +kernel

theorem pairsFilled_le (b : Byte) : pairsFilled b ≤ 3 := by
  unfold pairsFilled; omega

@[simp] theorem pairsFilled_sentinel : pairsFilled sentinel = 0 := by decide

@[simp] theorem bytePairs_length (b : Byte) : (bytePairs b).length = 4 := rfl

/-! ### `PairWrite` -/

/-- Everything `PairWrite` can do: fill one pair more, complete the byte and move on, or raise `TX_OVERFLOW`. -/
theorem pairWrite_cases (size : Nat) (q : Pair) (e : Encoder) :
    (pairsFilled e.current < 3 ∧
      pairWrite size q e = .ok (e.setCurrent (filledByte (pairsFilled e.current) e.current q))) ∨
    (pairsFilled e.current = 3 ∧ size ≤ e.ptr.toNat + 1 ∧
      pairWrite size q e = .overflow (e.setCurrent (filledByte 3 e.current q))) ∨
    (pairsFilled e.current = 3 ∧ e.ptr.toNat + 1 < size ∧
      pairWrite size q e = .ok
        { e.setCurrent (filledByte 3 e.current q) with
          tx := (e.setCurrent (filledByte 3 e.current q)).tx.write (e.ptr.toNat + 1) sentinel
          ptr := e.ptr + 1 }) := by
  have hle := pairsFilled_le e.current
  by_cases h3 : pairsFilled e.current = 3
  · by_cases hs : size ≤ e.ptr.toNat + 1
    · right; left; simp [pairWrite, h3, Encoder.advance, hs, Encoder.setCurrent]
    · right; right
      refine ⟨h3, by omega, ?_⟩
      simp [pairWrite, h3, Encoder.advance, hs, Encoder.setCurrent]
  · left
    exact ⟨by omega, by simp [pairWrite, h3]⟩

/-- The pairs `qs` laid down from `e` to `e'`: what is added to the stream, where the encoder stands, and what is left alone. -/
structure LaidDown (size : Nat) (e e' : Encoder) (qs : List Pair) : Prop where
  stream : ∀ base, base ≤ e.ptr.toNat → e'.stream base = e.stream base ++ qs
  ptr : e'.ptr.toNat = e.ptr.toNat + (pairsFilled e.current + qs.length) / 4
  fill : pairsFilled e'.current = (pairsFilled e.current + qs.length) % 4
  inside : e'.ptr.toNat < size
  ready : e'.ready = e.ready
  txEnd : e'.txEnd = e.txEnd
  txValid : e'.txValid = e.txValid
  draw : e'.tx.draw = e.tx.draw
  wf : e.tx.wf size = true → e'.tx.wf size = true
  outside : ∀ a, a < e.ptr.toNat ∨ e'.ptr.toNat < a → e'.tx.read a = e.tx.read a

theorem LaidDown.nil {size : Nat} {e : Encoder} (h : e.ptr.toNat < size) : LaidDown size e e [] where
  stream := by simp
  ptr := by have := pairsFilled_le e.current; simp; omega
  fill := by have := pairsFilled_le e.current; simp; omega
  inside := h
  ready := rfl
  txEnd := rfl
  txValid := rfl
  draw := rfl
  wf := id
  outside := fun _ _ => rfl

theorem LaidDown.trans {size : Nat} {e1 e2 e3 : Encoder} {ps qs : List Pair}
    (h1 : LaidDown size e1 e2 ps) (h2 : LaidDown size e2 e3 qs) : LaidDown size e1 e3 (ps ++ qs) where
  stream := fun base hb => by
    rw [h2.stream base (by have := h1.ptr; omega), h1.stream base hb, List.append_assoc]
  ptr := by have := h1.ptr; have := h1.fill; have := h2.ptr; simp; omega
  fill := by have := h1.fill; have := h2.fill; simp; omega
  inside := h2.inside
  ready := h2.ready.trans h1.ready
  txEnd := h2.txEnd.trans h1.txEnd
  txValid := h2.txValid.trans h1.txValid
  draw := h2.draw.trans h1.draw
  wf := fun h => h2.wf (h1.wf h)
  outside := fun a ha => by
    have := h1.ptr; have := h2.ptr
    rw [h2.outside a (by omega), h1.outside a (by omega)]

theorem byte_succ_toNat {p : Byte} {size : Nat} (hs : size ≤ 255) (h : p.toNat + 1 < size) :
    (p + 1).toNat = p.toNat + 1 := by
  rw [BitVec.toNat_add]; simp; omega

/-- `PairWrite` lays its pair down unless TXBUF ends. -/
theorem pairWrite_ok {size : Nat} {q : Pair} {e e' : Encoder} (hs : size ≤ 255) (hp : e.ptr.toNat < size)
    (h : pairWrite size q e = .ok e') : LaidDown size e e' [q] := by
  rcases pairWrite_cases size q e with ⟨hf, he⟩ | ⟨hf, _, he⟩ | ⟨hf, hlt, he⟩
  · rw [he] at h
    cases h
    obtain ⟨hfill, htake⟩ := filledByte_partial e.current q hf
    have hcur : (e.setCurrent (filledByte (pairsFilled e.current) e.current q)).current =
        filledByte (pairsFilled e.current) e.current q := by simp [Encoder.current, Encoder.setCurrent]
    refine ⟨fun base hb => ?_, ?_, ?_, hp, rfl, rfl, rfl, rfl, fun hw => Memory.write_wf _ hw hp, fun a ha => ?_⟩
    · have hpairs : (e.setCurrent (filledByte (pairsFilled e.current) e.current q)).tx.pairs base (e.ptr.toNat - base) =
          e.tx.pairs base (e.ptr.toNat - base) :=
        Memory.pairs_congr fun k hk => Memory.read_write_other _ _ (by omega)
      show (e.setCurrent _).tx.pairs base (e.ptr.toNat - base) ++ _ = _
      rw [hcur, hpairs, hfill, htake, Encoder.stream, List.append_assoc]
    · simp [Encoder.setCurrent]; omega
    · rw [hcur, hfill]; simp; omega
    · have ha' : a < e.ptr.toNat ∨ e.ptr.toNat < a := ha
      exact Memory.read_write_other _ _ (by omega)
  · rw [he] at h; cases h
  · rw [he] at h
    cases h
    have hsucc := byte_succ_toNat hs hlt
    refine ⟨fun base hb => ?_, ?_, ?_, ?_, rfl, rfl, rfl, rfl,
      fun hw => Memory.write_wf _ (Memory.write_wf _ hw hp) hlt, fun a ha => ?_⟩
    · have hcomp := filledByte_complete e.current q
      simp only [Encoder.stream, Encoder.current, Encoder.setCurrent, hsucc, Memory.read_write_same,
        pairsFilled_sentinel, List.take_zero, List.append_nil] at *
      rw [show e.ptr.toNat + 1 - base = (e.ptr.toNat - base) + 1 by omega, Memory.pairs_succ,
        show base + (e.ptr.toNat - base) = e.ptr.toNat by omega,
        Memory.read_write_other _ _ (by omega), Memory.read_write_same, hcomp, hf, List.append_assoc]
      congr 1
      exact Memory.pairs_congr fun k hk => by
        rw [Memory.read_write_other _ _ (by omega), Memory.read_write_other _ _ (by omega)]
    · show (e.ptr + 1).toNat = _
      rw [hsucc, hf]; simp
    · rw [hf]
      simp only [Encoder.current, hsucc, Memory.read_write_same, pairsFilled_sentinel]; simp
    · show (e.ptr + 1).toNat < size
      omega
    · have ha' : a < e.ptr.toNat ∨ (e.ptr + 1).toNat < a := ha
      rw [hsucc] at ha'
      show ((e.tx.write _ _).write _ _).read a = _
      rw [Memory.read_write_other _ _ (by omega), Memory.read_write_other _ _ (by omega)]

/-- `PairWrite` succeeds when the byte it may complete has a next one. -/
theorem pairWrite_fits {size : Nat} (q : Pair) {e : Encoder} (h : e.ptr.toNat + (pairsFilled e.current + 1) / 4 < size) :
    ∃ e', pairWrite size q e = .ok e' := by
  rcases pairWrite_cases size q e with ⟨_, he⟩ | ⟨hf, hs, _⟩ | ⟨_, _, he⟩
  · exact ⟨_, he⟩
  · omega
  · exact ⟨_, he⟩

/-! ### Sequences of pairs, bits and bytes -/

/-- What an append of `qs` that raised `TX_OVERFLOW` leaves: TXBUF full of the pairs that fit, the encoder on the last byte, its
flags as they were, nothing written before its start or past the buffer. -/
structure Overflowed (size : Nat) (e e' : Encoder) (qs : List Pair) : Prop where
  laid : ∀ base, base ≤ e.ptr.toNat → e'.tx.pairs base (size - base) <+: e.stream base ++ qs
  ptr : e'.ptr.toNat + 1 = size
  ready : e'.ready = e.ready
  txEnd : e'.txEnd = e.txEnd
  txValid : e'.txValid = e.txValid
  draw : e'.tx.draw = e.tx.draw
  wf : e.tx.wf size = true → e'.tx.wf size = true
  outside : ∀ a, a < e.ptr.toNat ∨ size ≤ a → e'.tx.read a = e.tx.read a

/-- A byte written at the cursor, on the last byte of TXBUF: the pairs up to the end are those before it and its own. -/
theorem lastByte_pairs {size base : Nat} {e : Encoder} (v : Byte) (hb : base ≤ e.ptr.toNat) (hs : e.ptr.toNat + 1 = size) :
    (e.setCurrent v).tx.pairs base (size - base) = e.tx.pairs base (e.ptr.toNat - base) ++ bytePairs v := by
  rw [show size - base = (e.ptr.toNat - base) + 1 by omega, Memory.pairs_succ,
    show base + (e.ptr.toNat - base) = e.ptr.toNat by omega]
  congr 1
  · exact Memory.pairs_congr fun k hk => Memory.read_write_other _ _ (by omega)
  · rw [show (e.setCurrent v).tx.read e.ptr.toNat = v by simp [Encoder.setCurrent]]

theorem pairWrite_overflow {size : Nat} {q : Pair} {e e' : Encoder} (hp : e.ptr.toNat < size)
    (h : pairWrite size q e = .overflow e') : Overflowed size e e' [q] := by
  rcases pairWrite_cases size q e with ⟨_, he⟩ | ⟨hf, hs, he⟩ | ⟨_, _, he⟩
  · rw [he] at h; cases h
  · rw [he] at h
    cases h
    refine ⟨fun base hb => ?_, show e.ptr.toNat + 1 = size by omega, rfl, rfl, rfl, rfl,
      fun hw => Memory.write_wf _ hw hp, fun a ha => Memory.read_write_other _ _ (by omega)⟩
    have hfull := lastByte_pairs (filledByte 3 e.current q) hb (show e.ptr.toNat + 1 = size by omega)
    rw [hfull, filledByte_complete, Encoder.stream, hf, List.append_assoc]
  · rw [he] at h; cases h

theorem Overflowed.append {size : Nat} {e e' : Encoder} {qs : List Pair} (h : Overflowed size e e' qs) (rs : List Pair) :
    Overflowed size e e' (qs ++ rs) where
  laid := fun base hb => by
    rw [← List.append_assoc]
    exact (h.laid base hb).trans (List.prefix_append _ _)
  ptr := h.ptr
  ready := h.ready
  txEnd := h.txEnd
  txValid := h.txValid
  draw := h.draw
  wf := h.wf
  outside := h.outside

theorem LaidDown.overflowed {size : Nat} {e1 e2 e3 : Encoder} {ps qs : List Pair} (h1 : LaidDown size e1 e2 ps)
    (h2 : Overflowed size e2 e3 qs) : Overflowed size e1 e3 (ps ++ qs) where
  laid := fun base hb => by
    have := h1.ptr
    rw [← List.append_assoc, ← h1.stream base hb]
    exact h2.laid base (by omega)
  ptr := h2.ptr
  ready := h2.ready.trans h1.ready
  txEnd := h2.txEnd.trans h1.txEnd
  txValid := h2.txValid.trans h1.txValid
  draw := h2.draw.trans h1.draw
  wf := fun h => h2.wf (h1.wf h)
  outside := fun a ha => by
    have := h1.ptr; have := h1.inside
    rw [h2.outside a (by omega), h1.outside a (by omega)]

/-- Everything an append of pairs can do: lay them all down, or overflow. -/
theorem appendPairs_cases {size : Nat} (qs : List Pair) {e : Encoder} (hs : size ≤ 255) (hp : e.ptr.toNat < size) :
    (∃ e', appendPairs size qs e = .ok e' ∧ LaidDown size e e' qs ∧ e.ptr.toNat + e.bytesFilledBy qs.length < size) ∨
    (∃ e', appendPairs size qs e = .overflow e' ∧ Overflowed size e e' qs ∧
      size ≤ e.ptr.toNat + e.bytesFilledBy qs.length) := by
  induction qs generalizing e with
  | nil =>
    left
    refine ⟨e, rfl, LaidDown.nil hp, ?_⟩
    have := pairsFilled_le e.current
    simp only [Encoder.bytesFilledBy, List.length_nil]
    omega
  | cons q qs ih =>
    cases hw : pairWrite size q e with
    | ok e1 =>
      have h1 := pairWrite_ok hs hp hw
      have hptr := h1.ptr
      have hfill := h1.fill
      simp only [List.length_singleton] at hptr hfill
      rcases ih h1.inside with ⟨e2, he2, h2, hlt⟩ | ⟨e2, he2, h2, hle⟩
      · left
        refine ⟨e2, by simp [appendPairs, hw, TxRun.andThen, he2], h1.trans h2, ?_⟩
        simp only [Encoder.bytesFilledBy, List.length_cons] at hlt ⊢
        omega
      · right
        refine ⟨e2, by simp [appendPairs, hw, TxRun.andThen, he2], h1.overflowed h2, ?_⟩
        simp only [Encoder.bytesFilledBy, List.length_cons] at hle ⊢
        omega
    | overflow e1 =>
      right
      refine ⟨e1, by simp [appendPairs, hw, TxRun.andThen], (pairWrite_overflow hp hw).append qs, ?_⟩
      rcases pairWrite_cases size q e with ⟨_, he⟩ | ⟨hf, hse, _⟩ | ⟨_, _, he⟩
      · rw [he] at hw; cases hw
      · simp only [Encoder.bytesFilledBy, List.length_cons, hf]; omega
      · rw [he] at hw; cases hw

theorem appendPairs_append (size : Nat) (ps qs : List Pair) (e : Encoder) :
    appendPairs size (ps ++ qs) e = (appendPairs size ps e).andThen (appendPairs size qs) := by
  induction ps generalizing e with
  | nil => rfl
  | cons p ps ih =>
    simp only [List.cons_append, appendPairs]
    cases pairWrite size p e with
    | ok e1 => exact ih e1
    | overflow e1 => rfl

/-- Appending logical bits is laying down their symbols' pairs (R106). -/
theorem appendBits_eq (size : Nat) (xs : List Bool) (e : Encoder) :
    appendBits size xs e = appendPairs size (linePairs xs) e := by
  induction xs generalizing e with
  | nil => rfl
  | cons x xs ih =>
    have : linePairs (x :: xs) = lineSymbol x ++ linePairs xs := rfl
    rw [this, appendPairs_append]
    simp only [appendBits, appendBit]
    cases appendPairs size (lineSymbol x) e with
    | ok e1 => exact ih e1
    | overflow e1 => rfl

theorem linePairs_append (xs ys : List Bool) : linePairs (xs ++ ys) = linePairs xs ++ linePairs ys := by
  simp [linePairs]

/-- Appending bytes is laying down the pairs of their encoded bytes (R107). -/
theorem appendBytes_eq (size : Nat) (vs : List Byte) (e : Encoder) :
    appendBytes size vs e = appendPairs size (linePairs (vs.flatMap encodedByte)) e := by
  induction vs generalizing e with
  | nil => rfl
  | cons v vs ih =>
    rw [List.flatMap_cons, linePairs_append, appendPairs_append]
    simp only [appendBytes, appendByte, appendBits_eq]
    cases appendPairs size (linePairs (encodedByte v)) e with
    | ok e1 => exact ih e1
    | overflow e1 => rfl

/-- A raw byte at a byte boundary lays its four pairs down (R102), unless TXBUF ends. -/
theorem appendRaw_cases {size : Nat} (v : Byte) {e : Encoder} (hs : size ≤ 255) (hp : e.ptr.toNat < size)
    (he : pairsFilled e.current = 0) :
    (∃ e', appendRaw size v e = .ok e' ∧ LaidDown size e e' (bytePairs v) ∧ e.ptr.toNat + 1 < size) ∨
    (∃ e', appendRaw size v e = .overflow e' ∧ Overflowed size e e' (bytePairs v) ∧ size ≤ e.ptr.toNat + 1) := by
  by_cases hlt : e.ptr.toNat + 1 < size
  · left
    have hsucc := byte_succ_toNat hs hlt
    refine ⟨{ e with tx := (e.tx.write e.ptr.toNat v).write (e.ptr.toNat + 1) sentinel, ptr := e.ptr + 1 }, ?_,
      ⟨fun base hb => ?_, ?_, ?_, ?_, rfl, rfl, rfl, rfl, fun hw => Memory.write_wf _ (Memory.write_wf _ hw hp) hlt,
        fun a ha => ?_⟩, hlt⟩
    · simp [appendRaw, Encoder.advance, Encoder.setCurrent, show ¬ size ≤ e.ptr.toNat + 1 by omega]
    · simp only [Encoder.stream, Encoder.current, hsucc, Memory.read_write_same, pairsFilled_sentinel,
        List.take_zero, List.append_nil]
      simp only [Encoder.current] at he
      rw [he, List.take_zero, List.append_nil, show e.ptr.toNat + 1 - base = (e.ptr.toNat - base) + 1 by omega,
        Memory.pairs_succ, show base + (e.ptr.toNat - base) = e.ptr.toNat by omega,
        Memory.read_write_other _ _ (by omega), Memory.read_write_same]
      congr 1
      exact Memory.pairs_congr fun k hk => by
        rw [Memory.read_write_other _ _ (by omega), Memory.read_write_other _ _ (by omega)]
    · show (e.ptr + 1).toNat = _
      rw [hsucc, he]; simp
    · simp only [Encoder.current, hsucc, Memory.read_write_same, pairsFilled_sentinel, bytePairs_length] at *
      omega
    · show (e.ptr + 1).toNat < size
      omega
    · have ha' : a < e.ptr.toNat ∨ (e.ptr + 1).toNat < a := ha
      rw [hsucc] at ha'
      show ((e.tx.write _ _).write _ _).read a = _
      rw [Memory.read_write_other _ _ (by omega), Memory.read_write_other _ _ (by omega)]
  · right
    refine ⟨e.setCurrent v, ?_, ⟨fun base hb => ?_, show e.ptr.toNat + 1 = size by omega, rfl, rfl, rfl, rfl,
      fun hw => Memory.write_wf _ hw hp, fun a ha => Memory.read_write_other _ _ (by omega)⟩, by omega⟩
    · simp [appendRaw, Encoder.advance, Encoder.setCurrent, show size ≤ e.ptr.toNat + 1 by omega]
    · rw [lastByte_pairs v hb (show e.ptr.toNat + 1 = size by omega), Encoder.stream, he]
      simp

/-- `n` raw bytes from a byte boundary lay their pairs down, unless TXBUF ends. -/
theorem appendRaws_cases {size : Nat} (v : Byte) (n : Nat) {e : Encoder} (hs : size ≤ 255) (hp : e.ptr.toNat < size)
    (he : pairsFilled e.current = 0) :
    (∃ e', appendRaws size v n e = .ok e' ∧ LaidDown size e e' ((List.replicate n v).flatMap bytePairs) ∧
      e.ptr.toNat + n < size) ∨
    (∃ e', appendRaws size v n e = .overflow e' ∧ Overflowed size e e' ((List.replicate n v).flatMap bytePairs) ∧
      size ≤ e.ptr.toNat + n) := by
  induction n generalizing e with
  | zero => left; exact ⟨e, rfl, LaidDown.nil hp, by omega⟩
  | succ n ih =>
    rcases appendRaw_cases v hs hp he with ⟨e1, h1, l1, hlt⟩ | ⟨e1, h1, o1, hle⟩
    · have hp1 := l1.ptr
      have hf1 := l1.fill
      simp only [he, bytePairs_length] at hp1 hf1
      rcases ih l1.inside hf1 with ⟨e2, h2, l2, hlt2⟩ | ⟨e2, h2, o2, hle2⟩
      · left
        exact ⟨e2, by simp [appendRaws, h1, TxRun.andThen, h2], l1.trans l2, by omega⟩
      · right
        exact ⟨e2, by simp [appendRaws, h1, TxRun.andThen, h2], l1.overflowed o2, by omega⟩
    · right
      exact ⟨e1, by simp [appendRaws, h1, TxRun.andThen], o1.append _, by omega⟩

end Sys2Proof.Machine
end

