-- ==== Sys2Proof/Laws/State.lean ====
section
/-! SUPPORT. What each named update of the state leaves in each field, so that no proof unfolds an update. -/

namespace Sys2Proof.Machine

variable (s : State)

@[simp] theorem State.raise_params (c : FaultCode) : (s.raise c).params = s.params := rfl
@[simp] theorem State.raise_enc (c : FaultCode) : (s.raise c).enc = s.enc := rfl
@[simp] theorem State.raise_dec (c : FaultCode) : (s.raise c).dec = s.dec := rfl
@[simp] theorem State.raise_args (c : FaultCode) : (s.raise c).args = s.args := rfl
@[simp] theorem State.raise_res (c : FaultCode) : (s.raise c).res = s.res := rfl
@[simp] theorem State.raise_rxLen (c : FaultCode) : (s.raise c).rxLen = s.rxLen := rfl
@[simp] theorem State.raise_rx (c : FaultCode) : (s.raise c).rx = s.rx := rfl
@[simp] theorem State.raise_ok (c : FaultCode) : (s.raise c).ok = false := rfl
@[simp] theorem State.raise_fault (c : FaultCode) : (s.raise c).fault = true := rfl
@[simp] theorem State.raise_fcode (c : FaultCode) : (s.raise c).fcode = c := rfl
@[simp] theorem State.raise_statsIn (c : FaultCode) : (s.raise c).statsIn = s.statsIn := rfl
@[simp] theorem State.raise_statsOut (c : FaultCode) : (s.raise c).statsOut = s.statsOut := rfl
@[simp] theorem State.raise_txActive (c : FaultCode) : (s.raise c).txActive = s.txActive := rfl
@[simp] theorem State.raise_txIndex (c : FaultCode) : (s.raise c).txIndex = s.txIndex := rfl
@[simp] theorem State.raise_schedule (c : FaultCode) : (s.raise c).schedule = s.schedule := rfl
@[simp] theorem State.raise_events (c : FaultCode) : (s.raise c).events = s.events := rfl
@[simp] theorem State.raise_hostData (c : FaultCode) : (s.raise c).hostData = s.hostData := rfl

@[simp] theorem State.setOk_params (b : Bool) : (s.setOk b).params = s.params := rfl
@[simp] theorem State.setOk_enc (b : Bool) : (s.setOk b).enc = s.enc := rfl
@[simp] theorem State.setOk_dec (b : Bool) : (s.setOk b).dec = s.dec := rfl
@[simp] theorem State.setOk_args (b : Bool) : (s.setOk b).args = s.args := rfl
@[simp] theorem State.setOk_res (b : Bool) : (s.setOk b).res = s.res := rfl
@[simp] theorem State.setOk_rxLen (b : Bool) : (s.setOk b).rxLen = s.rxLen := rfl
@[simp] theorem State.setOk_rx (b : Bool) : (s.setOk b).rx = s.rx := rfl
@[simp] theorem State.setOk_ok (b : Bool) : (s.setOk b).ok = b := rfl
@[simp] theorem State.setOk_fault (b : Bool) : (s.setOk b).fault = s.fault := rfl
@[simp] theorem State.setOk_fcode (b : Bool) : (s.setOk b).fcode = s.fcode := rfl
@[simp] theorem State.setOk_statsIn (b : Bool) : (s.setOk b).statsIn = s.statsIn := rfl
@[simp] theorem State.setOk_statsOut (b : Bool) : (s.setOk b).statsOut = s.statsOut := rfl
@[simp] theorem State.setOk_txActive (b : Bool) : (s.setOk b).txActive = s.txActive := rfl
@[simp] theorem State.setOk_txIndex (b : Bool) : (s.setOk b).txIndex = s.txIndex := rfl
@[simp] theorem State.setOk_schedule (b : Bool) : (s.setOk b).schedule = s.schedule := rfl
@[simp] theorem State.setOk_events (b : Bool) : (s.setOk b).events = s.events := rfl
@[simp] theorem State.setOk_hostData (b : Bool) : (s.setOk b).hostData = s.hostData := rfl

@[simp] theorem State.setEnc_params (e : Encoder) : (s.setEnc e).params = s.params := rfl
@[simp] theorem State.setEnc_enc (e : Encoder) : (s.setEnc e).enc = e := rfl
@[simp] theorem State.setEnc_dec (e : Encoder) : (s.setEnc e).dec = s.dec := rfl
@[simp] theorem State.setEnc_args (e : Encoder) : (s.setEnc e).args = s.args := rfl
@[simp] theorem State.setEnc_res (e : Encoder) : (s.setEnc e).res = s.res := rfl
@[simp] theorem State.setEnc_rxLen (e : Encoder) : (s.setEnc e).rxLen = s.rxLen := rfl
@[simp] theorem State.setEnc_rx (e : Encoder) : (s.setEnc e).rx = s.rx := rfl
@[simp] theorem State.setEnc_ok (e : Encoder) : (s.setEnc e).ok = s.ok := rfl
@[simp] theorem State.setEnc_fault (e : Encoder) : (s.setEnc e).fault = s.fault := rfl
@[simp] theorem State.setEnc_fcode (e : Encoder) : (s.setEnc e).fcode = s.fcode := rfl
@[simp] theorem State.setEnc_statsIn (e : Encoder) : (s.setEnc e).statsIn = s.statsIn := rfl
@[simp] theorem State.setEnc_statsOut (e : Encoder) : (s.setEnc e).statsOut = s.statsOut := rfl
@[simp] theorem State.setEnc_txActive (e : Encoder) : (s.setEnc e).txActive = s.txActive := rfl
@[simp] theorem State.setEnc_txIndex (e : Encoder) : (s.setEnc e).txIndex = s.txIndex := rfl
@[simp] theorem State.setEnc_schedule (e : Encoder) : (s.setEnc e).schedule = s.schedule := rfl
@[simp] theorem State.setEnc_events (e : Encoder) : (s.setEnc e).events = s.events := rfl
@[simp] theorem State.setEnc_hostData (e : Encoder) : (s.setEnc e).hostData = s.hostData := rfl

@[simp] theorem State.setDec_params (d : Decoder) : (s.setDec d).params = s.params := rfl
@[simp] theorem State.setDec_enc (d : Decoder) : (s.setDec d).enc = s.enc := rfl
@[simp] theorem State.setDec_dec (d : Decoder) : (s.setDec d).dec = d := rfl
@[simp] theorem State.setDec_args (d : Decoder) : (s.setDec d).args = s.args := rfl
@[simp] theorem State.setDec_res (d : Decoder) : (s.setDec d).res = s.res := rfl
@[simp] theorem State.setDec_rxLen (d : Decoder) : (s.setDec d).rxLen = s.rxLen := rfl
@[simp] theorem State.setDec_rx (d : Decoder) : (s.setDec d).rx = s.rx := rfl
@[simp] theorem State.setDec_ok (d : Decoder) : (s.setDec d).ok = s.ok := rfl
@[simp] theorem State.setDec_fault (d : Decoder) : (s.setDec d).fault = s.fault := rfl
@[simp] theorem State.setDec_fcode (d : Decoder) : (s.setDec d).fcode = s.fcode := rfl
@[simp] theorem State.setDec_statsIn (d : Decoder) : (s.setDec d).statsIn = s.statsIn := rfl
@[simp] theorem State.setDec_statsOut (d : Decoder) : (s.setDec d).statsOut = s.statsOut := rfl
@[simp] theorem State.setDec_txActive (d : Decoder) : (s.setDec d).txActive = s.txActive := rfl
@[simp] theorem State.setDec_txIndex (d : Decoder) : (s.setDec d).txIndex = s.txIndex := rfl
@[simp] theorem State.setDec_schedule (d : Decoder) : (s.setDec d).schedule = s.schedule := rfl
@[simp] theorem State.setDec_events (d : Decoder) : (s.setDec d).events = s.events := rfl
@[simp] theorem State.setDec_hostData (d : Decoder) : (s.setDec d).hostData = s.hostData := rfl

@[simp] theorem State.setVal_params (v : Byte) : (s.setVal v).params = s.params := rfl
@[simp] theorem State.setVal_enc (v : Byte) : (s.setVal v).enc = s.enc := rfl
@[simp] theorem State.setVal_dec (v : Byte) : (s.setVal v).dec = s.dec := rfl
@[simp] theorem State.setVal_args (v : Byte) : (s.setVal v).args = s.args := rfl
@[simp] theorem State.setVal_res (v : Byte) : (s.setVal v).res = { s.res with val := v } := rfl
@[simp] theorem State.setVal_rxLen (v : Byte) : (s.setVal v).rxLen = s.rxLen := rfl
@[simp] theorem State.setVal_rx (v : Byte) : (s.setVal v).rx = s.rx := rfl
@[simp] theorem State.setVal_ok (v : Byte) : (s.setVal v).ok = s.ok := rfl
@[simp] theorem State.setVal_fault (v : Byte) : (s.setVal v).fault = s.fault := rfl
@[simp] theorem State.setVal_fcode (v : Byte) : (s.setVal v).fcode = s.fcode := rfl
@[simp] theorem State.setVal_statsIn (v : Byte) : (s.setVal v).statsIn = s.statsIn := rfl
@[simp] theorem State.setVal_statsOut (v : Byte) : (s.setVal v).statsOut = s.statsOut := rfl
@[simp] theorem State.setVal_txActive (v : Byte) : (s.setVal v).txActive = s.txActive := rfl
@[simp] theorem State.setVal_txIndex (v : Byte) : (s.setVal v).txIndex = s.txIndex := rfl
@[simp] theorem State.setVal_schedule (v : Byte) : (s.setVal v).schedule = s.schedule := rfl
@[simp] theorem State.setVal_events (v : Byte) : (s.setVal v).events = s.events := rfl
@[simp] theorem State.setVal_hostData (v : Byte) : (s.setVal v).hostData = s.hostData := rfl

@[simp] theorem State.setCsum_params (v : Byte) : (s.setCsum v).params = s.params := rfl
@[simp] theorem State.setCsum_enc (v : Byte) : (s.setCsum v).enc = s.enc := rfl
@[simp] theorem State.setCsum_dec (v : Byte) : (s.setCsum v).dec = s.dec := rfl
@[simp] theorem State.setCsum_args (v : Byte) : (s.setCsum v).args = s.args := rfl
@[simp] theorem State.setCsum_res (v : Byte) : (s.setCsum v).res = { s.res with csum := v } := rfl
@[simp] theorem State.setCsum_rxLen (v : Byte) : (s.setCsum v).rxLen = s.rxLen := rfl
@[simp] theorem State.setCsum_rx (v : Byte) : (s.setCsum v).rx = s.rx := rfl
@[simp] theorem State.setCsum_ok (v : Byte) : (s.setCsum v).ok = s.ok := rfl
@[simp] theorem State.setCsum_fault (v : Byte) : (s.setCsum v).fault = s.fault := rfl
@[simp] theorem State.setCsum_fcode (v : Byte) : (s.setCsum v).fcode = s.fcode := rfl
@[simp] theorem State.setCsum_statsIn (v : Byte) : (s.setCsum v).statsIn = s.statsIn := rfl
@[simp] theorem State.setCsum_statsOut (v : Byte) : (s.setCsum v).statsOut = s.statsOut := rfl
@[simp] theorem State.setCsum_txActive (v : Byte) : (s.setCsum v).txActive = s.txActive := rfl
@[simp] theorem State.setCsum_txIndex (v : Byte) : (s.setCsum v).txIndex = s.txIndex := rfl
@[simp] theorem State.setCsum_schedule (v : Byte) : (s.setCsum v).schedule = s.schedule := rfl
@[simp] theorem State.setCsum_events (v : Byte) : (s.setCsum v).events = s.events := rfl
@[simp] theorem State.setCsum_hostData (v : Byte) : (s.setCsum v).hostData = s.hostData := rfl

@[simp] theorem State.emit_params (es : List Event) : (s.emit es).params = s.params := rfl
@[simp] theorem State.emit_enc (es : List Event) : (s.emit es).enc = s.enc := rfl
@[simp] theorem State.emit_dec (es : List Event) : (s.emit es).dec = s.dec := rfl
@[simp] theorem State.emit_args (es : List Event) : (s.emit es).args = s.args := rfl
@[simp] theorem State.emit_res (es : List Event) : (s.emit es).res = s.res := rfl
@[simp] theorem State.emit_rxLen (es : List Event) : (s.emit es).rxLen = s.rxLen := rfl
@[simp] theorem State.emit_rx (es : List Event) : (s.emit es).rx = s.rx := rfl
@[simp] theorem State.emit_ok (es : List Event) : (s.emit es).ok = s.ok := rfl
@[simp] theorem State.emit_fault (es : List Event) : (s.emit es).fault = s.fault := rfl
@[simp] theorem State.emit_fcode (es : List Event) : (s.emit es).fcode = s.fcode := rfl
@[simp] theorem State.emit_statsIn (es : List Event) : (s.emit es).statsIn = s.statsIn := rfl
@[simp] theorem State.emit_statsOut (es : List Event) : (s.emit es).statsOut = s.statsOut := rfl
@[simp] theorem State.emit_txActive (es : List Event) : (s.emit es).txActive = s.txActive := rfl
@[simp] theorem State.emit_txIndex (es : List Event) : (s.emit es).txIndex = s.txIndex := rfl
@[simp] theorem State.emit_schedule (es : List Event) : (s.emit es).schedule = s.schedule := rfl
@[simp] theorem State.emit_events (es : List Event) : (s.emit es).events = s.events ++ es := rfl
@[simp] theorem State.emit_hostData (es : List Event) : (s.emit es).hostData = s.hostData := rfl

@[simp] theorem State.setHostData_params (v : BitVec 16) : (s.setHostData v).params = s.params := rfl
@[simp] theorem State.setHostData_enc (v : BitVec 16) : (s.setHostData v).enc = s.enc := rfl
@[simp] theorem State.setHostData_dec (v : BitVec 16) : (s.setHostData v).dec = s.dec := rfl
@[simp] theorem State.setHostData_args (v : BitVec 16) : (s.setHostData v).args = s.args := rfl
@[simp] theorem State.setHostData_res (v : BitVec 16) : (s.setHostData v).res = s.res := rfl
@[simp] theorem State.setHostData_rxLen (v : BitVec 16) : (s.setHostData v).rxLen = s.rxLen := rfl
@[simp] theorem State.setHostData_rx (v : BitVec 16) : (s.setHostData v).rx = s.rx := rfl
@[simp] theorem State.setHostData_ok (v : BitVec 16) : (s.setHostData v).ok = s.ok := rfl
@[simp] theorem State.setHostData_fault (v : BitVec 16) : (s.setHostData v).fault = s.fault := rfl
@[simp] theorem State.setHostData_fcode (v : BitVec 16) : (s.setHostData v).fcode = s.fcode := rfl
@[simp] theorem State.setHostData_statsIn (v : BitVec 16) : (s.setHostData v).statsIn = s.statsIn := rfl
@[simp] theorem State.setHostData_statsOut (v : BitVec 16) : (s.setHostData v).statsOut = s.statsOut := rfl
@[simp] theorem State.setHostData_txActive (v : BitVec 16) : (s.setHostData v).txActive = s.txActive := rfl
@[simp] theorem State.setHostData_txIndex (v : BitVec 16) : (s.setHostData v).txIndex = s.txIndex := rfl
@[simp] theorem State.setHostData_schedule (v : BitVec 16) : (s.setHostData v).schedule = s.schedule := rfl
@[simp] theorem State.setHostData_events (v : BitVec 16) : (s.setHostData v).events = s.events := rfl
@[simp] theorem State.setHostData_hostData (v : BitVec 16) : (s.setHostData v).hostData = v := rfl

@[simp] theorem State.setCommand_params (c x : Byte) : (s.setCommand c x).params = s.params := rfl
@[simp] theorem State.setCommand_enc (c x : Byte) : (s.setCommand c x).enc = s.enc := rfl
@[simp] theorem State.setCommand_dec (c x : Byte) : (s.setCommand c x).dec = s.dec := rfl
@[simp] theorem State.setCommand_args (c x : Byte) : (s.setCommand c x).args = { s.args with cmd := c, ext := x } := rfl
@[simp] theorem State.setCommand_res (c x : Byte) : (s.setCommand c x).res = s.res := rfl
@[simp] theorem State.setCommand_rxLen (c x : Byte) : (s.setCommand c x).rxLen = s.rxLen := rfl
@[simp] theorem State.setCommand_rx (c x : Byte) : (s.setCommand c x).rx = s.rx := rfl
@[simp] theorem State.setCommand_ok (c x : Byte) : (s.setCommand c x).ok = s.ok := rfl
@[simp] theorem State.setCommand_fault (c x : Byte) : (s.setCommand c x).fault = s.fault := rfl
@[simp] theorem State.setCommand_fcode (c x : Byte) : (s.setCommand c x).fcode = s.fcode := rfl
@[simp] theorem State.setCommand_statsIn (c x : Byte) : (s.setCommand c x).statsIn = s.statsIn := rfl
@[simp] theorem State.setCommand_statsOut (c x : Byte) : (s.setCommand c x).statsOut = s.statsOut := rfl
@[simp] theorem State.setCommand_txActive (c x : Byte) : (s.setCommand c x).txActive = s.txActive := rfl
@[simp] theorem State.setCommand_txIndex (c x : Byte) : (s.setCommand c x).txIndex = s.txIndex := rfl
@[simp] theorem State.setCommand_schedule (c x : Byte) : (s.setCommand c x).schedule = s.schedule := rfl
@[simp] theorem State.setCommand_events (c x : Byte) : (s.setCommand c x).events = s.events := rfl
@[simp] theorem State.setCommand_hostData (c x : Byte) : (s.setCommand c x).hostData = s.hostData := rfl

@[simp] theorem State.failDecode_params (d : Decoder) : (s.failDecode d).params = s.params := rfl
@[simp] theorem State.failDecode_enc (d : Decoder) : (s.failDecode d).enc = s.enc := rfl
@[simp] theorem State.failDecode_dec (d : Decoder) : (s.failDecode d).dec = d := rfl
@[simp] theorem State.failDecode_args (d : Decoder) : (s.failDecode d).args = s.args := rfl
@[simp] theorem State.failDecode_res (d : Decoder) : (s.failDecode d).res = s.res.failResults := rfl
@[simp] theorem State.failDecode_rxLen (d : Decoder) : (s.failDecode d).rxLen = s.rxLen := rfl
@[simp] theorem State.failDecode_rx (d : Decoder) : (s.failDecode d).rx = s.rx := rfl
@[simp] theorem State.failDecode_ok (d : Decoder) : (s.failDecode d).ok = s.ok := rfl
@[simp] theorem State.failDecode_fault (d : Decoder) : (s.failDecode d).fault = s.fault := rfl
@[simp] theorem State.failDecode_fcode (d : Decoder) : (s.failDecode d).fcode = s.fcode := rfl
@[simp] theorem State.failDecode_statsIn (d : Decoder) : (s.failDecode d).statsIn = s.statsIn := rfl
@[simp] theorem State.failDecode_statsOut (d : Decoder) : (s.failDecode d).statsOut = s.statsOut := rfl
@[simp] theorem State.failDecode_txActive (d : Decoder) : (s.failDecode d).txActive = s.txActive := rfl
@[simp] theorem State.failDecode_txIndex (d : Decoder) : (s.failDecode d).txIndex = s.txIndex := rfl
@[simp] theorem State.failDecode_schedule (d : Decoder) : (s.failDecode d).schedule = s.schedule := rfl
@[simp] theorem State.failDecode_events (d : Decoder) : (s.failDecode d).events = s.events := rfl
@[simp] theorem State.failDecode_hostData (d : Decoder) : (s.failDecode d).hostData = s.hostData := rfl

@[simp] theorem State.resetRegisters_params : s.resetRegisters.params = s.params := rfl
@[simp] theorem State.resetRegisters_enc : s.resetRegisters.enc = { State.reset.enc with tx := s.enc.tx } := rfl
@[simp] theorem State.resetRegisters_dec : s.resetRegisters.dec = State.reset.dec := rfl
@[simp] theorem State.resetRegisters_args : s.resetRegisters.args = State.reset.args := rfl
@[simp] theorem State.resetRegisters_res : s.resetRegisters.res = State.reset.res := rfl
@[simp] theorem State.resetRegisters_rxLen : s.resetRegisters.rxLen = 0 := rfl
@[simp] theorem State.resetRegisters_rx : s.resetRegisters.rx = s.rx := rfl
@[simp] theorem State.resetRegisters_ok : s.resetRegisters.ok = false := rfl
@[simp] theorem State.resetRegisters_fault : s.resetRegisters.fault = false := rfl
@[simp] theorem State.resetRegisters_fcode : s.resetRegisters.fcode = .none := rfl
@[simp] theorem State.resetRegisters_statsIn : s.resetRegisters.statsIn = none := rfl
@[simp] theorem State.resetRegisters_statsOut : s.resetRegisters.statsOut = none := rfl
@[simp] theorem State.resetRegisters_txActive : s.resetRegisters.txActive = s.txActive := rfl
@[simp] theorem State.resetRegisters_txIndex : s.resetRegisters.txIndex = s.txIndex := rfl
@[simp] theorem State.resetRegisters_schedule : s.resetRegisters.schedule = s.schedule := rfl
@[simp] theorem State.resetRegisters_events : s.resetRegisters.events = s.events := rfl
@[simp] theorem State.resetRegisters_hostData : s.resetRegisters.hostData = s.hostData := rfl

@[simp] theorem State.powerOn_params (d : Option Byte) : (s.powerOn d).params = s.params := rfl
@[simp] theorem State.powerOn_enc (d : Option Byte) : (s.powerOn d).enc = { State.reset.enc with tx := s.enc.tx.powerOn } := rfl
@[simp] theorem State.powerOn_dec (d : Option Byte) : (s.powerOn d).dec = State.reset.dec := rfl
@[simp] theorem State.powerOn_args (d : Option Byte) : (s.powerOn d).args = State.reset.args := rfl
@[simp] theorem State.powerOn_res (d : Option Byte) : (s.powerOn d).res = State.reset.res := rfl
@[simp] theorem State.powerOn_rxLen (d : Option Byte) : (s.powerOn d).rxLen = 0 := rfl
@[simp] theorem State.powerOn_rx (d : Option Byte) : (s.powerOn d).rx = s.rx.powerOn := rfl
@[simp] theorem State.powerOn_ok (d : Option Byte) : (s.powerOn d).ok = false := rfl
@[simp] theorem State.powerOn_fault (d : Option Byte) : (s.powerOn d).fault = false := rfl
@[simp] theorem State.powerOn_fcode (d : Option Byte) : (s.powerOn d).fcode = .none := rfl
@[simp] theorem State.powerOn_statsIn (d : Option Byte) : (s.powerOn d).statsIn = none := rfl
@[simp] theorem State.powerOn_statsOut (d : Option Byte) : (s.powerOn d).statsOut = none := rfl
@[simp] theorem State.powerOn_txActive (d : Option Byte) : (s.powerOn d).txActive = d.isSome := rfl
@[simp] theorem State.powerOn_txIndex (d : Option Byte) : (s.powerOn d).txIndex = (d.getD 0).toNat := rfl
@[simp] theorem State.powerOn_schedule (d : Option Byte) : (s.powerOn d).schedule = s.schedule := rfl
@[simp] theorem State.powerOn_events (d : Option Byte) : (s.powerOn d).events = s.events := rfl
@[simp] theorem State.powerOn_hostData (d : Option Byte) : (s.powerOn d).hostData = s.hostData := rfl

variable (e : Encoder)

@[simp] theorem Encoder.setValid_tx (b : Bool) : (e.setValid b).tx = e.tx := rfl
@[simp] theorem Encoder.setValid_ptr (b : Bool) : (e.setValid b).ptr = e.ptr := rfl
@[simp] theorem Encoder.setValid_ready (b : Bool) : (e.setValid b).ready = e.ready := rfl
@[simp] theorem Encoder.setValid_txEnd (b : Bool) : (e.setValid b).txEnd = e.txEnd := rfl
@[simp] theorem Encoder.setValid_txValid (b : Bool) : (e.setValid b).txValid = b := rfl

@[simp] theorem Encoder.setCurrent_tx (v : Byte) : (e.setCurrent v).tx = e.tx.write e.ptr.toNat v := rfl
@[simp] theorem Encoder.setCurrent_ptr (v : Byte) : (e.setCurrent v).ptr = e.ptr := rfl
@[simp] theorem Encoder.setCurrent_ready (v : Byte) : (e.setCurrent v).ready = e.ready := rfl
@[simp] theorem Encoder.setCurrent_txEnd (v : Byte) : (e.setCurrent v).txEnd = e.txEnd := rfl
@[simp] theorem Encoder.setCurrent_txValid (v : Byte) : (e.setCurrent v).txValid = e.txValid := rfl

@[simp] theorem Encoder.terminate_tx : (e.terminate).tx = e.tx.write e.ptr.toNat sentinel := rfl
@[simp] theorem Encoder.terminate_ptr : (e.terminate).ptr = e.ptr := rfl
@[simp] theorem Encoder.terminate_ready : (e.terminate).ready = false := rfl
@[simp] theorem Encoder.terminate_txEnd : (e.terminate).txEnd = e.ptr := rfl
@[simp] theorem Encoder.terminate_txValid : (e.terminate).txValid = e.txValid := rfl

@[simp] theorem Encoder.start_tx (pos : Byte) : (e.start pos).tx = e.tx.write pos.toNat sentinel := rfl
@[simp] theorem Encoder.start_ptr (pos : Byte) : (e.start pos).ptr = pos := rfl
@[simp] theorem Encoder.start_ready (pos : Byte) : (e.start pos).ready = true := rfl
@[simp] theorem Encoder.start_txEnd (pos : Byte) : (e.start pos).txEnd = e.txEnd := rfl
@[simp] theorem Encoder.start_txValid (pos : Byte) : (e.start pos).txValid = false := rfl

end Sys2Proof.Machine
end

