-- ==== Sys2Proof/Laws/Builder.lean ====
section
/-! SUPPORT. What the frame builder's shared operations can do: the body of a bitstream and the trailer. -/

namespace Sys2Proof.Machine

/-! ### Lengths and weights (30_encoding.md R74, R77) -/

/-- An encoded byte is `18 + weight(v)` pairs long (R74). -/
theorem encodedByte_length : ∀ v : Byte, (linePairs (encodedByte v)).length = 18 + weight v := by decide +kernel

/-- `weight(v)` is even and at most 8 (R74). -/
theorem weight_bounds : ∀ v : Byte, weight v % 2 = 0 ∧ weight v ≤ 8 := by decide +kernel

theorem linePairs_bytes_length (vs : List Byte) :
    (linePairs (vs.flatMap encodedByte)).length = 18 * vs.length + (vs.map weight).sum := by
  induction vs with
  | nil => rfl
  | cons v vs ih =>
    rw [List.flatMap_cons, linePairs_append, List.length_append, ih, encodedByte_length]
    simp; omega

/-- The bits of a stream whose body holds the bytes `vs` (R76). -/
def bodyBits (vs : List Byte) : List Bool :=
  List.replicate 12 false ++ [true] ++ vs.flatMap encodedByte ++ [false, false, false]

theorem frameBits_eq (p : Params) (a : ArgRegs) : frameBits p a = bodyBits (frameBytes p a) := rfl

/-- Six preamble bytes are the pairs of twelve logical 0 bits (R75). -/
theorem preamble_pairs : (List.replicate 6 preambleByte).flatMap bytePairs = linePairs (List.replicate 12 false) := by
  decide

theorem bodyBits_length (vs : List Byte) :
    (linePairs (bodyBits vs)).length = 33 + 18 * vs.length + (vs.map weight).sum := by
  have h1 : (linePairs (List.replicate 12 false)).length = 24 := by decide
  have h2 : (linePairs [true]).length = 3 := by decide
  have h3 : (linePairs [false, false, false]).length = 6 := by decide
  simp only [bodyBits, linePairs_append, List.length_append, h1, h2, h3, linePairs_bytes_length]
  omega

/-- The whole stream in physical bits is `282 + 2 n1` (R77). -/
theorem frameBits_length (p : Params) (a : ArgRegs) : (linePairs (frameBits p a)).length = 141 + frameWeight p a := by
  rw [frameBits_eq, bodyBits_length]
  simp only [frameBytes, frameWeight, List.length_cons, List.length_nil]

theorem frameLen_eq (p : Params) (a : ArgRegs) : frameLen p a = (141 + frameWeight p a) / 4 := by
  unfold frameLen; omega

/-! ### `BuildBody` (41_frame_builder.md R151) -/

/-- Everything `BuildBody` can do with six bytes: lay the whole stream down from `base` and terminate it, or overflow. -/
theorem buildBody_cases {size : Nat} (vs : List Byte) (base : Byte) (e : Encoder) (hs : size ≤ 255)
    (hb : base.toNat < size) :
    (∃ e', buildBody size vs base e = .ok e'.terminate ∧ LaidDown size (e.start base) e' (linePairs (bodyBits vs)) ∧
      base.toNat + (linePairs (bodyBits vs)).length / 4 < size) ∨
    (∃ e', buildBody size vs base e = .overflow e' ∧ Overflowed size (e.start base) e' (linePairs (bodyBits vs)) ∧
      size ≤ base.toNat + (linePairs (bodyBits vs)).length / 4) := by
  have hcur : pairsFilled (e.start base).current = 0 := by simp [Encoder.current]
  have hbase : (e.start base).ptr.toNat = base.toNat := rfl
  have hlen := bodyBits_length vs
  have hbody : linePairs (bodyBits vs) = linePairs (List.replicate 12 false) ++
      (linePairs [true] ++ (linePairs (vs.flatMap encodedByte) ++ linePairs [false, false, false])) := by
    simp only [bodyBits, linePairs_append, List.append_assoc]
  have htail : ∀ e1 : Encoder,
      ((appendBit size true e1).andThen fun e2 => (appendBytes size vs e2).andThen fun e3 =>
        (appendBits size [false, false, false] e3).andThen fun e4 => .ok e4.terminate) =
      (appendPairs size (linePairs [true] ++ (linePairs (vs.flatMap encodedByte) ++ linePairs [false, false, false])) e1).andThen
        fun e4 => .ok e4.terminate := by
    intro e1
    rw [appendPairs_append, show linePairs [true] = lineSymbol true from rfl]
    simp only [appendBit]
    cases appendPairs size (lineSymbol true) e1 with
    | overflow e2 => rfl
    | ok e2 =>
      simp only [TxRun.andThen, appendBytes_eq, appendPairs_append]
      cases appendPairs size (linePairs (vs.flatMap encodedByte)) e2 with
      | overflow e3 => rfl
      | ok e3 => simp only [appendBits_eq]
  have h24 : (linePairs (List.replicate 12 false)).length = 24 := by decide
  rcases appendRaws_cases preambleByte 6 hs (show (e.start base).ptr.toNat < size from hb) hcur with
    ⟨e1, h1, l1, hlt⟩ | ⟨e1, h1, o1, hle⟩
  · rw [preamble_pairs] at l1
    have hf1 := l1.fill
    have hp1 := l1.ptr
    simp only [hcur, h24, hbase] at hf1 hp1
    rcases appendPairs_cases
        (linePairs [true] ++ (linePairs (vs.flatMap encodedByte) ++ linePairs [false, false, false])) hs l1.inside with
      ⟨e2, h2, l2, hlt2⟩ | ⟨e2, h2, o2, hle2⟩
    · left
      refine ⟨e2, ?_, by rw [hbody]; exact l1.trans l2, ?_⟩
      · simp only [buildBody, h1, TxRun.andThen] at htail ⊢
        rw [htail, h2]
      · rw [hbody, List.length_append, h24]
        simp only [Encoder.bytesFilledBy, hf1, hp1] at hlt2
        omega
    · right
      refine ⟨e2, ?_, by rw [hbody]; exact l1.overflowed o2, ?_⟩
      · simp only [buildBody, h1, TxRun.andThen] at htail ⊢
        rw [htail, h2]
      · rw [hbody, List.length_append, h24]
        simp only [Encoder.bytesFilledBy, hf1, hp1] at hle2
        omega
  · right
    rw [preamble_pairs] at o1
    refine ⟨e1, by simp [buildBody, h1, TxRun.andThen], by rw [hbody]; exact o1.append _, ?_⟩
    rw [hbody, List.length_append, h24]
    rw [hbase] at hle
    omega

/-! ### `AppendTrailer` (R154) -/

/-- The trailer bytes that `AppendTrailer` writes after a bitstream ending at `TX_END`. -/
structure TrailerWritten (size : Nat) (e e' : Encoder) (bytes : List Byte) : Prop where
  fits : e.txEnd.toNat + bytes.length < size
  noSentinel : sentinel ∉ bytes
  run : e' = e.writeTrailer bytes

/-- Everything `AppendTrailer` can do: leave the stream as it is, write a minimal or a full trailer, or raise a fault before
writing. -/
theorem appendTrailer_cases (p : Params) (minimal : Bool) (rec : Option StatsRecord) (e : Encoder)
    (he : e.txEnd.toNat < p.txSize) :
    (appendTrailer p minimal rec e = .done 0 e ∧ (rec = none ∨ minimal = false)) ∨
    (∃ bytes, rec ≠ none ∧ minimal = true ∧ bytes.length = 3 ∧ TrailerWritten p.txSize e (e.writeTrailer bytes) bytes ∧
      appendTrailer p minimal rec e = .done 1 (e.writeTrailer bytes)) ∨
    (∃ bytes, rec ≠ none ∧ minimal = false ∧ TrailerWritten p.txSize e (e.writeTrailer bytes) bytes ∧
      appendTrailer p minimal rec e = .done 2 (e.writeTrailer bytes)) ∨
    appendTrailer p minimal rec e = .raised .statsBad ∨
    (appendTrailer p minimal rec e = .raised .txOverflow ∧ p.txSize ≤ e.txEnd.toNat + 3) := by
  cases rec with
  | none => left; exact ⟨rfl, Or.inl rfl⟩
  | some r =>
    cases minimal with
    | true =>
      simp only [appendTrailer, appendMinTrailer, if_true]
      split
      · right; right; right; left; rfl
      · split
        · right; right; right; right; exact ⟨rfl, by assumption⟩
        · right; left
          refine ⟨_, by simp, trivial, ?_, ⟨?_, ?_, rfl⟩, rfl⟩
          · rfl
          · simp; omega
          · rename_i h _
            simpa using h
    | false =>
      simp only [appendTrailer, appendFullTrailer]
      cases hr : statsEncode p r (p.txSize - e.txEnd.toNat - 1) with
      | none => left; simp
      | some bytes =>
        simp only [Bool.false_eq_true, if_false]
        split
        · right; right; right; left; rfl
        · rename_i h
          right; right; left
          refine ⟨bytes, by simp, trivial, ⟨?_, ?_, rfl⟩, rfl⟩
          · simp only [Bool.or_eq_true, decide_eq_true_eq, not_or, Nat.not_lt] at h
            omega
          · simp only [Bool.or_eq_true, not_or] at h
            simpa using h.2

/-- The bytes a trailer leaves: its own from the old sentinel on, a new sentinel after them, the others as they were. -/
theorem writeTrailer_read (e : Encoder) (bytes : List Byte) (a : Nat) :
    (e.writeTrailer bytes).tx.read a =
      if a = e.txEnd.toNat + bytes.length then sentinel
      else if h : e.txEnd.toNat ≤ a ∧ a - e.txEnd.toNat < bytes.length then bytes[a - e.txEnd.toNat]
      else e.tx.read a := by
  simp only [Encoder.writeTrailer, Memory.read_write, Memory.read_writeList]

end Sys2Proof.Machine
end

