-- ==== Sys2Proof/Laws/Decoder.lean ====
section
/-! SUPPORT. What the decoder's internal functions can do, said once in terms of the pairs ahead of the cursor. -/

namespace Sys2Proof.Machine

/-! ### Failures are sticky (40_line_code.md R120) -/

theorem Decoder.fail_of_failed {d : Decoder} (h : d.failed = true) (r : FailReason) : d.fail r = d := by
  simp [Decoder.fail, h]

theorem Decoder.fail_of_ok {d : Decoder} (h : d.failed = false) (r : FailReason) :
    d.fail r = { d with failed := true, reason := r } := by
  simp [Decoder.fail, h]

@[simp] theorem Decoder.fail_failed (d : Decoder) (r : FailReason) : (d.fail r).failed = true := by
  unfold Decoder.fail; split <;> simp_all

theorem readPair_of_failed {d : Decoder} (rx : Memory) (h : d.failed = true) : readPair rx d = (0, d) := by
  simp [readPair, h]

theorem readBit_of_failed {d : Decoder} (rx : Memory) (h : d.failed = true) : readBit rx d = (false, d) := by
  simp [readBit, h]

theorem readByteP_of_failed {d : Decoder} (rx : Memory) (h : d.failed = true) : readByteP rx d = (0, d) := by
  simp [readByteP, h]

theorem readBits_dec_of_failed (rx : Memory) (n : Nat) {r : BitsRead} (h : r.dec.failed = true) :
    (readBits rx n r).dec = r.dec := by
  induction n generalizing r with
  | zero => rfl
  | succ n ih =>
    simp only [readBits, readBit_of_failed rx h]
    exact ih (r := ⟨_, _, r.dec⟩) h

/-! ### What every decode keeps -/

/-- A reason is recorded exactly when the state is failed. -/
abbrev Decoder.reasonMatches (d : Decoder) : Prop := d.failed = true ↔ d.reason ≠ .none

/-- `d'` may follow `d` in a decode: the declared end is the same, and a failure comes with its reason. -/
structure Follows (d d' : Decoder) : Prop where
  stop : d'.stop = d.stop
  reason : d.reasonMatches → d'.reasonMatches
  sticky : d.failed = true → d' = d

theorem Follows.refl (d : Decoder) : Follows d d := ⟨rfl, id, fun _ => rfl⟩

theorem Follows.trans {a b c : Decoder} (h1 : Follows a b) (h2 : Follows b c) : Follows a c :=
  ⟨h2.stop.trans h1.stop, fun h => h2.reason (h1.reason h), fun h => by
    have hb := h1.sticky h
    subst hb
    exact h2.sticky h⟩

theorem follows_fail (d : Decoder) {r : FailReason} (hr : r ≠ .none) : Follows d (d.fail r) := by
  refine ⟨?_, fun h => ?_, fun h => d.fail_of_failed h r⟩
  · unfold Decoder.fail; split <;> rfl
  · unfold Decoder.fail
    split
    · exact h
    · simp [Decoder.reasonMatches, hr]

theorem follows_failIf (d : Decoder) (w : Bool) {r : FailReason} (hr : r ≠ .none) : Follows d (d.failIf w r) := by
  unfold Decoder.failIf
  split
  · exact follows_fail d hr
  · exact Follows.refl d

theorem readPair_follows (rx : Memory) (d : Decoder) : Follows d (readPair rx d).2 := by
  unfold readPair
  split
  · exact Follows.refl d
  · split
    · exact follows_fail d (by decide)
    · exact ⟨rfl, fun h => h, fun h => absurd h (by assumption)⟩

theorem readBit_follows (rx : Memory) (d : Decoder) : Follows d (readBit rx d).2 := by
  have h1 := readPair_follows rx d
  have h2 := h1.trans (readPair_follows rx (readPair rx d).2)
  have h3 := h2.trans (readPair_follows rx (readPair rx (readPair rx d).2).2)
  unfold readBit
  split
  · exact Follows.refl d
  simp only
  split
  · exact h1
  split
  · exact h1.trans (follows_fail _ (by decide))
  split
  · exact h2
  split
  · exact h2
  split
  · exact h2.trans (follows_fail _ (by decide))
  split
  · exact h3
  split
  · exact h3.trans (follows_fail _ (by decide))
  · exact h3

theorem readBits_follows (rx : Memory) (n : Nat) (r : BitsRead) : Follows r.dec (readBits rx n r).dec := by
  induction n generalizing r with
  | zero => exact Follows.refl _
  | succ n ih =>
    rw [readBits]
    exact (readBit_follows rx r.dec).trans (ih ⟨_, _, (readBit rx r.dec).2⟩)

theorem readByteP_follows (rx : Memory) (d : Decoder) : Follows d (readByteP rx d).2 := by
  unfold readByteP
  split
  · exact Follows.refl d
  have h := (readBits_follows rx 8 ⟨0, false, d⟩).trans (readBit_follows rx _)
  simp only at h ⊢
  split
  · exact h
  split
  · exact h.trans (follows_fail _ (by decide))
  · exact h

/-! ### Reading the pairs ahead -/

theorem PairMask.index_lt (m : PairMask) : m.index < 4 := by cases m <;> decide

theorem maskedPair_eq (m : PairMask) : ∀ b : Byte, maskedPair b m = pairAt b m.index := by
  cases m <;> decide +kernel

theorem bytePairs_drop (b : Byte) (m : PairMask) :
    (bytePairs b).drop m.index = pairAt b m.index :: (bytePairs b).drop (m.index + 1) := by
  cases m <;> rfl

theorem Decoder.ahead_nil {d : Decoder} {rx : Memory} (h : d.stop ≤ d.ptr) : d.ahead rx = [] := by
  have hle : d.stop.toNat ≤ d.ptr.toNat := BitVec.le_def.mp h
  rw [Decoder.ahead, show d.stop.toNat - d.ptr.toNat = 0 by omega]
  simp [Memory.pairs, Memory.readList]

theorem Decoder.ahead_cons {d : Decoder} {rx : Memory} (h : ¬ d.stop ≤ d.ptr) :
    d.ahead rx = maskedPair (rx.read d.ptr.toNat) d.mask :: d.advance.ahead rx := by
  have hlt : d.ptr.toNat < d.stop.toNat := by
    have : ¬ d.stop.toNat ≤ d.ptr.toNat := fun hh => h (BitVec.le_def.mpr hh)
    omega
  have hsucc : (d.ptr + 1).toNat = d.ptr.toNat + 1 := by
    have := d.stop.isLt
    rw [BitVec.toNat_add]; simp; omega
  have hsplit : rx.pairs d.ptr.toNat (d.stop.toNat - d.ptr.toNat) =
      bytePairs (rx.read d.ptr.toNat) ++ rx.pairs (d.ptr.toNat + 1) (d.stop.toNat - (d.ptr.toNat + 1)) := by
    rw [show d.stop.toNat - d.ptr.toNat = 1 + (d.stop.toNat - (d.ptr.toNat + 1)) by omega, Memory.pairs_append]
    simp [Memory.pairs, Memory.readList]
  have hidx := d.mask.index_lt
  rw [Decoder.ahead, hsplit, List.drop_append_of_le_length (by simp [bytePairs]; omega), bytePairs_drop,
    maskedPair_eq, List.cons_append]
  congr 1
  by_cases hm : d.mask = .pair3
  · simp only [Decoder.ahead, Decoder.advance, hm, hsucc, if_true, PairMask.index, PairMask.next, List.drop_zero]
    simp [bytePairs]
  · have hnext : d.mask.next.index = d.mask.index + 1 := by
      revert hm; cases d.mask <;> simp [PairMask.next, PairMask.index]
    simp only [Decoder.ahead, Decoder.advance, hm, if_false, hnext]
    rw [hsplit, List.drop_append_of_le_length (by
      have : d.mask.index ≠ 3 := by revert hm; cases d.mask <;> simp [PairMask.index]
      simp [bytePairs]; omega)]

theorem Decoder.advance_pos {d : Decoder} (h : d.ptr.toNat < 255) : d.advance.pos = d.pos + 1 := by
  by_cases hm : d.mask = .pair3
  · simp [Decoder.pos, Decoder.advance, hm, PairMask.index, PairMask.next]; omega
  · have hnext : d.mask.next.index = d.mask.index + 1 := by
      revert hm; cases d.mask <;> simp [PairMask.next, PairMask.index]
    simp [Decoder.pos, Decoder.advance, hm, hnext]; omega

/-- The pairs `ps` read from `d` to `d'` with no failure. -/
structure Consumed (rx : Memory) (d d' : Decoder) (ps : List Pair) : Prop where
  ahead : d.ahead rx = ps ++ d'.ahead rx
  pos : d'.pos = d.pos + ps.length
  stop : d'.stop = d.stop
  ok : d'.failed = false
  reason : d'.reason = d.reason

theorem Consumed.nil {rx : Memory} {d : Decoder} (h : d.failed = false) : Consumed rx d d [] :=
  ⟨rfl, rfl, rfl, h, rfl⟩

theorem Consumed.trans {rx : Memory} {a b c : Decoder} {ps qs : List Pair} (h1 : Consumed rx a b ps)
    (h2 : Consumed rx b c qs) : Consumed rx a c (ps ++ qs) :=
  ⟨by rw [h1.ahead, h2.ahead, List.append_assoc], by rw [h2.pos, h1.pos, List.length_append]; omega,
    h2.stop.trans h1.stop, h2.ok, h2.reason.trans h1.reason⟩

/-- `ReadPair` with a pair ahead reads it. -/
theorem readPair_cons {rx : Memory} {d : Decoder} {q : Pair} {rest : List Pair} (hok : d.failed = false)
    (h : d.ahead rx = q :: rest) :
    readPair rx d = (q, d.advance) ∧ Consumed rx d d.advance [q] ∧ d.advance.ahead rx = rest := by
  have hlt : ¬ d.stop ≤ d.ptr := fun hh => by rw [Decoder.ahead_nil hh] at h; cases h
  have hc := Decoder.ahead_cons (rx := rx) hlt
  rw [h] at hc
  injection hc with h1 h2
  have hp : d.ptr.toNat < 255 := by
    have := d.stop.isLt
    have : ¬ d.stop.toNat ≤ d.ptr.toNat := fun hh => hlt (BitVec.le_def.mpr hh)
    omega
  refine ⟨by simp [readPair, hok, hlt, ← h1], ⟨by rw [h, h2]; rfl, ?_, rfl, hok, rfl⟩, h2.symm⟩
  rw [Decoder.advance_pos hp]; rfl

/-- `ReadPair` with no pair ahead fails `EXHAUSTED`. -/
theorem readPair_nil {rx : Memory} {d : Decoder} (hok : d.failed = false) (h : d.ahead rx = []) :
    readPair rx d = (0, d.fail .exhausted) := by
  have hle : d.stop ≤ d.ptr := by
    by_contra hh
    rw [Decoder.ahead_cons hh] at h
    cases h
  simp [readPair, hok, hle]

/-- `ReadBit` with a symbol ahead reads its bit (R122). -/
theorem readBit_symbol {rx : Memory} {d : Decoder} {rest : List Pair} (x : Bool) (hok : d.failed = false)
    (h : d.ahead rx = lineSymbol x ++ rest) :
    ∃ d', readBit rx d = (x, d') ∧ Consumed rx d d' (lineSymbol x) ∧ d'.ahead rx = rest := by
  cases x with
  | false =>
    obtain ⟨e1, c1, a1⟩ := readPair_cons hok (q := 0b11) (rest := 0b00 :: rest) h
    obtain ⟨e2, c2, a2⟩ := readPair_cons c1.ok a1
    exact ⟨_, by simp [readBit, hok, e1, c1.ok, e2, c2.ok], c1.trans c2, a2⟩
  | true =>
    obtain ⟨e1, c1, a1⟩ := readPair_cons hok (q := 0b11) (rest := 0b10 :: 0b00 :: rest) h
    obtain ⟨e2, c2, a2⟩ := readPair_cons c1.ok a1
    obtain ⟨e3, c3, a3⟩ := readPair_cons c2.ok a2
    exact ⟨_, by simp [readBit, hok, e1, c1.ok, e2, c2.ok, e3, c3.ok], (c1.trans c2).trans c3, a3⟩

/-- What the loop of `ReadByteP` gathers from the bits `xs`. -/
def gather (v : Byte) (xs : List Bool) : Byte :=
  xs.foldl (fun v x => (v <<< 1) ||| (BitVec.ofBool x).setWidth 8) v

theorem readBits_symbols {rx : Memory} {rest : List Pair} (xs : List Bool) {r : BitsRead} (hok : r.dec.failed = false)
    (h : r.dec.ahead rx = linePairs xs ++ rest) :
    ∃ d', readBits rx xs.length r = ⟨gather r.val xs, xs.foldl (· ^^ ·) r.par, d'⟩ ∧
      Consumed rx r.dec d' (linePairs xs) ∧ d'.ahead rx = rest := by
  induction xs generalizing r with
  | nil => exact ⟨r.dec, rfl, Consumed.nil hok, h⟩
  | cons x xs ih =>
    have hcons : linePairs (x :: xs) = lineSymbol x ++ linePairs xs := rfl
    rw [hcons, List.append_assoc] at h
    obtain ⟨d1, e1, c1, a1⟩ := readBit_symbol x hok h
    obtain ⟨d2, e2, c2, a2⟩ := ih (r := ⟨(r.val <<< 1) ||| (BitVec.ofBool x).setWidth 8, r.par ^^ x, d1⟩) c1.ok a1
    refine ⟨d2, ?_, by rw [hcons]; exact c1.trans c2, a2⟩
    simp only [List.length_cons, readBits, e1, e2]
    rfl

theorem gather_byteBits : ∀ v : Byte, gather 0 (byteBits v) = v := by decide +kernel

/-- The running parity of `ReadByteP` is `parity(v)` (R130). -/
theorem xor_byteBits : ∀ v : Byte, (byteBits v).foldl (· ^^ ·) false = parity v := by decide +kernel

/-- `ReadByteP` with an encoded byte ahead reads it (R123). -/
theorem readByteP_encoded {rx : Memory} {d : Decoder} {rest : List Pair} (v : Byte) (hok : d.failed = false)
    (h : d.ahead rx = linePairs (encodedByte v) ++ rest) :
    ∃ d', readByteP rx d = (v, d') ∧ Consumed rx d d' (linePairs (encodedByte v)) ∧ d'.ahead rx = rest := by
  have hsplit : linePairs (encodedByte v) = linePairs (byteBits v) ++ lineSymbol (parity v) := by
    simp [encodedByte, linePairs]
  rw [hsplit, List.append_assoc] at h
  obtain ⟨d1, e1, c1, a1⟩ := readBits_symbols (byteBits v) (r := ⟨0, false, d⟩) hok h
  obtain ⟨d2, e2, c2, a2⟩ := readBit_symbol (parity v) c1.ok a1
  refine ⟨d2, ?_, by rw [hsplit]; exact c1.trans c2, a2⟩
  have e1' : readBits rx 8 ⟨0, false, d⟩ = ⟨v, parity v, d1⟩ := by
    have := e1
    simp only [gather_byteBits, xor_byteBits] at this
    exact this
  rw [readByteP, if_neg (by simp [hok])]
  simp only [e1', e2, c2.ok]
  simp

end Sys2Proof.Machine
end

