-- ==== Sys2Proof/Laws/Faults.lean ====
section
/-! SUPPORT. What the checks before a request's body can do: the one inversion lemma for each. -/

namespace Sys2Proof.Machine

variable {s t : State} {r : Result} {c : FaultCode} {b : Bool} {a : Nat}

/-- Check 1 lets the request run or leaves the state as it is (60_exceptions.md R233). -/
theorem unlessFaulted_cases (h : unlessFaulted s r = .next t) :
    (s.fault = true ∧ t = s) ∨ (s.fault = false ∧ r = .next t) := by
  unfold unlessFaulted at h
  split at h
  · left; cases h; exact ⟨by assumption, rfl⟩
  · right; exact ⟨by simpa using ‹¬ s.fault = true›, h⟩

theorem unlessFaulted_run (h : s.fault = false) : unlessFaulted s r = r := by simp [unlessFaulted, h]

theorem unlessFaulted_ignore (h : s.fault = true) : unlessFaulted s r = .next s := by simp [unlessFaulted, h]

/-- A check raises its fault or lets the request go on (R234). -/
theorem raiseIf_cases (h : raiseIf b c s r = .next t) :
    (b = true ∧ t = s.raise c) ∨ (b = false ∧ r = .next t) := by
  unfold raiseIf at h
  split at h
  · left; cases h; exact ⟨by assumption, rfl⟩
  · right; exact ⟨by simpa using ‹¬ b = true›, h⟩

@[simp] theorem raiseIf_false : raiseIf false c s r = r := rfl

@[simp] theorem raiseIf_true : raiseIf true c s r = .next (s.raise c) := rfl

/-- A request goes on only at an index TXBUF has. -/
theorem withinTx_cases (h : withinTx a s r = .next t) : a < s.params.txSize ∧ r = .next t := by
  unfold withinTx at h
  split at h
  · cases h
  · exact ⟨by omega, h⟩

theorem withinTx_run (h : a < s.params.txSize) : withinTx a s r = r := by
  simp [withinTx, show ¬ s.params.txSize ≤ a by omega]

/-- A decode goes on only when `DEC_END` is within RXBUF. -/
theorem withinRx_cases (h : withinRx s r = .next t) : s.dec.stop.toNat ≤ s.params.rxSize ∧ r = .next t := by
  unfold withinRx at h
  split at h
  · cases h
  · exact ⟨by omega, h⟩

theorem withinRx_run (h : s.dec.stop.toNat ≤ s.params.rxSize) : withinRx s r = r := by
  simp [withinRx, show ¬ s.params.rxSize < s.dec.stop.toNat by omega]

/-- The end of an encoder request: the run's encoder and `OK`, or `TX_OVERFLOW` with what was written. -/
theorem finishTx_cases {run : TxRun} (h : s.finishTx run = .next t) :
    (∃ e, run = .ok e ∧ t = (s.setEnc e).setOk true) ∨
    (∃ e, run = .overflow e ∧ t = (s.setEnc e).raise .txOverflow) := by
  cases run with
  | ok e => left; cases h; exact ⟨e, rfl, rfl⟩
  | overflow e => right; cases h; exact ⟨e, rfl, rfl⟩

/-- Everything an encoder request that appends can do, check by check (R103, R104, R234). -/
theorem encodeWith_cases {append : Nat → Encoder → TxRun} (h : s.encodeWith append = .next t) :
    (s.fault = true ∧ t = s) ∨
    (s.fault = false ∧ s.enc.ready = false ∧ t = s.raise .notReady) ∨
    (s.fault = false ∧ s.enc.ready = true ∧ s.txActive = true ∧ t = s.raise .txBusy) ∨
    (s.fault = false ∧ s.enc.ready = true ∧ s.txActive = false ∧ s.enc.ptr.toNat < s.params.txSize ∧
      ((∃ e, append s.params.txSize (s.enc.setValid false) = .ok e ∧ t = (s.setEnc e).setOk true) ∨
       (∃ e, append s.params.txSize (s.enc.setValid false) = .overflow e ∧ t = (s.setEnc e).raise .txOverflow))) := by
  rcases unlessFaulted_cases h with ⟨hf, ht⟩ | ⟨hf, h⟩
  · exact Or.inl ⟨hf, ht⟩
  rcases raiseIf_cases h with ⟨hr, ht⟩ | ⟨hr, h⟩
  · exact Or.inr (Or.inl ⟨hf, by simpa using hr, ht⟩)
  rcases raiseIf_cases h with ⟨hb, ht⟩ | ⟨hb, h⟩
  · exact Or.inr (Or.inr (Or.inl ⟨hf, by simpa using hr, hb, ht⟩))
  obtain ⟨hp, h⟩ := withinTx_cases h
  exact Or.inr (Or.inr (Or.inr ⟨hf, by simpa using hr, hb, hp, finishTx_cases h⟩))

end Sys2Proof.Machine
end

