-- ==== Sys2Proof/Laws/Parser.lean ====
section
/-! SUPPORT. What the frame parser's shared operations can do. -/

namespace Sys2Proof.Machine

theorem freshDec_reasonMatches (n i : Byte) : (freshDec n i).reasonMatches := by
  simp [Decoder.reasonMatches, freshDec]

/-- What a frame decode leaves whatever it met: its declared end, a reason exactly when it failed, a frame exactly when it did
not (42_frame_parser.md R174, R176). -/
structure FrameRun.Sound (n : Byte) (r : FrameRun) : Prop where
  stop : r.dec.stop = n
  reason : r.dec.reasonMatches
  frame : r.frame.isSome = !r.dec.failed

/-- A failed run of the payload. -/
theorem failed_sound {d d' : Decoder} (g : List Byte) (h : Follows d d') (hd : d.reasonMatches) (hf : d'.failed = true) :
    FrameRun.Sound d.stop { dec := d', frame := none, garbage := g } :=
  ⟨h.stop, h.reason hd, by simp [hf]⟩

theorem trailBit_follows (rx : Memory) (d : Decoder) :
    Follows d ((readBit rx d).2.failIf (readBit rx d).1 .trailBit) :=
  (readBit_follows rx d).trans (follows_failIf _ _ (by decide))

theorem decodePayload_sound (rx : Memory) (d : Decoder) (hd : d.reasonMatches) :
    FrameRun.Sound d.stop (decodePayload rx d) := by
  have f0 := (readBit_follows rx d).trans (follows_failIf _ (!(readBit rx d).1) (r := .leadBit) (by decide))
  unfold decodePayload
  simp only
  split
  · exact failed_sound [] f0 hd (by assumption)
  · have f1 := f0.trans (readByteP_follows rx _)
    have f2 := f1.trans (readByteP_follows rx _)
    have f3 := f2.trans (readByteP_follows rx _)
    have f4 := f3.trans (readByteP_follows rx _)
    have f5 := f4.trans (readByteP_follows rx _)
    have f6 := f5.trans (readByteP_follows rx _)
    split
    · exact failed_sound [] f6 hd (by assumption)
    · split
      · exact failed_sound [] (f6.trans (follows_fail _ (by decide))) hd (Decoder.fail_failed _ _)
      · have f7 := f6.trans (trailBit_follows rx _)
        split
        · exact failed_sound [] f7 hd (by assumption)
        · rename_i hok
          exact ⟨f7.stop, f7.reason hd, by simpa using hok⟩

theorem decodeFrame_sound (rx : Memory) (n : Byte) : FrameRun.Sound n (decodeFrame rx n) := by
  unfold decodeFrame
  split
  · exact failed_sound (d := freshDec n _) _ (follows_fail _ (by decide)) (freshDec_reasonMatches n _)
      (Decoder.fail_failed _ _)
  · exact failed_sound (d := freshDec n _) _ (follows_fail _ (by decide)) (freshDec_reasonMatches n _)
      (Decoder.fail_failed _ _)
  · exact decodePayload_sound rx _ (freshDec_reasonMatches n _)

@[simp] theorem Decoder.failIf_false (d : Decoder) (r : FailReason) : d.failIf false r = d := rfl

theorem linePairs_snoc (xs : List Bool) (x : Bool) : linePairs (xs ++ [x]) = linePairs xs ++ lineSymbol x := by
  simp [linePairs]

/-- The scan stops where the payload starts: at the first byte from 2 on that is no preamble, or at 6 (R171). -/
theorem scanPreamble_payload {s : State} {i : Nat} (h : s.payloadAt i) (hn : i < 6 → i < s.rxLen.toNat)
    (hle : i ≤ s.rxLen.toNat) : scanPreamble s.rx s.rxLen = .start i := by
  obtain ⟨h2, h6, hpre, hstop⟩ := h
  have here : ∀ left, left + i = 6 → scanFrom s.rx s.rxLen left i = .start i := by
    intro left hl
    cases left with
    | zero => rfl
    | succ left =>
      have hne : ¬ s.rx.read i = preambleByte := hstop (by omega)
      rw [scanFrom, if_neg (by have := hn (by omega); omega), if_neg hne, if_neg (by omega)]
  have climb : ∀ n k left, n + k = i → left + k = 6 → scanFrom s.rx s.rxLen left k = .start i := by
    intro n
    induction n with
    | zero => intro k left hk hl; rw [show k = i by omega]; exact here left (by omega)
    | succ n ih =>
      intro k left hk hl
      obtain ⟨left, rfl⟩ : ∃ m, left = m + 1 := ⟨left - 1, by omega⟩
      have heq : s.rx.read k = preambleByte := hpre k (by omega)
      rw [scanFrom, if_neg (by omega), if_pos heq]
      exact ih (k + 1) left (by omega) (by omega)
  exact climb i 0 6 (by omega) (by omega)

/-- A payload that does not begin with a lead 1 fails `LEAD_BIT` with that symbol read (R174). -/
theorem decodePayload_leadZero {rx : Memory} {d : Decoder} {rest : List Pair} (hok : d.failed = false)
    (h : d.ahead rx = lineSymbol false ++ rest) :
    ∃ d', decodePayload rx d = { dec := d'.fail .leadBit, frame := none, garbage := [] } ∧
      Consumed rx d d' (lineSymbol false) ∧ d'.ahead rx = rest := by
  obtain ⟨d0, e0, c0, a0⟩ := readBit_symbol false hok h
  exact ⟨d0, by simp [decodePayload, Decoder.failIf, e0], c0, a0⟩

/-- A payload with a lead 1 and six encoded bytes is decided by its checksum and then by its trailing bit (R174). -/
theorem decodePayload_fields {rx : Memory} {d : Decoder} {rest : List Pair} (hc1 hc2 a cmd ext cs : Byte)
    (hok : d.failed = false)
    (h : d.ahead rx = linePairs ([true] ++ [hc1, hc2, a, cmd, ext, cs].flatMap encodedByte) ++ rest) :
    ∃ d', Consumed rx d d' (linePairs ([true] ++ [hc1, hc2, a, cmd, ext, cs].flatMap encodedByte)) ∧
      d'.ahead rx = rest ∧
      decodePayload rx d =
        if cs ≠ checksum hc1 hc2 a cmd ext then { dec := d'.fail .checksum, frame := none, garbage := [] }
        else
          let d1 := (readBit rx d').2.failIf (readBit rx d').1 .trailBit
          if d1.failed then { dec := d1, frame := none, garbage := [] }
          else
            { dec := d1
              frame := some { hc1 := hc1, hc2 := hc2, addr := a, cmd := cmd, ext := ext, csum := cs,
                              next := nextIndex d1 }
              garbage := [] } := by
  have hsplit : linePairs ([true] ++ [hc1, hc2, a, cmd, ext, cs].flatMap encodedByte) =
      lineSymbol true ++ (linePairs (encodedByte hc1) ++ (linePairs (encodedByte hc2) ++ (linePairs (encodedByte a) ++
      (linePairs (encodedByte cmd) ++ (linePairs (encodedByte ext) ++ linePairs (encodedByte cs)))))) := by
    simp [linePairs]
  rw [hsplit] at h ⊢
  simp only [List.append_assoc] at h
  obtain ⟨d0, e0, c0, a0⟩ := readBit_symbol true hok h
  obtain ⟨d1, e1, c1, a1⟩ := readByteP_encoded hc1 c0.ok a0
  obtain ⟨d2, e2, c2, a2⟩ := readByteP_encoded hc2 c1.ok a1
  obtain ⟨d3, e3, c3, a3⟩ := readByteP_encoded a c2.ok a2
  obtain ⟨d4, e4, c4, a4⟩ := readByteP_encoded cmd c3.ok a3
  obtain ⟨d5, e5, c5, a5⟩ := readByteP_encoded ext c4.ok a4
  obtain ⟨d6, e6, c6, a6⟩ := readByteP_encoded cs c5.ok a5
  refine ⟨d6, c0.trans (c1.trans (c2.trans (c3.trans (c4.trans (c5.trans c6))))), a6, ?_⟩
  by_cases hcs : cs = checksum hc1 hc2 a cmd ext <;>
    simp [decodePayload, e0, Decoder.failIf_false, c0.ok, e1, e2, e3, e4, e5, e6, c6.ok, hcs]

/-- A payload that carries a lead 1, six bytes with a right checksum and a trailing 0 decodes to those bytes (R174). -/
theorem decodePayload_frame {rx : Memory} {d : Decoder} {rest : List Pair} (hc1 hc2 a cmd ext : Byte)
    (hok : d.failed = false)
    (h : d.ahead rx = linePairs ([true] ++
      [hc1, hc2, a, cmd, ext, checksum hc1 hc2 a cmd ext].flatMap encodedByte ++ [false]) ++ rest) :
    ∃ d', decodePayload rx d =
        { dec := d'
          frame := some { hc1 := hc1, hc2 := hc2, addr := a, cmd := cmd, ext := ext, csum := checksum hc1 hc2 a cmd ext,
                          next := nextIndex d' }
          garbage := [] } ∧
      Consumed rx d d' (linePairs ([true] ++
        [hc1, hc2, a, cmd, ext, checksum hc1 hc2 a cmd ext].flatMap encodedByte ++ [false])) := by
  rw [linePairs_snoc, List.append_assoc] at h
  obtain ⟨d6, c6, a6, e6⟩ := decodePayload_fields hc1 hc2 a cmd ext _ hok h
  obtain ⟨d7, e7, c7, -⟩ := readBit_symbol false c6.ok a6
  exact ⟨d7, by simp [e6, e7, Decoder.failIf, c7.ok], by rw [linePairs_snoc]; exact c6.trans c7⟩

/-- A payload whose trailing bit is 1 fails `TRAIL_BIT` with that symbol read (R174). -/
theorem decodePayload_trailOne {rx : Memory} {d : Decoder} {rest : List Pair} (hc1 hc2 a cmd ext : Byte)
    (hok : d.failed = false)
    (h : d.ahead rx = linePairs ([true] ++
      [hc1, hc2, a, cmd, ext, checksum hc1 hc2 a cmd ext].flatMap encodedByte ++ [true]) ++ rest) :
    ∃ d', decodePayload rx d = { dec := d'.fail .trailBit, frame := none, garbage := [] } ∧
      Consumed rx d d' (linePairs ([true] ++
        [hc1, hc2, a, cmd, ext, checksum hc1 hc2 a cmd ext].flatMap encodedByte ++ [true])) ∧ d'.ahead rx = rest := by
  rw [linePairs_snoc, List.append_assoc] at h
  obtain ⟨d6, c6, a6, e6⟩ := decodePayload_fields hc1 hc2 a cmd ext _ hok h
  obtain ⟨d7, e7, c7, a7⟩ := readBit_symbol true c6.ok a6
  exact ⟨d7, by simp [e6, e7, Decoder.failIf], by rw [linePairs_snoc]; exact c6.trans c7, a7⟩

/-- `next` is the number of bytes that the pairs before the cursor touch (R173). -/
theorem nextIndex_pos {d : Decoder} (h : d.ptr.toNat < 255) : (nextIndex d).toNat = (d.pos + 3) / 4 := by
  unfold nextIndex Decoder.pos
  have hsucc : (d.ptr + 1).toNat = d.ptr.toNat + 1 := by rw [BitVec.toNat_add]; simp; omega
  have hidx := d.mask.index_lt
  split
  · rename_i hm; simp [hm, PairMask.index]; omega
  · rename_i hm
    have : d.mask.index ≠ 0 := by revert hm; cases d.mask <;> simp [PairMask.index]
    rw [hsucc]; omega

/-- What `DecodeFrame` writes into the state: the decode state it left, and the result registers of R174 or R176. -/
theorem applyFrame_cases (s : State) (r : FrameRun) :
    (∃ f, r.frame = some f ∧ s.applyFrame r = { s.setDec r.dec with res := s.res.ofFrame f }) ∨
    (r.frame = none ∧
      s.applyFrame r = (s.failDecode r.dec).emit (r.garbage.map fun b => .entropy b s.params.entropyBits)) := by
  unfold State.applyFrame
  cases hf : r.frame with
  | none => right; exact ⟨rfl, rfl⟩
  | some f => left; exact ⟨f, rfl, rfl⟩

end Sys2Proof.Machine
end

