-- ==== Sys2Proof/Laws/PerInstr.lean ====
section
/-! SUPPORT. The per-instruction family: the encoder writes only words that 30_encoding.md R83 calls legal, and codewords of the
opcode table. -/

namespace Sys2Proof.Laws.EncodedLegal

/-- The word of `i` is legal. -/
def Statement (i : Instr) : Prop := (encode i).legal = true

theorem reset : Statement .reset := by unfold Statement; decide

theorem encInit : ∀ x : Byte, Statement (.encInit x) := by unfold Statement; decide +kernel

theorem encRaw : ∀ x : Byte, Statement (.encRaw x) := by unfold Statement; decide +kernel

theorem encBit : ∀ x : Bool, Statement (.encBit x) := by unfold Statement; decide +kernel

theorem encByte : ∀ x : Byte, Statement (.encByte x) := by unfold Statement; decide +kernel

theorem encTerm : Statement .encTerm := by unfold Statement; decide

theorem decInit : ∀ x : Byte, Statement (.decInit x) := by unfold Statement; decide +kernel

theorem decPair : Statement .decPair := by unfold Statement; decide

theorem decBit : Statement .decBit := by unfold Statement; decide

theorem decByte : Statement .decByte := by unfold Statement; decide

theorem checksum : Statement .checksum := by unfold Statement; decide

theorem buildBitstream : ∀ x : Byte, Statement (.buildBitstream x) := by unfold Statement; decide +kernel

theorem buildValveSet : Statement .buildValveSet := by unfold Statement; decide

theorem decodeBitstream : Statement .decodeBitstream := by unfold Statement; decide

theorem parseFrame : Statement .parseFrame := by unfold Statement; decide

theorem line0 : Statement .line0 := by unfold Statement; decide

theorem line1 : Statement .line1 := by unfold Statement; decide

theorem cmdSetZero : Statement .cmdSetZero := by unfold Statement; decide

theorem cmdSetPercent : Statement .cmdSetPercent := by unfold Statement; decide

theorem cmdSyncTick : Statement .cmdSyncTick := by unfold Statement; decide

end Sys2Proof.Laws.EncodedLegal
end

