-- ==== Sys2Proof/Tests/Slice0.lean ====
section
/-! SUPPORT. Checks on fixed values, their results taken from spec/95_test_vectors.md or worked out by hand from the rules named,
and for every statement with hypotheses a state and operands that meet them. -/

set_option Elab.async false

namespace Sys2Proof.Tests

open Sys2Proof Sys2Proof.Machine

/-! ### Small states -/

/-- Bytes as buffer cells from index `a` on. -/
def listed (a : Nat) : List Byte → List Host.Cell
  | [] => []
  | v :: vs => (a, v) :: listed (a + 1) vs

/-- The reset state with bytes in TX from index `a` on and an open stream whose cursor is `ptr`. -/
def opened (a : Nat) (bytes : List Byte) (ptr : Byte) : State :=
  { State.reset with enc := { State.reset.enc with tx := { draw := 0, cells := listed a bytes }, ptr := ptr, ready := true } }

/-- The reset state with a complete stream in TX from index 0 on, its sentinel at `stop`. -/
def streamed (bytes : List Byte) (stop : Byte) : State :=
  { State.reset with enc := { tx := { draw := 0, cells := listed 0 bytes }, ptr := stop, ready := false, txEnd := stop,
                              txValid := true } }

/-- The reset state with bytes in RX and a decode state at `ptr` and `mask`. -/
def received (bytes : List Byte) (ptr : Byte) (mask : PairMask) : State :=
  { State.reset with
    rx := { draw := 1, cells := listed 0 bytes }
    rxLen := BitVec.ofNat 8 bytes.length
    dec := { freshDec (BitVec.ofNat 8 bytes.length) ptr with mask := mask } }

/-- The reset state with a house code, a command and an extension. -/
def addressed (hc1 hc2 cmd ext : Byte) : State :=
  { State.reset with args := { State.reset.args with hc1 := hc1, hc2 := hc2, cmd := cmd, ext := ext } }

/-- The arguments of a valve-set build. -/
def valved (hc1 hc2 pct thresh flags : Byte) : State :=
  { State.reset with args := { State.reset.args with hc1 := hc1, hc2 := hc2, pct := pct, thresh := thresh, flags := flags } }

/-- The state with one entry scheduled. -/
def scheduled (s : State) (h : HostStep) : State := { s with schedule := [h] }

/-- The state in the fault state with the code of vector X11. -/
def faulted : State := { State.reset with fault := true, fcode := .notReady }

/-- What `f` sees of a next state, nothing of a stop. -/
def after {α : Type} (r : Result) (f : State → α) : Option α :=
  match r with
  | .next t => some (f t)
  | .fault _ => none
  | .refused _ => none

/-- The next state, or reset. -/
def landed (r : Result) : State := (after r id).getD State.reset

/-- Whether there is a next state. -/
def isNext (r : Result) : Bool := (after r id).isSome

theorem eq_next_of_isNext {r : Result} (h : isNext r = true) : r = .next (landed r) := by
  cases r <;> first | rfl | cases h

/-- Registers by number. -/
def regs (ns : List Byte) (s : State) : List Byte := ns.map s.readReg

/-- The first `n` bytes of TX. -/
def txBytes (n : Nat) (s : State) : List Byte := s.enc.tx.readList 0 n

/-- Frame F0 (95_test_vectors.md section 2.3). -/
def frameF0 : List Byte :=
  [0xCC, 0xCC, 0xCC, 0xCC, 0xCC, 0xCC, 0xE3, 0x33, 0x33, 0x33, 0x33, 0x33, 0x33, 0x33, 0x33, 0x33, 0x33, 0x33, 0x33, 0x33,
   0x33, 0x33, 0x33, 0x33, 0x33, 0x33, 0x33, 0x33, 0x33, 0x33, 0x33, 0x38, 0xE3, 0x33, 0x33]

/-- Frame F1, 50 per cent for house code 0D 49. -/
def frameF1 : List Byte :=
  [0xCC, 0xCC, 0xCC, 0xCC, 0xCC, 0xCC, 0xE3, 0x33, 0x33, 0x8E, 0x33, 0x8E, 0x33, 0x8C, 0xCE, 0x33, 0x38, 0xE3, 0x33, 0x33,
   0x33, 0x33, 0x33, 0x38, 0xCC, 0xE3, 0x8C, 0xE3, 0x8C, 0xCC, 0xCC, 0xCC, 0xE3, 0x33, 0x33, 0x8C, 0xCC, 0xE3, 0x33]

/-- Frame F2, a sync tick. -/
def frameF2 : List Byte :=
  [0xCC, 0xCC, 0xCC, 0xCC, 0xCC, 0xCC, 0xE3, 0x33, 0x33, 0x8E, 0x33, 0x8E, 0x33, 0x33, 0x33, 0x8C, 0xE3, 0x33, 0x33, 0x33,
   0x33, 0x33, 0x33, 0x8C, 0xE3, 0x8C, 0xCE, 0x38, 0xE3, 0x8E, 0x33, 0x33, 0x8E, 0x33, 0x38, 0xE3, 0x8C, 0xE3, 0x8E, 0x33]

/-- Frame F3, the final sync command. -/
def frameF3 : List Byte :=
  [0xCC, 0xCC, 0xCC, 0xCC, 0xCC, 0xCC, 0xE3, 0x33, 0x33, 0x8E, 0x33, 0x8E, 0x33, 0x33, 0x33, 0x8C, 0xE3, 0x33, 0x33, 0x33,
   0x33, 0x33, 0x33, 0x8C, 0xCC, 0xCC, 0xE3, 0x33, 0x33, 0x33, 0x33, 0x33, 0x38, 0xE3, 0x8E, 0x38, 0xCE, 0x33]

/-! ### WellFormed: an ill-formed term for each check -/

theorem test_wf_reserved_op : legalRequest 0xF000 = false := by decide
theorem test_wf_reserved_bits : legalRequest 0x0200 = false := by decide
theorem test_wf_unused_b : legalRequest 0x4100 = false := by decide
theorem test_wf_unused_imm : legalRequest 0x3001 = false := by decide
theorem test_wf_codeword : knownCodeword 0x21 = false := by decide
theorem test_wf_encoded : (Encoded.request 0x0001).legal = false ∧ (Encoded.codeword 0x00).legal = false := by decide
theorem test_wf_tx_size : { Params.vectors with txSize := 45 }.txSizeOk = false ∧
    { Params.vectors with txSize := 256 }.txSizeOk = false ∧
    { Params.vectors with hdrEn := true, hdrLen := 19 }.txSizeOk = false := by decide
theorem test_wf_rx_size : { Params.vectors with rxSize := 0 }.rxSizeOk = false ∧
    { Params.vectors with rxSize := 256 }.rxSizeOk = false := by decide
theorem test_wf_header : { Params.vectors with hdrByte := 0xFF }.headerOk = false ∧
    { Params.vectors with hdrLen := 0 }.headerOk = false ∧ { Params.vectors with hdrLen := 210 }.headerOk = false := by decide
theorem test_wf_params : { Params.vectors with rxSize := 0 }.wf = false ∧ Params.vectors.wf = true := by decide

/-! ### Decode: every constructor, its word written out from 30_encoding.md R81, R70, R71 and 43_valve_commands.md -/

theorem test_decode_encoder :
    decodeTableWord 16 0b0001000000000111 = some (.encInit 0x07) ∧ decodeTableWord 16 0b0010000011001100 = some (.encRaw 0xCC) ∧
    decodeTableWord 16 0b0011000000000000 = some (.encBit false) ∧ decodeTableWord 16 0b0011000100000000 = some (.encBit true) ∧
    decodeTableWord 16 0b0100000000100110 = some (.encByte 0x26) ∧ decodeTableWord 16 0b0101000000000000 = some .encTerm := by
  decide

theorem test_decode_decoder :
    decodeTableWord 16 0b0110000010000001 = some (.decInit 0x81) ∧ decodeTableWord 16 0b0111000000000000 = some .decPair ∧
    decodeTableWord 16 0b1000000000000000 = some .decBit ∧ decodeTableWord 16 0b1001000000000000 = some .decByte := by decide

theorem test_decode_frames :
    decodeTableWord 16 0b0000000000000000 = some .reset ∧ decodeTableWord 16 0b1010000000000000 = some .checksum ∧
    decodeTableWord 16 0b1011000000011100 = some (.buildBitstream 0x1C) ∧
    decodeTableWord 16 0b1100000000000000 = some .buildValveSet ∧
    decodeTableWord 16 0b1101000000000000 = some .decodeBitstream ∧
    decodeTableWord 16 0b1110000000000000 = some .parseFrame := by decide

theorem test_decode_codewords :
    decodeTableWord 8 0b1100 = some .line0 ∧ decodeTableWord 8 0b111000 = some .line1 ∧
    decodeTableWord 8 0b00100000 = some .cmdSetZero ∧ decodeTableWord 8 0b00100110 = some .cmdSetPercent ∧
    decodeTableWord 8 0b00101100 = some .cmdSyncTick := by decide

/-- Vectors X1 to X4. -/
theorem test_decode_illegal :
    ([0xF000, 0x3001, 0x0001, 0x0200, 0x4100] : List ReqWord).map (fun w => decode (.request w)) =
      [none, none, none, none, none] ∧ decode (.codeword 0x30) = none := by decide

/-- The first step after reset runs each row's instruction. -/
theorem test_first_step_runs_every_row :
    ([(16, 0x0000), (16, 0x1000), (16, 0x20CC), (16, 0x3100), (16, 0x4026), (16, 0x5000), (16, 0x6000), (16, 0x7000),
      (16, 0x8000), (16, 0x9000), (16, 0xA000), (16, 0xB000), (16, 0xC000), (16, 0xD000), (16, 0xE000), (4, 0xC), (6, 0x38),
      (8, 0x20), (8, 0x26), (8, 0x2C)] : List (Nat × Nat)).all
      (fun r => isNext (step (State.reset.withFetchWord r.1 r.2))) = true := by decide +kernel

/-! ### One step of each instruction -/

/-- X12: `RESET` in the fault state. -/
theorem test_reset : after (exec .reset { faulted with rxLen := 7 }) (regs [1, 2, 3, 7, 9]) = some [0x10, 0, 0, 0xC0, 0] := by
  decide

/-- P1, first step. -/
theorem test_enc_init : after (exec (.encInit 0) State.reset) (fun t => (txBytes 1 t, regs [1, 4] t)) =
    some ([0xFF], [0x31, 0]) := by decide

/-- E5: the index equals the size of TX. -/
theorem test_enc_init_outside : after (exec (.encInit 0x40) State.reset) (regs [1, 3]) = some [0x14, 3] := by decide

/-- R102: a byte at a boundary, the next one re-initialised. -/
theorem test_enc_raw : after (exec (.encRaw 0xCC) (opened 0 [0xFF] 0)) (fun t => (txBytes 2 t, regs [1, 4] t)) =
    some ([0xCC, 0xFF], [0x31, 1]) := by decide

/-- E5: `ENC_RAW` on a byte with pairs filled. -/
theorem test_enc_raw_not_empty : after (exec (.encRaw 0xCC) (opened 0 [0xE0] 0)) (fun t => (txBytes 1 t, regs [1, 3, 4] t)) =
    some ([0xE0], [0x34, 5, 0]) := by decide +kernel

/-- P1: `E3 30` and a 0. -/
theorem test_enc_bit : after (exec (.encBit false) (opened 0 [0xE3, 0x30] 1)) (fun t => (txBytes 3 t, regs [1, 4] t)) =
    some ([0xE3, 0x33, 0x3E], [0x31, 2]) := by decide +kernel

/-- E5: the completed byte is written before the advance fails. -/
theorem test_enc_bit_overflow : after (exec (.encBit false) (opened 63 [0xCD] 63)) (fun t => (t.txByte 63, regs [1, 3, 4] t)) =
    some (0xCC, [0x34, 2, 63]) := by decide +kernel

/-- E3: `ENC_BYTE 0x26`. -/
theorem test_enc_byte : after (exec (.encByte 0x26) (opened 0 [0xFF] 0)) (fun t => (txBytes 6 t, regs [1, 4] t)) =
    some ([0xCC, 0xE3, 0x33, 0x8E, 0x33, 0x8D], [0x31, 5]) := by decide +kernel

/-- E3: `ENC_BYTE 0xFF`, parity 0. -/
theorem test_enc_byte_ff : after (exec (.encByte 0xFF) (opened 0 [0xFF] 0)) (fun t => (txBytes 7 t, regs [4] t)) =
    some ([0xE3, 0x8E, 0x38, 0xE3, 0x8E, 0x38, 0xCD], [6]) := by decide +kernel

/-- P1, last step: the partial byte goes. -/
theorem test_enc_term : after (exec .encTerm (opened 0 [0xE3, 0x33, 0x3E] 2)) (fun t => (txBytes 3 t, regs [1, 4, 5] t)) =
    some ([0xE3, 0x33, 0xFF], [0x19, 2, 2]) := by decide +kernel

/-- R125: any start index, also one at the end. -/
theorem test_dec_init : after (exec (.decInit 2) (received [0xE3, 0x33] 0 .pair3)) (regs [1, 6, 7, 8]) =
    some [0x11, 2, 0xC0, 2] := by decide

/-- DP1: the fourth pair of E3. -/
theorem test_dec_pair : after (exec .decPair (received [0xE3, 0x8E] 0 .pair3)) (regs [1, 0x19, 6, 7]) =
    some [0x11, 3, 1, 0xC0] := by decide +kernel

/-- DP4: straight after reset. -/
theorem test_dec_pair_exhausted : after (exec .decPair State.reset) (regs [1, 2, 0x19]) = some [0x12, 1, 0] := by decide

/-- DP2: the second `DEC_BIT` crosses a byte. -/
theorem test_dec_bit : after (exec .decBit (received [0xE3, 0x8E, 0x33, 0x38] 0 .pair3)) (regs [1, 0x19, 6, 7]) =
    some [0x11, 1, 1, 0x0C] := by decide +kernel

/-- R182's flip of bit 51: a second pair `11`. -/
theorem test_dec_bit_bad_pair : after (exec .decBit (received [0xF3, 0x33] 0 .pair0)) (regs [1, 2, 0x19, 6, 7]) =
    some [0x12, 3, 0, 0, 0x0C] := by decide +kernel

/-- DP3. -/
theorem test_dec_byte : after (exec .decByte (received [0xCC, 0xE3, 0x33, 0x8E, 0x33, 0x8C] 0 .pair0)) (regs [1, 0x19, 6, 7]) =
    some [0x11, 0x26, 5, 0x0C] := by decide +kernel

/-- R123: eight 0 bits and a ninth 1 bit. -/
theorem test_dec_byte_parity : after (exec .decByte (received [0xCC, 0xCC, 0xCC, 0xCC, 0xE3] 0 .pair0)) (regs [1, 2, 0x19]) =
    some [0x12, 5, 0] := by decide +kernel

/-- B6: the sum wraps, `HC_OK = 0`. -/
theorem test_checksum : after (exec .checksum (addressed 0xFF 0xFF 0xFF 0xFF)) (regs [1, 0x17]) = some [0x01, 0x08] := by decide

/-- B2: frame F1. -/
theorem test_build : after (exec (.buildBitstream 0) (addressed 0x0D 0x49 0x26 0x80)) (fun t => (txBytes 40 t, regs [1, 5, 0x17] t)) =
    some (frameF1 ++ [0xFF], [0x19, 39, 0x08]) := by decide +kernel

/-- B4: one byte too far. -/
theorem test_build_overflow : after (exec (.buildBitstream 0x1D) State.reset) (regs [1, 3, 4, 0x17]) =
    some [0x34, 2, 0x3F, 0x0C] := by decide +kernel

/-- B10. -/
theorem test_valve_set : after (exec .buildValveSet (valved 0x0D 0x49 50 10 0))
    (fun t => (txBytes 40 t, regs [1, 5, 0x0D, 0x0E, 0x1A] t)) =
    some (frameF1 ++ [0xFF], [0x19, 39, 0x26, 0x80, 0x01]) := by decide +kernel

/-- B7: straight after reset. -/
theorem test_valve_set_unset : after (exec .buildValveSet State.reset) (regs [3, 0x0D, 0x0E]) = some [3, 0, 0] := by decide

/-- FD2. -/
theorem test_decode_frame : after (exec .decodeBitstream (received frameF1 0 .pair0))
    (regs [1, 0x12, 0x13, 0x14, 0x15, 0x16, 0x17, 0x18, 0x1A, 6, 7]) =
    some [0x11, 0x0D, 0x49, 0, 0x26, 0x80, 0x08, 39, 1, 38, 0x30] := by decide +kernel

/-- FD5: garbage at index 1. -/
theorem test_decode_preamble : after (exec .decodeBitstream (received [0xCC, 0xE3, 0x33] 0 .pair0)) (fun t => (regs [1, 2, 6] t, t.events)) =
    some ([0x12, 6, 1], [.entropy 0xCC 0, .entropy 0xE3 0]) := by decide +kernel

/-- P-9: a header byte is garbage to the parser; the codec's answers are given. -/
theorem test_parse_header : after (exec .parseFrame
      { received [0xAA, 0xCC] 0 .pair0 with
        params := { Params.vectors with stats := { jsonLead := [(0xAA, false)], legacyMatch := [([0xAA, 0xCC], false)] } } })
    (fun t => (regs [1, 2, 6, 7] t, t.events)) = some ([0x12, 6, 0, 0xC0], [.entropy 0xAA 0]) := by decide +kernel

/-- P-7: a JSON record. -/
theorem test_parse_json : after (exec .parseFrame
      { received [0x7B, 0x7D] 0 .pair0 with
        params := { Params.vectors with stats := { jsonLead := [(0x7B, true)]
                                                   json := [([0x7B, 0x7D], some { id := none, body := [1] })] } } })
    (fun t => (regs [1, 0x18, 0x1A, 6] t, t.statsOut)) = some ([0x11, 2, 2, 0], some { id := none, body := [1] }) := by
  decide +kernel

/-- R70: the symbol of a 0 after `E3 30`. -/
theorem test_line0 : after (exec .line0 (opened 0 [0xE3, 0x30] 1)) (txBytes 3) = some [0xE3, 0x33, 0x3E] := by decide +kernel

/-- R71: the symbol of a 1 on an empty byte (E1). -/
theorem test_line1 : after (exec .line1 (opened 0 [0xFF] 0)) (txBytes 1) = some [0xE0] := by decide +kernel

/-- F3. -/
theorem test_cmd_set_zero : after (exec .cmdSetZero (addressed 0x0D 0x05 0x99 0x99)) (txBytes 39) = some (frameF3 ++ [0xFF]) := by
  decide +kernel

/-- F1 (R202). -/
theorem test_cmd_set_percent : after (exec .cmdSetPercent (valved 0x0D 0x49 50 10 0)) (txBytes 40) = some (frameF1 ++ [0xFF]) := by
  decide +kernel

/-- F2 (R203). -/
theorem test_cmd_sync_tick : after (exec .cmdSyncTick (addressed 0x0D 0x05 0x99 0xF1)) (txBytes 41) = some (frameF2 ++ [0xFF]) := by
  decide +kernel

/-! ### The host and the transceiver -/

/-- X9 and X10: past the end, and at the sentinel. -/
theorem test_tx_start : after (step (scheduled (streamed [0xCC, 0xFF] 1) (.txStart 2))) (regs [1, 3]) = some [0x1C, 7] ∧
    after (step (scheduled (streamed [0xCC, 0xFF] 1) (.txStart 1))) (regs [1, 3]) = some [0x58, 0] := by decide +kernel

/-- X13 to X15. -/
theorem test_register_writes : after (step (scheduled State.reset (.writeReg 0x0A 100))) (regs [1, 0x0A]) = some [0x00, 100] ∧
    after (step (scheduled State.reset (.writeReg 0x11 0xFF))) (regs [0x11]) = some [0x0F] ∧
    after (step (scheduled State.reset (.writeReg 0x01 0xFF))) (regs [0x01]) = some [0x10] := by decide

/-! ### The statements' hypotheses are met: `witness_<statement>` gives a state and operands for each clause -/

theorem witness_DecodeAndEncodeAgree : decode (.request 0xB0FF) = some (.buildBitstream 0xFF) ∧
    decode (.codeword 0x38) = some .line1 := by decide

/-- What R83 calls illegal. -/
def bad83 (w : ReqWord) : Prop :=
  w.extractLsb' 12 4 = 0xF ∨ w.extractLsb' 9 3 ≠ 0 ∨ (w.getLsbD 8 = true ∧ w.extractLsb' 12 4 ≠ 0x3) ∨
    (w.extractLsb' 0 8 ≠ 0 ∧ w.extractLsb' 12 4 ∉ ([0x1, 0x2, 0x4, 0x6, 0xB] : List (BitVec 4)))

theorem witness_IllegalWordsRaiseIllegalReq :
    (bad83 0xF000 ∧ bad83 0x0200 ∧ bad83 0x0800 ∧ bad83 0x0100 ∧ bad83 0xE100 ∧ bad83 0x3001 ∧ bad83 0x5080) ∧
    (¬ bad83 0x0000 ∧ ¬ bad83 0x3100 ∧ ¬ bad83 0x10FF ∧ ¬ bad83 0xB0FF ∧ ¬ bad83 0xE000) ∧
    (scheduled State.reset (.request 0xF000)).schedule = [.request 0xF000] ∧
    (scheduled State.reset (.request 0xF000)).fault = false := by
  refine ⟨⟨?_, ?_, ?_, ?_, ?_, ?_, ?_⟩, ⟨?_, ?_, ?_, ?_, ?_⟩, rfl, rfl⟩ <;> (unfold bad83; decide)

theorem witness_StepRunsDecodedInstruction :
    ((scheduled State.reset (.request 0x3100)).schedule = .request 0x3100 :: [] ∧
      decode (.request 0x3100) = some (.encBit true)) ∧
    ((scheduled State.reset (.codeword 0x0C)).schedule = .codeword 0x0C :: [] ∧ decode (.codeword 0x0C) = some .line0) ∧
    decodeTableWord 8 0x26 = some .cmdSetPercent ∧ decodeTableWord 16 0xE000 = some .parseFrame := by decide

theorem witness_PowerOnRestoresRegisters :
    (scheduled (opened 0 [0xE3] 0) (.powerOn none)).schedule = .powerOn none :: [] ∧
    (scheduled (opened 0 [0xE3] 0) (.powerOn (some 0xFF))).schedule = .powerOn (some 0xFF) :: [] := ⟨rfl, rfl⟩

theorem witness_StepKeepsInvariant :
    (scheduled (opened 62 [0xCC, 0xCD] 63) (.request 0x3000)).Inv ∧
    step (scheduled (opened 62 [0xCC, 0xCD] 63) (.request 0x3000)) =
      .next (landed (step (scheduled (opened 62 [0xCC, 0xCD] 63) (.request 0x3000)))) := by
  refine ⟨⟨?_, ?_, ?_, ?_, ?_, ?_, ?_, ?_, ?_, ?_, ?_, ?_, ?_⟩, eq_next_of_isNext ?_⟩ <;> decide +kernel

theorem witness_FaultStateIsSticky :
    faulted.fault = true ∧ (scheduled faulted (.request 0xFFFF)).schedule = [.request 0xFFFF] ∧ (0xFFFF : ReqWord) ≠ 0 ∧
    (scheduled faulted (.txStart 0)).schedule = [.txStart 0] ∧ (scheduled faulted (.readReg 0x1A)).schedule = [.readReg 0x1A] ∧
    (scheduled faulted (.writeReg 0x11 0xFF)).schedule = [.writeReg 0x11 0xFF] ∧
    ((63 : Byte).toNat < faulted.params.rxSize ∧ (scheduled faulted (.writeRx 63 1)).schedule = [.writeRx 63 1]) ∧
    ((63 : Byte).toNat < faulted.params.txSize ∧ (scheduled faulted (.readTx 63)).schedule = [.readTx 63]) ∧
    (scheduled faulted (.request 0)).schedule = [.request 0] := by decide

/-- A running transmission in the fault state, at a byte and at the sentinel. -/
theorem witness_FaultStateIsSticky_transmission :
    ([0, 1] : List Nat).all (fun k =>
      let s := { scheduled (streamed [0xCC, 0xFF] 1) .transceiver with fault := true, fcode := .txBusy, txActive := true,
                                                                       txIndex := k }
      s.fault && s.txActive && s.txIndex < s.params.txSize && s.schedule == [.transceiver] &&
        (s.txByte s.txIndex == 0xFF) == (k == 1)) = true := by decide +kernel

theorem witness_FaultLeftOnlyByReset :
    ([.request 0, .powerOn none, .request 0x3100, .writeRx 0 1] : List HostStep).all (fun h =>
      (scheduled faulted h).fault && isNext (step (scheduled faulted h))) = true := by decide +kernel

theorem witness_OnlyListedFaultsAreRaised :
    State.reset.fault = false ∧ exec (.encBit true) State.reset = .next (landed (exec (.encBit true) State.reset)) ∧
    (landed (exec (.encBit true) State.reset)).fault = true :=
  ⟨rfl, eq_next_of_isNext (by decide), by decide⟩

/-- An open stream with a transmission running. -/
def busy : State := { opened 0 [0xFF] 0 with txActive := true }

theorem witness_TxWritingRequestsRaiseTxBusy :
    busy.fault = false ∧ busy.txActive = true ∧ (63 : Byte).toNat < busy.params.txSize ∧ busy.enc.ready = true ∧
    (0xFE : Byte) ≠ 0xFF ∧
    (let s := { busy with args := (valved 0 0 100 100 9).args, statsIn := some { id := none, body := [] } }
     s.fault = false ∧ s.txActive = true ∧ s.args.pct.toNat ≤ 100 ∧ 1 ≤ s.args.thresh.toNat ∧ s.args.thresh.toNat ≤ 100 ∧
     (s.args.flags.getLsbD 0 = true → s.args.flags.getLsbD 3 = true → s.statsIn ≠ none)) := by decide

theorem witness_EncoderChecksComeInOrder :
    (State.reset.fault = false ∧ State.reset.enc.ready = false) ∧ (busy.fault = false ∧ busy.enc.ready = true) ∧
    (let s := opened 63 [0xE0] 63
     s.fault = false ∧ s.enc.ready = true ∧ (0xCC : Byte) ≠ 0xFF ∧ s.txActive = false ∧
     s.enc.ptr.toNat < s.params.txSize ∧ s.enc.current.extractLsb' 0 2 ≠ 0b11) := by decide +kernel

theorem witness_OutOfRangeOperandsRaiseBadArg :
    State.reset.fault = false ∧ State.reset.params.txSize ≤ (64 : Byte).toNat ∧
    State.reset.params.rxSize < ({ State.reset with rxLen := 65 } : State).rxLen.toNat ∧
    100 < (valved 0 0 101 1 0).args.pct.toNat ∧ (valved 0 0 0 0 0).args.thresh = 0 ∧
    100 < (valved 0 0 0 101 0).args.thresh.toNat ∧
    ((valved 0 0 0 1 9).args.flags.getLsbD 0 = true ∧ (valved 0 0 0 1 9).args.flags.getLsbD 3 = true ∧
      (valved 0 0 0 1 9).statsIn = none) := by decide

theorem witness_AccessesOutsideTheBuffersStop :
    (let s := opened 0 [] 64
     s.fault = false ∧ s.txActive = false ∧ s.enc.ready = true ∧ s.params.txSize ≤ s.enc.ptr.toNat) ∧
    (let s := { valved 0 0 1 1 0 with params := { Params.vectors with hdrEn := true, hdrLen := 64 } }
     s.fault = false ∧ s.txActive = false ∧ s.args.pct.toNat ≤ 100 ∧ 1 ≤ s.args.thresh.toNat ∧ s.args.thresh.toNat ≤ 100 ∧
     (s.args.flags.getLsbD 0 = true → s.args.flags.getLsbD 3 = true → s.statsIn ≠ none) ∧
     s.params.txSize ≤ (if s.params.hdrEn = true ∧ s.args.thresh.toNat ≤ s.args.pct.toNat then s.params.hdrLen else 0)) ∧
    (let s := { State.reset with dec := freshDec 65 0 }
     s.fault = false ∧ s.params.rxSize < s.dec.stop.toNat) ∧
    (State.reset.params.txSize ≤ (64 : Byte).toNat ∧ State.reset.params.rxSize ≤ (64 : Byte).toNat ∧
      (let s := { scheduled State.reset .transceiver with txActive := true, txIndex := 64 }
       s.txActive = true ∧ s.params.txSize ≤ s.txIndex ∧ s.schedule = [.transceiver]) ∧
      (0x21 : Byte) ∉ ([0x0C, 0x38, 0x20, 0x26, 0x2C] : List Byte)) := by decide

theorem witness_InstructionsLeaveTheSurroundingsAlone :
    exec .checksum State.reset = .next (landed (exec .checksum State.reset)) ∧ Instr.checksum ≠ .reset ∧
    Instr.checksum ∉ [.reset, .buildValveSet, .cmdSetZero, .cmdSetPercent, .cmdSyncTick] :=
  ⟨eq_next_of_isNext (by decide), by decide, by decide⟩

theorem witness_NoTxWriteDuringTransmission :
    busy.txActive = true ∧ exec (.encBit true) busy = .next (landed (exec (.encBit true) busy)) :=
  ⟨rfl, eq_next_of_isNext (by decide)⟩

theorem witness_EncoderAndDecoderAreSeparate :
    (exec .decPair State.reset = .next (landed (exec .decPair State.reset)) ∧
      Instr.decPair ∈ [.decPair, .decBit, .decByte, .decodeBitstream, .parseFrame, .checksum]) ∧
    (exec .encTerm (opened 0 [0xFF] 0) = .next (landed (exec .encTerm (opened 0 [0xFF] 0))) ∧
      Instr.encTerm ∈ [.encTerm, .checksum, .buildValveSet, .line0, .line1, .cmdSetZero, .cmdSetPercent, .cmdSyncTick]) :=
  ⟨⟨eq_next_of_isNext (by decide), by decide⟩, ⟨eq_next_of_isNext (by decide), by decide⟩⟩

theorem witness_EncInitStartsAStream : State.reset.fault = false ∧ (63 : Byte).toNat < State.reset.params.txSize ∧
    State.reset.txActive = false := by decide

theorem witness_EncRawWritesOneByte :
    ([62, 63] : List Byte).all (fun k =>
      let s := opened k.toNat [0xFF] k
      !s.fault && s.enc.ready && (0xCC : Byte) != 0xFF && !s.txActive && s.enc.current.extractLsb' 0 2 == 0b11 &&
        s.params.txSize ≤ 255 && (s.enc.ptr.toNat + 1 < s.params.txSize) == (k == 62) &&
        (s.enc.ptr.toNat + 1 == s.params.txSize) == (k == 63)) = true := by decide +kernel

/-- Whether `n` more pairs fit on the open stream of `s`. -/
def fits (s : State) (n : Nat) : Bool :=
  !s.fault && s.enc.ready && !s.txActive && s.params.txSize ≤ 255 && s.enc.ptr.toNat + s.enc.bytesFilledBy n < s.params.txSize

/-- Whether `n` more pairs overflow on the open stream of `s`. -/
def overflows (s : State) (n : Nat) : Bool :=
  !s.fault && s.enc.ready && !s.txActive && s.params.txSize ≤ 255 && s.enc.ptr.toNat < s.params.txSize &&
    s.params.txSize ≤ s.enc.ptr.toNat + s.enc.bytesFilledBy n

theorem witness_EncBitAppendsItsSymbol : fits (opened 63 [0xFF] 63) 2 = true ∧ fits (opened 63 [0xFF] 63) 3 = true ∧
    (63 : Nat) ≤ (opened 63 [0xFF] 63).enc.ptr.toNat := by decide +kernel

theorem witness_LineRowsAppendTheirPairs :
    fits (opened 63 [0xFF] 63) ([0b11, 0b00] : List Pair).length = true ∧
    fits (opened 63 [0xFF] 63) ([0b11, 0b10, 0b00] : List Pair).length = true := by decide +kernel

theorem witness_EncByteAppendsItsEncodedByte : fits (opened 59 [0xFF] 59) (18 + weight 0x00) = true ∧
    fits (opened 57 [0xFF] 57) (18 + weight 0xFF) = true := by decide +kernel

theorem witness_EncTermEndsTheStream :
    (let s := opened 63 [0xCD] 63
     s.fault = false ∧ s.enc.ready = true ∧ s.txActive = false ∧ s.enc.ptr.toNat < s.params.txSize) := by decide

theorem witness_EncoderOverflowFaults :
    overflows (opened 63 [0xCD] 63) ([0b11, 0b00] : List Pair).length = true ∧
    overflows (opened 63 [0x3E] 63) ([0b11, 0b10, 0b00] : List Pair).length = true ∧
    overflows (opened 60 [0xFF] 60) (linePairs (encodedByte 0x00)).length = true ∧
    (0 : Nat) ≤ (opened 63 [0xCD] 63).enc.ptr.toNat ∧ (63 : Nat) ≤ (opened 63 [0xCD] 63).enc.ptr.toNat := by decide +kernel

theorem witness_DecInitStartsADecode : State.reset.fault = false ∧
    ({ State.reset with rxLen := 64 } : State).rxLen.toNat ≤ State.reset.params.rxSize := by decide

/-- Whether a primitive decode runs on `s` and has exactly the pairs `ps` ahead. -/
def sees (s : State) (ps : List Pair) : Bool :=
  !s.fault && s.dec.stop.toNat ≤ s.params.rxSize && !s.dec.failed && s.dec.ahead s.rx == ps

theorem witness_DecPairReadsTheNextPair : sees (received [0xE3] 0 .pair3) [3] = true ∧
    sees (received [0xE3] 1 .pair0) [] = true := by decide +kernel

theorem witness_DecBitReadsASymbol :
    sees (received [0xCC] 0 .pair2) ([0b11, 0b00] ++ []) = true ∧
    sees (received [0xE3] 0 .pair0) ([0b11, 0b10, 0b00] ++ [3]) = true ∧
    sees (received [0xE3] 1 .pair0) [] = true ∧ sees (received [0xE3] 0 .pair3) [0b11] = true ∧
    sees (received [0x3E] 0 .pair2) [0b11, 0b10] = true := by decide +kernel

theorem witness_IllegalPairsFailTheDecode :
    sees (received [0x33] 0 .pair0) ([0b00] ++ [3, 0, 3]) = true ∧ sees (received [0xD0] 0 .pair0) ([0b11, 0b01] ++ [0, 0]) = true ∧
    sees (received [0xF3] 0 .pair0) ([0b11, 0b11] ++ [0, 3]) = true ∧
    sees (received [0xEB] 0 .pair0) ([0b11, 0b10, 0b10] ++ [3]) = true := by decide +kernel

theorem witness_DecByteReadsAnEncodedByte :
    (sees (received [0xCC, 0xE3, 0x33, 0x8E, 0x33, 0x8C] 0 .pair0) (linePairs (byteBits 0x26 ++ [true]) ++ [3, 0]) = true ∧
      true = parity 0x26) ∧
    (sees (received [0xCC, 0xCC, 0xCC, 0xCC, 0xE3] 0 .pair0) (linePairs (byteBits 0x00 ++ [true]) ++ [3]) = true ∧
      true ≠ parity 0x00) := by decide +kernel

/-- The first pair flipped, and the last one. -/
theorem witness_DecByteDetectsEverySingleFlip :
    (linePairs (encodedByte 0x00) = [] ++ 0b11 :: (linePairs (encodedByte 0x00)).drop 1 ∧
      sees (received [0x8C, 0xCC, 0xCC, 0xCC, 0xCC] 0 .pair0)
        ([] ++ (0b11 ^^^ 0b01) :: (linePairs (encodedByte 0x00)).drop 1 ++ [3, 0]) = true) ∧
    (linePairs (encodedByte 0x00) = (linePairs (encodedByte 0x00)).take 17 ++ 0b00 :: [] ∧
      sees (received [0xCC, 0xCC, 0xCC, 0xCC, 0xEC] 0 .pair0)
        ((linePairs (encodedByte 0x00)).take 17 ++ (0b00 ^^^ 0b10) :: [] ++ [3, 0]) = true) := by decide +kernel

theorem witness_FailedDecodeStateIsFrozen :
    (let s := { State.reset with dec := { ptr := 64, mask := .pair1, stop := 64, failed := true, reason := .badPair1 } }
     s.fault = false ∧ s.dec.stop.toNat ≤ s.params.rxSize ∧ s.dec.failed = true) := by decide

theorem witness_ChecksumIsTheSumModulo256 : (addressed 0xFF 0xFF 0xFF 0xFF).fault = false := rfl

/-- Percentage 100, and percentages 0 and 1 in order. -/
theorem witness_ScaleRoundsTiesUp :
    ((valved 0 0 100 100 0).fault = false ∧
      exec .buildValveSet (valved 0 0 100 100 0) = .next (landed (exec .buildValveSet (valved 0 0 100 100 0))) ∧
      (landed (exec .buildValveSet (valved 0 0 100 100 0))).fault = false) ∧
    (100 : Byte).toNat ≤ 100 ∧ (0 : Byte).toNat ≤ (1 : Byte).toNat :=
  ⟨⟨rfl, eq_next_of_isNext (by decide +kernel), by decide +kernel⟩, by decide, by decide⟩

theorem witness_BuildBitstreamLaysDownTheFrame :
    State.reset.fault = false ∧ State.reset.txActive = false ∧ State.reset.params.txSize ≤ 255 ∧
    (28 : Byte).toNat + frameLen State.reset.params State.reset.args + 1 ≤ State.reset.params.txSize := by decide +kernel

theorem witness_BuildBitstreamOverflowFaults :
    State.reset.fault = false ∧ State.reset.txActive = false ∧ State.reset.params.txSize ≤ 255 ∧
    ((29 : Byte).toNat < State.reset.params.txSize ∧
      State.reset.params.txSize < (29 : Byte).toNat + frameLen State.reset.params State.reset.args + 1) ∧
    ((63 : Byte).toNat < State.reset.params.txSize ∧
      State.reset.params.txSize < (63 : Byte).toNat + frameLen State.reset.params State.reset.args + 1) := by decide +kernel

/-- The state F0 is built from, and the one after it. -/
def builtF0 : State := landed (exec (.buildBitstream 0) State.reset)

/-- The longest frame with the address enabled, F4. -/
def beforeF4 : State :=
  { State.reset with
    params := { Params.vectors with addrEn := true }
    args := { State.reset.args with hc1 := 0xFF, hc2 := 0xFF, addr := 0xFF, cmd := 0xFB, ext := 0xFB } }

/-- The state after F4 is built. -/
def builtF4 : State := landed (exec (.buildBitstream 0) beforeF4)

theorem builds_F0 : exec (.buildBitstream 0) State.reset = .next builtF0 ∧ builtF0.fault = false :=
  ⟨eq_next_of_isNext (by decide +kernel), by decide +kernel⟩

theorem builds_F4 : exec (.buildBitstream 0) beforeF4 = .next builtF4 ∧ builtF4.fault = false :=
  ⟨eq_next_of_isNext (by decide +kernel), by decide +kernel⟩

/-- Lengths 35 and 47. -/
theorem witness_FrameLengthIsInRange :
    (State.reset.fault = false ∧ State.reset.params.txSize ≤ 255 ∧ exec (.buildBitstream 0) State.reset = .next builtF0 ∧
      builtF0.fault = false) ∧
    (beforeF4.fault = false ∧ beforeF4.params.txSize ≤ 255 ∧ exec (.buildBitstream 0) beforeF4 = .next builtF4 ∧
      builtF4.fault = false) :=
  ⟨⟨rfl, by decide, builds_F0⟩, ⟨rfl, by decide, builds_F4⟩⟩

theorem witness_BuiltBytesAreLineCodeBytes :
    State.reset.fault = false ∧ State.reset.params.txSize ≤ 255 ∧ exec (.buildBitstream 0) State.reset = .next builtF0 ∧
    builtF0.fault = false := ⟨rfl, by decide, builds_F0⟩

theorem witness_DecodeOfBuildIsTheCommand :
    (State.reset.fault = false ∧ State.reset.params.txSize ≤ 255 ∧ exec (.buildBitstream 0) State.reset = .next builtF0 ∧
      builtF0.fault = false) ∧
    (let u := received frameF0 0 .pair0
     u.fault = false ∧ builtF0.enc.txEnd.toNat - (0 : Byte).toNat ≤ u.params.rxSize ∧
     u.receives builtF0 (0 : Byte).toNat (builtF0.enc.txEnd.toNat - (0 : Byte).toNat)) := by
  refine ⟨⟨rfl, by decide, builds_F0⟩, rfl, by decide +kernel, ?_⟩
  unfold State.receives
  decide +kernel

/-- The reset state with another content of TX. -/
def dirtied : State := { State.reset with enc := { State.reset.enc with tx := { draw := 9, cells := [(3, 7)] } } }

/-- A valve-set build with a header of 18 bytes, ready to run. -/
def valveBefore : State := { valved 0 0 100 100 0 with params := { Params.vectors with hdrEn := true, hdrLen := 18 } }

/-- The state after it. -/
def valveAfter : State := landed (exec .buildValveSet valveBefore)

theorem builds_valveSet : exec .buildValveSet valveBefore = .next valveAfter ∧ valveAfter.fault = false :=
  ⟨eq_next_of_isNext (by decide +kernel), by decide +kernel⟩

theorem witness_BuildersIgnoreOldTxContents_valveSet :
    valveBefore.params.wf = true ∧ exec .buildValveSet valveBefore = .next valveAfter ∧
    exec .buildValveSet { valveBefore with enc := { valveBefore.enc with tx := dirtied.enc.tx } } =
      .next (landed (exec .buildValveSet { valveBefore with enc := { valveBefore.enc with tx := dirtied.enc.tx } })) ∧
    valveBefore.fault = false ∧ valveAfter.fault = false :=
  ⟨by decide, builds_valveSet.1, eq_next_of_isNext (by decide +kernel), rfl, builds_valveSet.2⟩

theorem witness_BuildersAreIdempotent_valveSet :
    valveBefore.params.wf = true ∧ exec .buildValveSet valveBefore = .next valveAfter ∧
    exec .buildValveSet valveAfter = .next (landed (exec .buildValveSet valveAfter)) :=
  ⟨by decide, builds_valveSet.1, eq_next_of_isNext (by decide +kernel)⟩

theorem witness_BuildersIgnoreOldTxContents :
    State.reset.params.wf = true ∧ exec (.buildBitstream 0) State.reset = .next builtF0 ∧
    exec (.buildBitstream 0) dirtied = .next (landed (exec (.buildBitstream 0) dirtied)) ∧ State.reset.fault = false ∧
    builtF0.fault = false :=
  ⟨by decide, builds_F0.1, eq_next_of_isNext (by decide +kernel), rfl, builds_F0.2⟩

theorem witness_BuildersAreIdempotent :
    State.reset.params.wf = true ∧ exec (.buildBitstream 0) State.reset = .next builtF0 ∧
    exec (.buildBitstream 0) builtF0 = .next (landed (exec (.buildBitstream 0) builtF0)) :=
  ⟨by decide, builds_F0.1, eq_next_of_isNext (by decide +kernel)⟩

/-- What every build of a valve set needs. -/
def valveReady (s : State) : Bool :=
  !s.fault && !s.txActive && s.params.wf && s.args.pct.toNat ≤ 100 && 1 ≤ s.args.thresh.toNat && s.args.thresh.toNat ≤ 100

/-- With a header at its threshold, and without one. -/
theorem witness_ValveSetBuildsHeaderAndFrame :
    (let s := { valved 0 0 100 100 1 with params := { Params.vectors with hdrEn := true, hdrLen := 18 } }
     valveReady s = true ∧ (s.args.flags.getLsbD 0 && s.args.flags.getLsbD 3) = false ∧
     18 = (if s.params.hdrEn = true ∧ s.args.thresh.toNat ≤ s.args.pct.toNat then s.params.hdrLen else 0)) ∧
    (let s := valved 0 0 0 1 8
     valveReady s = true ∧ (s.args.flags.getLsbD 0 && s.args.flags.getLsbD 3) = false ∧
     0 = (if s.params.hdrEn = true ∧ s.args.thresh.toNat ≤ s.args.pct.toNat then s.params.hdrLen else 0)) := by
  decide +kernel

/-- A record with no ID. -/
def record : StatsRecord := { id := none, body := [] }

/-- A state whose trailer is minimal and whose codec answers `bs`, with the TX size of vector T3. -/
def minimal (hc2 pct : Byte) (bs : Byte × Byte × Byte) : State :=
  { valved 0xBF hc2 pct 1 9 with
    params := { Params.vectors with txSize := 46, stats := { minEncode := [(record, bs)] } }
    statsIn := some record }

/-- The length of the frame such a state builds. -/
def valveLen (s : State) : Nat := frameLen s.params (valveSetArgs s.args)

theorem witness_ValveSetAppendsMinimalTrailer :
    ([(1, (0x41, 0x22, 0x63), 42), (7, (0x41, 0x22, 0x63), 43), (1, (0x41, 0xFF, 0x00), 42)] :
      List (Byte × (Byte × Byte × Byte) × Nat)).all (fun c =>
      let s := minimal c.1 100 c.2.1
      valveReady s && s.args.flags.extractLsb' 0 4 == 0b1001 && s.statsIn == some record &&
        statsMinEncode s.params record == c.2.1 && valveLen s == c.2.2) = true ∧
    (0xFF ∉ ([0x41, 0x22, 0x63] : List Byte) ∧ 42 + 3 < (minimal 1 100 (0x41, 0x22, 0x63)).params.txSize) ∧
    (minimal 7 100 (0x41, 0x22, 0x63)).params.txSize ≤ 43 + 3 ∧ 0xFF ∈ ([0x41, 0xFF, 0x00] : List Byte) := by decide +kernel

/-- A header before a frame with a trailer, at the threshold. -/
theorem witness_ValveSetAppendsMinimalTrailer_header :
    ([9, 0x0B] : List Byte).all (fun flags =>
      let s := { valved 0 0 100 100 flags with
        params := { Params.vectors with hdrEn := true, hdrLen := 18, txSize := 255 }
        statsIn := some record }
      valveReady s && s.statsIn == some record && headerWanted s.params s.args && s.params.hdrLen == 18) = true := by decide +kernel

/-- A state whose trailer is full and whose codec answers `answer` for the two bytes of room left. -/
def full (answer : Option (List Byte)) : State :=
  { valved 0x0D 0x49 50 10 0x0B with
    params := { Params.vectors with txSize := 46, stats := { encode := [((record, 6), answer)] } }
    statsIn := some record }

/-- No answer, an answer that just fits, one byte too many, and a 0xFF. -/
theorem witness_ValveSetAppendsFullTrailer :
    ([none, some [1, 2, 3, 4, 5, 6], some [1, 2, 3, 4, 5, 6, 7], some [0xFF]] : List (Option (List Byte))).all (fun c =>
      let s := full c
      valveReady s && s.args.flags.getLsbD 0 && s.args.flags.getLsbD 3 && s.args.flags.extractLsb' 1 2 != 0 &&
        s.statsIn == some record && valveLen s == 39 && statsEncode s.params record (s.params.txSize - 39 - 1) == c) = true ∧
    (full none).params.txSize - 39 - 1 = 6 := by decide +kernel

theorem witness_CommandRowsBuildTheirFrames :
    (let s := { State.reset with params := { Params.vectors with txSize := 37 } }
     s.fault = false ∧ s.txActive = false ∧ s.params.txSize ≤ 255 ∧
     frameLen s.params { s.args with cmd := 0x20, ext := 0x00 } + 1 ≤ s.params.txSize) ∧
    (let s := { State.reset with params := { Params.vectors with txSize := 38 } }
     s.fault = false ∧ s.txActive = false ∧ s.params.txSize ≤ 255 ∧
     frameLen s.params { s.args with cmd := 0x2C } + 1 ≤ s.params.txSize) := by decide +kernel

theorem witness_DecodeBitstreamCompletes : State.reset.fault = false ∧
    ({ State.reset with rxLen := 64 } : State).rxLen.toNat ≤ State.reset.params.rxSize := by decide

/-- Bytes that hold the pairs `ps`, the last ones cut if they fill no byte. -/
def packed : List Pair → List Byte
  | a :: b :: c :: d :: rest => (a ++ b ++ c ++ d : BitVec (2 + 2 + 2 + 2)) :: packed rest
  | _ => []

/-- `i` preamble bytes and then the pairs `ps`, received. -/
def framedPairs (i : Nat) (ps : List Pair) : State := received (List.replicate i 0xCC ++ packed ps) 0 .pair0

/-- Whether `s` can run `DECODE_BITSTREAM` on the payload `ps` at index `i`. -/
def carries (s : State) (i : Nat) (ps : List Pair) : Bool :=
  !s.fault && s.rxLen.toNat ≤ s.params.rxSize && 2 ≤ i && i ≤ 6 && (List.range i).all (fun k => s.rxByte k == 0xCC) &&
    (i == 6 || s.rxByte i != 0xCC) && s.rx.pairs i (s.rxLen.toNat - i) == ps

/-- A lead 0 at index 2 and at index 6 (FD7). -/
theorem witness_DecodeBitstreamCompletes_lead :
    carries (framedPairs 2 ([0b11, 0b00] ++ [3, 2])) 2 ([0b11, 0b00] ++ [3, 2]) = true ∧
    carries (framedPairs 6 ([0b11, 0b00] ++ [3, 0])) 6 ([0b11, 0b00] ++ [3, 0]) = true := by decide +kernel

/-- A lead 1 and six bytes. -/
def bodyOf (vs : List Byte) : List Pair := [0b11, 0b10, 0b00] ++ linePairs (vs.flatMap encodedByte)

/-- FD9: the checksum 0x0D for 0x0C. FD11: a trailing 1. FD1 and FD6: a trailing 0 after six and after two preamble bytes. -/
theorem witness_DecodeBitstreamCompletes_fields :
    (carries (framedPairs 6 (bodyOf [0, 0, 0, 0, 0, 0x0D] ++ [3])) 6 (bodyOf [0, 0, 0, 0, 0, 0x0D] ++ [3]) = true ∧
      (0x0D : Byte) ≠ checksum 0 0 0 0 0) ∧
    (carries (framedPairs 6 (bodyOf [0, 0, 0, 0, 0, 0x0C] ++ ([0b11, 0b10, 0b00] ++ [0, 0, 0, 0]))) 6
      (bodyOf [0, 0, 0, 0, 0, 0x0C] ++ ([0b11, 0b10, 0b00] ++ [0, 0, 0, 0])) = true ∧ (0x0C : Byte) = checksum 0 0 0 0 0) ∧
    ([2, 6] : List Nat).all (fun i =>
      carries (framedPairs i (bodyOf [0, 0, 0, 0, 0, 0x0C] ++ ([0b11, 0b00] ++ [3]))) i
        (bodyOf [0, 0, 0, 0, 0, 0x0C] ++ ([0b11, 0b00] ++ [3]))) = true := by decide +kernel

theorem witness_ParseFrameCompletes : State.reset.fault = false ∧
    ({ State.reset with rxLen := 64 } : State).rxLen.toNat ≤ State.reset.params.rxSize := by decide

theorem witness_PreambleScanFailures :
    (let s := received [0x00] 0 .pair0
     s.fault = false ∧ s.rxLen.toNat ≤ s.params.rxSize ∧ 1 ≤ s.rxLen.toNat ∧ s.rxByte 0 ≠ 0xCC) ∧
    (let s := received [0xCC, 0xE3] 0 .pair0
     s.fault = false ∧ s.rxLen.toNat ≤ s.params.rxSize ∧ 2 ≤ s.rxLen.toNat ∧ s.rxByte 0 = 0xCC ∧ s.rxByte 1 ≠ 0xCC) ∧
    (let s := received [0xCC, 0xCC, 0xCC, 0xCC, 0xCC] 0 .pair0
     s.fault = false ∧ s.rxLen.toNat ≤ s.params.rxSize ∧ s.rxLen.toNat < 6 ∧
     (∀ k, k < s.rxLen.toNat → s.rxByte k = 0xCC)) ∧
    (State.reset.rxLen.toNat < 6 ∧ ∀ k, k < State.reset.rxLen.toNat → State.reset.rxByte k = 0xCC) := by decide +kernel

theorem witness_EntropyOnlyFromPreambleFailures :
    (let s := received [0xCC, 0xE3] 0 .pair0
     exec .decodeBitstream s = .next (landed (exec .decodeBitstream s)) ∧ s.fault = false ∧
     (landed (exec .decodeBitstream s)).fault = false ∧ (landed (exec .decodeBitstream s)).dec.reason = .preamble) ∧
    (exec .parseFrame State.reset = .next (landed (exec .parseFrame State.reset)) ∧
     (landed (exec .parseFrame State.reset)).dec.reason ≠ .preamble) :=
  ⟨⟨eq_next_of_isNext (by decide +kernel), rfl, by decide +kernel, by decide +kernel⟩,
   eq_next_of_isNext (by decide +kernel), by decide +kernel⟩

/-- One received byte 0x7B with a codec that answers as given. -/
def framed (json legacy : Bool) (answer : Option StatsRecord) : State :=
  { received [0x7B] 0 .pair0 with
    params := { Params.vectors with stats := { jsonLead := [(0x7B, json)], legacyMatch := [([0x7B], legacy)]
                                               json := [([0x7B], answer)], legacy := [([0x7B], answer)] } } }

theorem witness_AlternateFramesAreHandedOver :
    ([none, some record] : List (Option StatsRecord)).all (fun answer =>
      (let s := framed true false answer
       !s.fault && 1 ≤ s.rxLen.toNat && s.rxLen.toNat ≤ s.params.rxSize && s.rx.readList 0 s.rxLen.toNat == [0x7B] &&
         jsonLead s.params (s.rxByte 0) && jsonDecode s.params [0x7B] == answer) &&
      (let s := framed false true answer
       !s.fault && 1 ≤ s.rxLen.toNat && s.rxLen.toNat ≤ s.params.rxSize && s.rx.readList 0 s.rxLen.toNat == [0x7B] &&
         !jsonLead s.params (s.rxByte 0) && legacyMatch s.params [0x7B] && legacyDecode s.params [0x7B] == answer)) = true := by
  decide +kernel

/-- Frame F0, for house code 00 00, followed by one byte, with a codec that answers as given. -/
def trailed (c : TrailerClass) (answer : Option StatsRecord) : State :=
  { received (frameF0 ++ [0x41]) 0 .pair0 with
    params := { Params.vectors with stats := { classify := [(0x41, c)], minDecode := [([0x41], answer)]
                                               decode := [([0x41], answer)] } } }

/-- No trailer, no record, a record without ID, one with the frame's house code, one with another; and nothing after the
frame. -/
theorem witness_TrailerIsDecodedOrRejected :
    ([(.none, none), (.min, none), (.full, some record), (.min, some { id := some (0, 0), body := [] }),
      (.full, some { id := some (0, 1), body := [] })] : List (TrailerClass × Option StatsRecord)).all (fun c =>
      let s := trailed c.1 c.2
      let d := landed (exec .decodeBitstream s)
      !s.fault && s.rxByte 0 == 0xCC && isNext (exec .decodeBitstream s) && !d.fault && d.ok && d.res.hc1 == 0 &&
        d.res.hc2 == 0 && d.res.next < s.rxLen &&
        s.rx.readList d.res.next.toNat (s.rxLen.toNat - d.res.next.toNat) == [0x41] &&
        statsClassify s.params (s.rxByte d.res.next.toNat) == c.1 &&
        (c.1 == .none || (if c.1 = .min then statsMinDecode s.params [0x41] else statsDecode s.params [0x41]) == c.2)) = true ∧
    (let s := received frameF0 0 .pair0
     let d := landed (exec .decodeBitstream s)
     s.fault = false ∧ s.rxByte 0 = 0xCC ∧ isNext (exec .decodeBitstream s) = true ∧ d.fault = false ∧ d.ok = true ∧
     d.res.next = s.rxLen) := by decide +kernel

theorem witness_ReservedRegistersReadZero :
    ((0x00 : Byte) = 0x00 ∧ 0x1B ≤ (0x1B : Byte).toNat ∧ 0x1B ≤ (0xFF : Byte).toNat ∧
      (scheduled State.reset (.readReg 0x1B)).schedule = [.readReg 0x1B]) ∧
    ((0x08 : Byte).toNat < 0x09 ∧ 0x12 ≤ (0x12 : Byte).toNat ∧
      (scheduled State.reset (.writeReg 0x12 1)).schedule = [.writeReg 0x12 1]) := by decide

theorem witness_WritableRegistersReadBack :
    ([0x09, 0x11] : List Byte).all (fun n => 0x09 ≤ n.toNat && n.toNat ≤ 0x11 &&
      (scheduled State.reset (.writeReg n 0xFF)).schedule == [.writeReg n 0xFF]) = true ∧
    (scheduled faulted (.setStatsIn (some record))).schedule = [.setStatsIn (some record)] ∧
    (scheduled State.reset (.setStatsIn none)).schedule = [.setStatsIn none] := by decide

theorem witness_HostReadsChangeNothing :
    (63 : Byte).toNat < State.reset.params.txSize ∧ (63 : Byte).toNat < State.reset.params.rxSize ∧
    (scheduled State.reset .readReq).schedule = [.readReq] ∧ (scheduled State.reset (.readReg 1)).schedule = [.readReg 1] ∧
    (scheduled State.reset (.readTx 63)).schedule = [.readTx 63] ∧ (scheduled State.reset (.readRx 63)).schedule = [.readRx 63] ∧
    (scheduled State.reset (.writeTx 0 1)).schedule = [.writeTx 0 1] := by decide

theorem witness_RxWriteIsSeenByTheNextRead : (63 : Byte).toNat < State.reset.params.rxSize ∧
    (scheduled State.reset (.writeRx 63 1)).schedule = [.writeRx 63 1] := by decide

theorem witness_TxStartChecksThenStarts :
    (busy.fault = false ∧ busy.txActive = true) ∧ (State.reset.txActive = false ∧ State.reset.enc.txValid = false) ∧
    ((streamed [0xCC, 0xFF] 1).txActive = false ∧ (streamed [0xCC, 0xFF] 1).enc.txEnd.toNat < (2 : Byte).toNat) ∧
    ((streamed [0xCC, 0xFF] 1).fault = false ∧ (streamed [0xCC, 0xFF] 1).enc.txValid = true ∧
      (1 : Byte).toNat ≤ (streamed [0xCC, 0xFF] 1).enc.txEnd.toNat ∧
      (scheduled (streamed [0xCC, 0xFF] 1) (.txStart 1)).schedule = [.txStart 1]) := by decide

theorem witness_TransmissionSendsUpToTheSentinel :
    (let s := { streamed [0xCC, 0xFF] 1 with txActive := true, schedule := [.transceiver, .transceiver, .readReq] }
     s.txActive = true ∧ s.schedule = List.replicate (1 + 1) .transceiver ++ [.readReq] ∧ s.txIndex + 1 < s.params.txSize ∧
     (∀ k, k < 1 → s.txByte (s.txIndex + k) ≠ 0xFF) ∧ s.txByte (s.txIndex + 1) = 0xFF) := by decide +kernel

/-- Two bits encoded at index 61, the last place where they and their padding fit. -/
def bitsBefore : State :=
  { State.reset with schedule := .request (requestWord 0x1 false 61) ::
      (([true, false] ++ [false, false]).map fun x => .request (requestWord 0x3 x 0)) ++ [.request (requestWord 0x5 false 0)] }

/-- The state after them. -/
def bitsAfter : State := landed (Host.Core.run Sys2Proof.core 6 bitsBefore)

/-- Another block that received them. -/
def bitsReceived : State :=
  { received [0xE3, 0x33] 0 .pair0 with
    schedule := .request (requestWord 0x6 false 0) :: List.replicate 2 (.request (requestWord 0x8 false 0)) }

theorem witness_DecBitsInvertEncBits :
    bitsBefore.fault = false ∧ bitsBefore.params.txSize ≤ 255 ∧
    Host.Core.run Sys2Proof.core ([true, false].length + 4) bitsBefore = .next bitsAfter ∧ bitsAfter.fault = false ∧
    bitsReceived.fault = false ∧ bitsAfter.enc.txEnd.toNat - (61 : Byte).toNat ≤ bitsReceived.params.rxSize ∧
    bitsReceived.receives bitsAfter (61 : Byte).toNat (bitsAfter.enc.txEnd.toNat - (61 : Byte).toNat) ∧
    [true, false][1]? = some false := by
  refine ⟨rfl, by decide, eq_next_of_isNext (by decide +kernel), by decide +kernel, rfl, by decide +kernel, ?_, rfl⟩
  unfold State.receives
  decide +kernel

end Sys2Proof.Tests
end

section
/-! PROOF. The shared operations for a property of the state they answer: each check and each operation is taken apart once, so
that an invariant and a frame are proved of an instruction by going through its body. -/

namespace Sys2Proof.Machine

/-- Every next state that `r` answers satisfies `P`. -/
def Answers (P : State → Prop) (r : Result) : Prop := ∀ t, r = .next t → P t

variable {P : State → Prop} {s t : State} {r : Result}

@[simp] theorem answers_next : Answers P (.next t) ↔ P t :=
  ⟨fun h => h t rfl, fun h u hu => by cases hu; exact h⟩

theorem unlessFaulted_answers (hs : P s) (hr : s.fault = false → Answers P r) : Answers P (unlessFaulted s r) := by
  intro t h
  rcases unlessFaulted_cases h with ⟨-, rfl⟩ | ⟨hf, h⟩
  · exact hs
  · exact hr hf t h

theorem raiseIf_answers {b : Bool} {c : FaultCode} (hraise : P (s.raise c)) (hr : b = false → Answers P r) :
    Answers P (raiseIf b c s r) := by
  intro t h
  rcases raiseIf_cases h with ⟨-, rfl⟩ | ⟨hb, h⟩
  · exact hraise
  · exact hr hb t h

theorem withinTx_answers {a : Nat} (hr : a < s.params.txSize → Answers P r) : Answers P (withinTx a s r) := by
  intro t h
  obtain ⟨ha, h⟩ := withinTx_cases h
  exact hr ha t h

theorem withinRx_answers (hr : s.dec.stop.toNat ≤ s.params.rxSize → Answers P r) : Answers P (withinRx s r) := by
  intro t h
  obtain ⟨hd, h⟩ := withinRx_cases h
  exact hr hd t h

theorem finishTx_answers {run : TxRun} (hok : ∀ e, run = .ok e → P ((s.setEnc e).setOk true))
    (hov : ∀ e, run = .overflow e → P ((s.setEnc e).raise .txOverflow)) : Answers P (s.finishTx run) := by
  intro t h
  rcases finishTx_cases h with ⟨e, he, rfl⟩ | ⟨e, he, rfl⟩
  · exact hok e he
  · exact hov e he

/-- An encoder request that appends is decided by its checks and by how its append ends (40_line_code.md R103, R104). -/
theorem encodeWith_answers {append : Nat → Encoder → TxRun} (hs : P s) (hraise : ∀ c, c ≠ .none → P (s.raise c))
    (hok : ∀ e, s.fault = false → s.enc.ptr.toNat < s.params.txSize →
      append s.params.txSize (s.enc.setValid false) = .ok e → P ((s.setEnc e).setOk true))
    (hov : ∀ e, s.fault = false → s.enc.ptr.toNat < s.params.txSize →
      append s.params.txSize (s.enc.setValid false) = .overflow e → P ((s.setEnc e).raise .txOverflow)) :
    Answers P (s.encodeWith append) :=
  unlessFaulted_answers hs fun hf => raiseIf_answers (hraise _ (by decide)) fun _ =>
    raiseIf_answers (hraise _ (by decide)) fun _ => withinTx_answers fun hp =>
      finishTx_answers (fun e he => hok e hf hp he) (fun e he => hov e hf hp he)

/-- A bitstream build is decided by its checks and by how `BuildBody` ends (41_frame_builder.md R151). -/
theorem buildAt_answers {base : Byte} (hs : P s) (hraise : ∀ c, c ≠ .none → P (s.raise c))
    (hok : ∀ e, s.fault = false → base.toNat < s.params.txSize →
      buildBody s.params.txSize (frameBytes s.params s.args) base s.enc = .ok e →
      P (((s.setCsum (frameChecksum s.params s.args)).setEnc (e.setValid true)).setOk true))
    (hov : ∀ e, s.fault = false → base.toNat < s.params.txSize →
      buildBody s.params.txSize (frameBytes s.params s.args) base s.enc = .overflow e →
      P (((s.setCsum (frameChecksum s.params s.args)).setEnc e).raise .txOverflow)) :
    Answers P (s.buildAt base) := by
  refine unlessFaulted_answers hs fun hf => raiseIf_answers (hraise _ (by decide)) fun hb =>
    raiseIf_answers (hraise _ (by decide)) fun _ => ?_
  have hlt : base.toNat < s.params.txSize := by simpa using hb
  simp only
  cases he : buildBody s.params.txSize (frameBytes s.params s.args) base s.enc with
  | ok e => exact answers_next.mpr (hok e hf hlt he)
  | overflow e => exact answers_next.mpr (hov e hf hlt he)

/-- The state with the registers `BUILD_VALVE_SET` writes before its build: command, extension, checksum (R150). -/
def State.valveSetWritten (s : State) : State :=
  { s with args := valveSetArgs s.args }.setCsum (frameChecksum s.params (valveSetArgs s.args))

/-- How the build of `BUILD_VALVE_SET` ends, its header written before it (R150). -/
def State.valveSetRun (s : State) : TxRun :=
  buildBody s.params.txSize (frameBytes s.params (valveSetArgs s.args)) (BitVec.ofNat 8 (headerLen s.params s.args))
    (s.enc.writeHeader (headerLen s.params s.args) s.params.hdrByte)

/-- How the trailer of `BUILD_VALVE_SET` ends after a build that left `e` (R150, R154). -/
def State.valveSetTrailer (s : State) (e : Encoder) : TrailerRun :=
  appendTrailer s.params (trailerMinimal (valveSetArgs s.args)) s.trailerRecord e

/-- The state a completed `BUILD_VALVE_SET` leaves (R150). -/
def State.valveSetDone (s : State) (kind : Byte) (e : Encoder) : State :=
  ({ s.valveSetWritten with res := { s.valveSetWritten.res with kind := (kind <<< 2) ||| 1 } }.setEnc
    (e.setValid true)).setOk true

/-- `BUILD_VALVE_SET` is decided by its checks, its build and its trailer (R150). -/
theorem valveSet_answers (hs : P s) (hraise : ∀ c, c ≠ .none → P (s.raise c))
    (hov : ∀ e, headerLen s.params s.args < s.params.txSize → s.valveSetRun = .overflow e →
      P ((s.valveSetWritten.setEnc e).raise .txOverflow))
    (htrailer : ∀ e c, headerLen s.params s.args < s.params.txSize → s.valveSetRun = .ok e →
      s.valveSetTrailer e = .raised c → P ((s.valveSetWritten.setEnc e).raise c))
    (hdone : ∀ e kind e', s.fault = false → headerLen s.params s.args < s.params.txSize → s.valveSetRun = .ok e →
      s.valveSetTrailer e = .done kind e' → P (s.valveSetDone kind e')) :
    Answers P s.valveSet := by
  refine unlessFaulted_answers hs fun hf => raiseIf_answers (hraise _ (by decide)) fun _ =>
    raiseIf_answers (hraise _ (by decide)) fun _ => raiseIf_answers (hraise _ (by decide)) fun _ =>
    raiseIf_answers (hraise _ (by decide)) fun _ => withinTx_answers fun hlen => ?_
  have hbody : s.valveSetBody =
      match s.valveSetRun with
      | .overflow e => .next ((s.valveSetWritten.setEnc e).raise .txOverflow)
      | .ok e =>
        match s.valveSetTrailer e with
        | .raised c => .next ((s.valveSetWritten.setEnc e).raise c)
        | .done kind e' => .next (s.valveSetDone kind e') := rfl
  rw [hbody]
  cases hrun : s.valveSetRun with
  | overflow e => exact answers_next.mpr (hov e hlen hrun)
  | ok e =>
    cases ht : s.valveSetTrailer e with
    | raised c => simpa only [ht, answers_next] using htrailer e c hlen hrun ht
    | done kind e' => simpa only [ht, answers_next] using hdone e kind e' hf hlen hrun ht

end Sys2Proof.Machine
end

section
/-! PROOF. What each kind of instruction may write: the frame of the encoder's side, of the commands, of the decoder's side and of
`CHECKSUM`, each proved once of the operations its instructions share. -/

namespace Sys2Proof.Machine

variable {s t u : State}

/-! ### The frames -/

/-- The encoder, builder and line requests write TXBUF and the encoder, `RES_CSUM`, `RES_KIND` and the flags of a request's
end. -/
def EncoderChange (s t : State) : Prop :=
  t = { s with enc := t.enc, res := { s.res with csum := t.res.csum, kind := t.res.kind },
               ok := t.ok, fault := t.fault, fcode := t.fcode }

/-- A build that sets the command and its extension first writes those besides (41_frame_builder.md R150; log 10). -/
def CommandChange (s t : State) : Prop := EncoderChange (s.setCommand t.args.cmd t.args.ext) t

/-- The body of a decode or a parse writes the decode state, the result registers, `STATS_OUT` and the events. -/
def DecodeBody (s t : State) : Prop :=
  t = { s with dec := t.dec, res := t.res, statsOut := t.statsOut, events := t.events }

/-- The decoder and parser requests write what a decode's body does and the flags of a request's end. -/
def DecoderChange (s t : State) : Prop :=
  t = { s with dec := t.dec, res := t.res, statsOut := t.statsOut, events := t.events,
               ok := t.ok, fault := t.fault, fcode := t.fcode }

/-- `CHECKSUM` writes `RES_CSUM` and `OK` (R141). -/
def ChecksumChange (s t : State) : Prop := t = { s with res := { s.res with csum := t.res.csum }, ok := t.ok }

/-! ### The encoder and the builders -/

theorem encodeWith_change (append : Nat → Encoder → TxRun) : Answers (EncoderChange s) (s.encodeWith append) :=
  encodeWith_answers rfl (fun _ _ => rfl) (fun _ _ _ _ => rfl) (fun _ _ _ _ => rfl)

theorem execEncInit_change (pos : Byte) : Answers (EncoderChange s) (execEncInit pos s) :=
  unlessFaulted_answers rfl fun _ => raiseIf_answers rfl fun _ => raiseIf_answers rfl fun _ => answers_next.mpr rfl

theorem execEncRaw_change (v : Byte) : Answers (EncoderChange s) (execEncRaw v s) :=
  unlessFaulted_answers rfl fun _ => raiseIf_answers rfl fun _ => raiseIf_answers rfl fun _ => raiseIf_answers rfl fun _ =>
    withinTx_answers fun _ => raiseIf_answers rfl fun _ => finishTx_answers (fun _ _ => rfl) (fun _ _ => rfl)

theorem execEncBit_change (x : Bool) : Answers (EncoderChange s) (execEncBit x s) := encodeWith_change _

theorem execEncByte_change (v : Byte) : Answers (EncoderChange s) (execEncByte v s) := encodeWith_change _

theorem execLine0_change : Answers (EncoderChange s) (execLine0 s) := encodeWith_change _

theorem execLine1_change : Answers (EncoderChange s) (execLine1 s) := encodeWith_change _

theorem execEncTerm_change : Answers (EncoderChange s) (execEncTerm s) :=
  unlessFaulted_answers rfl fun _ => raiseIf_answers rfl fun _ => raiseIf_answers rfl fun _ => withinTx_answers fun _ =>
    answers_next.mpr rfl

theorem buildAt_change (base : Byte) : Answers (EncoderChange s) (s.buildAt base) :=
  buildAt_answers rfl (fun _ _ => rfl) (fun _ _ _ _ => rfl) (fun _ _ _ _ => rfl)

/-- A build behind a command writes the command and its extension besides what the build writes (log 10). -/
theorem setCommand_buildAt_change (cmd ext base : Byte) :
    Answers (CommandChange s) ((s.setCommand cmd ext).buildAt base) :=
  buildAt_answers rfl (fun _ _ => rfl) (fun _ _ _ _ => rfl) (fun _ _ _ _ => rfl)

theorem valveSet_change : Answers (CommandChange s) s.valveSet :=
  valveSet_answers rfl (fun _ _ => rfl) (fun _ _ _ => rfl) (fun _ _ _ _ _ => rfl) (fun _ _ _ _ _ _ _ => rfl)

theorem execChecksum_change : Answers (ChecksumChange s) (execChecksum s) :=
  unlessFaulted_answers rfl fun _ => answers_next.mpr rfl

/-! ### The decoder and the parser -/

theorem DecodeBody.trans (h1 : DecodeBody s t) (h2 : DecodeBody t u) : DecodeBody s u := by
  unfold DecodeBody at *
  calc
    u = { t with dec := u.dec, res := u.res, statsOut := u.statsOut, events := u.events } := h2
    _ = { s with dec := u.dec, res := u.res, statsOut := u.statsOut, events := u.events } := by rw [h1]

theorem DecodeBody.fault (h : DecodeBody s t) : t.fault = s.fault := (congrArg State.fault h :)

/-- The end of a decode writes `OK` after its body. -/
theorem DecodeBody.finish (h : DecodeBody s t) : Answers (DecoderChange s) t.finishDecode := by
  refine answers_next.mpr ?_
  unfold DecodeBody at h
  rw [h]
  rfl

theorem applyFrame_body (r : FrameRun) : DecodeBody s (s.applyFrame r) := by
  rcases applyFrame_cases s r with ⟨f, -, he⟩ | ⟨-, he⟩ <;> rw [he] <;> rfl

theorem altFrame_body (answer : Option StatsRecord) (k : Byte) : DecodeBody s (s.altFrame answer k) := by
  cases answer <;> rfl

theorem takeTrailer_body (answer : Option StatsRecord) (k : Byte) : DecodeBody s (s.takeTrailer answer k) := by
  cases answer with
  | none => rfl
  | some r =>
    unfold State.takeTrailer
    dsimp only
    split <;> rfl

theorem trailer_body : DecodeBody s s.trailer := by
  unfold State.trailer
  dsimp only
  split
  · rfl
  · exact takeTrailer_body _ _
  · exact takeTrailer_body _ _

theorem parseFht8v_body : DecodeBody s s.parseFht8v := by
  have hframe := applyFrame_body (s := s) (decodeFrame s.rx s.rxLen)
  unfold State.parseFht8v
  dsimp only
  split
  · exact hframe.trans trailer_body
  · exact hframe

theorem parse_body : DecodeBody s s.parse := by
  have h0 : DecodeBody s { s with statsOut := none } := rfl
  unfold State.parse
  dsimp only
  split
  · exact h0.trans (altFrame_body _ _)
  split
  · exact h0.trans (altFrame_body _ _)
  · exact h0.trans parseFht8v_body

theorem execDecInit_change (start : Byte) : Answers (DecoderChange s) (execDecInit start s) :=
  unlessFaulted_answers rfl fun _ => raiseIf_answers rfl fun _ => answers_next.mpr rfl

theorem execDecPair_change : Answers (DecoderChange s) (execDecPair s) :=
  unlessFaulted_answers rfl fun _ => withinRx_answers fun _ => answers_next.mpr rfl

theorem execDecBit_change : Answers (DecoderChange s) (execDecBit s) :=
  unlessFaulted_answers rfl fun _ => withinRx_answers fun _ => answers_next.mpr rfl

theorem execDecByte_change : Answers (DecoderChange s) (execDecByte s) :=
  unlessFaulted_answers rfl fun _ => withinRx_answers fun _ => answers_next.mpr rfl

theorem execDecodeBitstream_change : Answers (DecoderChange s) (execDecodeBitstream s) :=
  unlessFaulted_answers rfl fun _ => raiseIf_answers rfl fun _ => (applyFrame_body _).finish

theorem execParseFrame_change : Answers (DecoderChange s) (execParseFrame s) :=
  unlessFaulted_answers rfl fun _ => raiseIf_answers rfl fun _ => parse_body.finish

/-! ### The instructions, by what they may write -/

/-- The kinds of instruction, by the frame each one keeps to. -/
inductive FrameKind where
  | reset
  | encoder
  | command
  | decoder
  | checksum

/-- The kind of an instruction. -/
def kindOf : Instr → FrameKind
  | .reset => .reset
  | .encInit _ | .encRaw _ | .encBit _ | .encByte _ | .encTerm | .line0 | .line1 | .buildBitstream _ => .encoder
  | .buildValveSet | .cmdSetZero | .cmdSetPercent | .cmdSyncTick => .command
  | .decInit _ | .decPair | .decBit | .decByte | .decodeBitstream | .parseFrame => .decoder
  | .checksum => .checksum

/-- The frame of a kind: how the state after may differ from the state before. -/
def FrameKind.Change : FrameKind → State → State → Prop
  | .reset => fun s t => t = s.resetRegisters
  | .encoder => EncoderChange
  | .command => CommandChange
  | .decoder => DecoderChange
  | .checksum => ChecksumChange

/-- Every instruction keeps to the frame of its kind. -/
theorem exec_change (i : Instr) : Answers ((kindOf i).Change s) (exec i s) := by
  cases i with
  | reset => exact answers_next.mpr rfl
  | encInit pos => exact execEncInit_change pos
  | encRaw v => exact execEncRaw_change v
  | encBit x => exact execEncBit_change x
  | encByte v => exact execEncByte_change v
  | encTerm => exact execEncTerm_change
  | decInit start => exact execDecInit_change start
  | decPair => exact execDecPair_change
  | decBit => exact execDecBit_change
  | decByte => exact execDecByte_change
  | checksum => exact execChecksum_change
  | buildBitstream base => exact buildAt_change base
  | buildValveSet => exact valveSet_change
  | decodeBitstream => exact execDecodeBitstream_change
  | parseFrame => exact execParseFrame_change
  | line0 => exact execLine0_change
  | line1 => exact execLine1_change
  | cmdSetZero => exact setCommand_buildAt_change 0x20 0x00 0
  | cmdSetPercent => exact valveSet_change
  | cmdSyncTick => exact setCommand_buildAt_change 0x2C s.args.ext 0

/-! ### What every kind leaves alone -/

/-- RXBUF, the parameters, the schedule, the host's data and the transmission are as before. -/
structure SameSurroundings (s t : State) : Prop where
  rx : t.rx = s.rx
  params : t.params = s.params
  schedule : t.schedule = s.schedule
  hostData : t.hostData = s.hostData
  txActive : t.txActive = s.txActive
  txIndex : t.txIndex = s.txIndex

/-- No kind of instruction writes the surroundings. -/
theorem FrameKind.Change.surroundings {k : FrameKind} (h : k.Change s t) : SameSurroundings s t := by
  cases k with
  | reset => cases h; exact ⟨rfl, rfl, rfl, rfl, rfl, rfl⟩
  | encoder | command | decoder | checksum =>
    exact ⟨(congrArg State.rx h :), (congrArg State.params h :), (congrArg State.schedule h :), (congrArg State.hostData h :),
      (congrArg State.txActive h :), (congrArg State.txIndex h :)⟩

/-- Only `RESET` writes `RX_LEN` and `STATS_IN`. -/
theorem FrameKind.Change.inputs {k : FrameKind} (h : k.Change s t) (hk : k ≠ .reset) :
    t.rxLen = s.rxLen ∧ t.statsIn = s.statsIn := by
  cases k with
  | reset => exact absurd rfl hk
  | encoder | command | decoder | checksum => exact ⟨(congrArg State.rxLen h :), (congrArg State.statsIn h :)⟩

/-- Only `RESET` and a command write the argument registers. -/
theorem FrameKind.Change.args {k : FrameKind} (h : k.Change s t) (hr : k ≠ .reset) (hc : k ≠ .command) : t.args = s.args := by
  cases k with
  | reset => exact absurd rfl hr
  | command => exact absurd rfl hc
  | encoder | decoder | checksum => exact (congrArg State.args h :)

/-- The decoder's side and `CHECKSUM` leave the encoder and TXBUF alone. -/
theorem FrameKind.Change.enc {k : FrameKind} (h : k.Change s t) (hk : k = .decoder ∨ k = .checksum) : t.enc = s.enc := by
  rcases hk with rfl | rfl <;> exact (congrArg State.enc h :)

/-- The encoder's side and `CHECKSUM` leave what decoding writes alone. -/
theorem FrameKind.Change.decodeSide {k : FrameKind} (h : k.Change s t) (hk : k = .encoder ∨ k = .command ∨ k = .checksum) :
    t.dec = s.dec ∧ t.statsOut = s.statsOut ∧ t.events = s.events ∧ t.res.val = s.res.val ∧ t.res.next = s.res.next := by
  rcases hk with rfl | rfl | rfl <;>
    exact ⟨(congrArg State.dec h :), (congrArg State.statsOut h :), (congrArg State.events h :), (congrArg (·.res.val) h :),
      (congrArg (·.res.next) h :)⟩

theorem kindOf_reset {i : Instr} (h : kindOf i = .reset) : i = .reset := by
  revert h
  cases i <;> simp [kindOf]

theorem kindOf_command {i : Instr} (h : kindOf i = .command) :
    i ∈ [.buildValveSet, .cmdSetZero, .cmdSetPercent, .cmdSyncTick] := by
  revert h
  cases i <;> simp [kindOf]

/-- Settles O17, by the frame of each kind of instruction. -/
theorem instructionsLeaveTheSurroundingsAlone : Obligations.InstructionsLeaveTheSurroundingsAlone := by
  intro i s t h
  have hchange := exec_change i t h
  have hsur := hchange.surroundings
  refine ⟨fun a => by rw [State.rxByte, State.rxByte, hsur.rx], hsur.rx, hsur.params, hsur.schedule, hsur.hostData,
    hsur.txActive, hsur.txIndex, fun hi => hchange.inputs fun hk => hi (kindOf_reset hk), fun hi => ?_⟩
  refine hchange.args (fun hk => hi ?_) fun hk => hi ?_
  · exact List.mem_cons.mpr (.inl (kindOf_reset hk))
  · exact List.mem_cons_of_mem _ (kindOf_command hk)

/-- Settles O19, by the frames of the decoder's and of the encoder's side. -/
theorem encoderAndDecoderAreSeparate : Obligations.EncoderAndDecoderAreSeparate := by
  intro i s t h
  have hchange := exec_change i t h
  constructor
  · intro hi
    have hk : kindOf i = .decoder ∨ kindOf i = .checksum := by
      rcases hi with hi | ⟨start, rfl⟩
      · simp only [List.mem_cons, List.not_mem_nil, or_false] at hi
        rcases hi with rfl | rfl | rfl | rfl | rfl | rfl <;> simp [kindOf]
      · exact .inl rfl
    have henc := hchange.enc hk
    exact ⟨henc, fun a => by rw [State.txByte, State.txByte, henc]⟩
  · intro hi
    refine hchange.decodeSide ?_
    rcases hi with hi | ⟨v, rfl | rfl | rfl | rfl⟩ | ⟨x, rfl⟩
    · simp only [List.mem_cons, List.not_mem_nil, or_false] at hi
      rcases hi with rfl | rfl | rfl | rfl | rfl | rfl | rfl | rfl <;> simp [kindOf]
    all_goals exact .inl rfl

end Sys2Proof.Machine
end

section
/-! PROOF. The invariant of the block: what each named update needs to keep it, that every instruction and every other step does,
and that the reset state has it. -/

namespace Sys2Proof.Machine

/-! ### The encoder's part of the invariant -/

/-- What the invariant asks of TXBUF and the encoder: `txOk`, `ptrOk`, `txEndOk`, `sentinelOk` and `openNotValid` of
`State.Inv`. -/
structure Encoder.Inv (size : Nat) (e : Encoder) : Prop where
  tx : e.tx.wf size = true
  ptr : e.ptr.toNat < size
  txEnd : e.txEnd.toNat < size
  sentinel : e.txValid = true → e.tx.read e.txEnd.toNat = sentinel
  openNotValid : e.ready = true → e.txValid = false

theorem State.Inv.encInv {s : State} (h : s.Inv) : s.enc.Inv s.params.txSize :=
  ⟨h.txOk, h.ptrOk, h.txEndOk, h.sentinelOk, h.openNotValid⟩

/-- Without `TXVALID` only the form of TXBUF and the two indices matter. -/
theorem Encoder.Inv.ofInvalid {size : Nat} {e : Encoder} (htx : e.tx.wf size = true) (hptr : e.ptr.toNat < size)
    (hend : e.txEnd.toNat < size) (hv : e.txValid = false) : e.Inv size where
  tx := htx
  ptr := hptr
  txEnd := hend
  sentinel := by simp [hv]
  openNotValid := fun _ => hv

theorem Encoder.Inv.setInvalid {size : Nat} {e : Encoder} (h : e.Inv size) : (e.setValid false).Inv size :=
  .ofInvalid h.tx h.ptr h.txEnd rfl

theorem Encoder.Inv.start {size : Nat} {e : Encoder} {pos : Byte} (h : e.Inv size) (hp : pos.toNat < size) :
    (e.start pos).Inv size :=
  .ofInvalid (Memory.write_wf _ h.tx hp) hp h.txEnd rfl

/-- A stream that is not complete keeps the invariant while pairs are laid down. -/
theorem LaidDown.encInv {size : Nat} {e e' : Encoder} {qs : List Pair} (l : LaidDown size e e' qs) (h : e.Inv size)
    (hv : e.txValid = false) : e'.Inv size :=
  .ofInvalid (l.wf h.tx) l.inside (l.txEnd ▸ h.txEnd) (l.txValid.trans hv)

theorem Overflowed.encInv {size : Nat} {e e' : Encoder} {qs : List Pair} (o : Overflowed size e e' qs) (h : e.Inv size)
    (hv : e.txValid = false) : e'.Inv size :=
  .ofInvalid (o.wf h.tx) (by have := o.ptr; omega) (o.txEnd ▸ h.txEnd) (o.txValid.trans hv)

/-- The sentinel stands at the `TX_END` that a termination sets, so `TXVALID` may be either. -/
theorem Encoder.Inv.terminate {size : Nat} {e : Encoder} (h : e.Inv size) (b : Bool) :
    (e.terminate.setValid b).Inv size where
  tx := Memory.write_wf _ h.tx h.ptr
  ptr := h.ptr
  txEnd := h.ptr
  sentinel := fun _ => Memory.read_write_same _ _ _
  openNotValid := by simp

@[simp] theorem Encoder.writeTrailer_txEnd (e : Encoder) (bytes : List Byte) :
    (e.writeTrailer bytes).txEnd = BitVec.ofNat 8 (e.txEnd.toNat + bytes.length) := rfl

/-- A trailer that fits puts the sentinel at the `TX_END` it sets. -/
theorem TrailerWritten.encInv {size : Nat} {e e' : Encoder} {bytes : List Byte} (w : TrailerWritten size e e' bytes)
    (h : e.Inv size) (hs : size ≤ 255) (hready : e.ready = false) : (e'.setValid true).Inv size := by
  have hfits := w.fits
  have hend : (BitVec.ofNat 8 (e.txEnd.toNat + bytes.length)).toNat = e.txEnd.toNat + bytes.length := by
    rw [BitVec.toNat_ofNat]; omega
  rw [w.run]
  exact {
    tx := Memory.write_wf _ (Memory.writeList_wf bytes h.tx (by omega)) hfits
    ptr := h.ptr
    txEnd := by simpa only [Encoder.setValid_txEnd, Encoder.writeTrailer_txEnd, hend] using hfits
    sentinel := fun _ => by
      simp only [Encoder.setValid_tx, Encoder.setValid_txEnd, Encoder.writeTrailer_txEnd, writeTrailer_read, hend, if_true]
    openNotValid := fun hr => absurd (hready.symm.trans hr) (by decide) }

/-! ### The updates of the state -/

variable {s : State}

theorem State.Inv.txSize_le (h : s.Inv) : s.params.txSize ≤ 255 := by
  have := h.paramsOk
  simp only [Params.wf, Params.txSizeOk, Bool.and_eq_true, decide_eq_true_eq] at this
  exact this.1.1.1.2

theorem State.Inv.fcode_none (h : s.Inv) (hf : s.fault = false) : s.fcode = .none := by
  by_contra hc
  simp [h.fcodeOk.mpr hc] at hf

theorem State.Inv.raise (h : s.Inv) {c : FaultCode} (hc : c ≠ .none) : (s.raise c).Inv :=
  { h with fcodeOk := by simp [hc], okOk := fun _ => rfl }

/-- `OK` may be written outside the fault state. -/
theorem State.Inv.setOk (h : s.Inv) (hf : s.fault = false) (b : Bool) : (s.setOk b).Inv :=
  { h with okOk := by simp [hf] }

theorem State.Inv.setEnc (h : s.Inv) {e : Encoder} (he : e.Inv s.params.txSize) : (s.setEnc e).Inv :=
  { h with
    txOk := he.tx
    ptrOk := he.ptr
    txEndOk := he.txEnd
    sentinelOk := he.sentinel
    openNotValid := he.openNotValid }

theorem State.Inv.setDec (h : s.Inv) {d : Decoder} (hstop : d.stop.toNat ≤ s.params.rxSize) (hr : d.reasonMatches) :
    (s.setDec d).Inv :=
  { h with stopOk := hstop, reasonOk := hr }

/-- What the invariant asks of `RES_KIND` (10_state.md R34). -/
abbrev kindLegal (k : Byte) : Prop := k &&& 0xF0 = 0 ∧ k &&& 0x0C ≠ 0x0C

theorem State.Inv.setRes (h : s.Inv) {r : ResRegs} (hk : kindLegal r.kind) : State.Inv { s with res := r } :=
  { h with kindOk := hk }

theorem State.Inv.setVal (h : s.Inv) (v : Byte) : (s.setVal v).Inv := h.setRes h.kindOk

theorem State.Inv.setCsum (h : s.Inv) (v : Byte) : (s.setCsum v).Inv := h.setRes h.kindOk

theorem State.Inv.setArgs (h : s.Inv) {a : ArgRegs} (ha : a.flags &&& 0xF0 = 0) : State.Inv { s with args := a } :=
  { h with flagsOk := ha }

theorem State.Inv.setCommand (h : s.Inv) (cmd ext : Byte) : (s.setCommand cmd ext).Inv := h.setArgs h.flagsOk

theorem State.Inv.resetRegisters (h : s.Inv) : s.resetRegisters.Inv where
  paramsOk := h.paramsOk
  txOk := h.txOk
  rxOk := h.rxOk
  ptrOk := Nat.lt_of_le_of_lt (Nat.zero_le _) h.ptrOk
  txEndOk := Nat.lt_of_le_of_lt (Nat.zero_le _) h.ptrOk
  sentinelOk := by simp [State.reset]
  openNotValid := fun _ => rfl
  stopOk := Nat.zero_le _
  reasonOk := by simp [State.reset]
  fcodeOk := by simp
  okOk := fun _ => rfl
  flagsOk := by simp [State.reset]
  kindOk := by simp [State.reset]

theorem State.Inv.powerOn (h : s.Inv) (drives : Option Byte) : (s.powerOn drives).Inv :=
  { h.resetRegisters with
    txOk := Memory.powerOn_wf _ _
    rxOk := Memory.powerOn_wf _ _
    sentinelOk := by simp [State.reset] }

/-! ### The encoder requests -/

/-- An append keeps the invariant when it lays pairs down or overflows. -/
theorem encodeWith_inv (h : s.Inv) {append : Nat → Encoder → TxRun} {qs : List Pair}
    (happend : ∀ size e, append size e = appendPairs size qs e) : Answers State.Inv (s.encodeWith append) := by
  have hv : (s.enc.setValid false).txValid = false := rfl
  have he0 := h.encInv.setInvalid
  refine encodeWith_answers h (fun c hc => h.raise hc) (fun e hf hp he => ?_) fun e hf hp he => ?_
  all_goals
    rw [happend] at he
    rcases appendPairs_cases qs h.txSize_le (e := s.enc.setValid false) hp with ⟨e', he', l, -⟩ | ⟨e', he', o, -⟩ <;>
      rw [he'] at he <;> cases he
  · exact (h.setEnc (l.encInv he0 hv)).setOk hf true
  · exact (h.setEnc (o.encInv he0 hv)).raise (by decide)

theorem execEncInit_inv (h : s.Inv) (pos : Byte) : Answers State.Inv (execEncInit pos s) :=
  unlessFaulted_answers h fun hf => raiseIf_answers (h.raise (by decide)) fun hp =>
    raiseIf_answers (h.raise (by decide)) fun _ =>
      answers_next.mpr ((h.setEnc (h.encInv.start (by simpa using hp))).setOk hf true)

theorem execEncRaw_inv (h : s.Inv) (v : Byte) : Answers State.Inv (execEncRaw v s) := by
  have hv : (s.enc.setValid false).txValid = false := rfl
  have he0 := h.encInv.setInvalid
  refine unlessFaulted_answers h fun hf => raiseIf_answers (h.raise (by decide)) fun _ =>
    raiseIf_answers (h.raise (by decide)) fun _ => raiseIf_answers (h.raise (by decide)) fun _ =>
    withinTx_answers fun hp => raiseIf_answers (h.raise (by decide)) fun hempty => ?_
  have hfill : pairsFilled (s.enc.setValid false).current = 0 := by
    have h3 : s.enc.current.extractLsb' 0 2 = 0b11 := by simpa using hempty
    show 3 - (s.enc.current.extractLsb' 0 2).toNat = 0
    rw [h3]; rfl
  rcases appendRaw_cases v h.txSize_le (e := s.enc.setValid false) hp hfill with ⟨e, he, l, -⟩ | ⟨e, he, o, -⟩
  · rw [he]
    exact answers_next.mpr ((h.setEnc (l.encInv he0 hv)).setOk hf true)
  · rw [he]
    exact answers_next.mpr ((h.setEnc (o.encInv he0 hv)).raise (by decide))

theorem execEncTerm_inv (h : s.Inv) : Answers State.Inv (execEncTerm s) :=
  unlessFaulted_answers h fun hf => raiseIf_answers (h.raise (by decide)) fun _ =>
    raiseIf_answers (h.raise (by decide)) fun _ => withinTx_answers fun _ =>
      answers_next.mpr ((h.setEnc (h.encInv.terminate true)).setOk hf true)

/-! ### The builders -/

/-- A body built from `base` leaves an encoder with the invariant: the one that is terminated when
it fits, the one that overflowed when it does not. -/
theorem buildBody_encInv {size : Nat} {vs : List Byte} {base : Byte} {e : Encoder} (h : e.Inv size) (hs : size ≤ 255)
    (hb : base.toNat < size) :
    (∃ e' : Encoder, buildBody size vs base e = .ok e'.terminate ∧ e'.Inv size) ∨
    (∃ e' : Encoder, buildBody size vs base e = .overflow e' ∧ e'.Inv size) := by
  rcases buildBody_cases vs base e hs hb with ⟨e', he, l, -⟩ | ⟨e', he, o, -⟩
  · exact .inl ⟨e', he, l.encInv (h.start hb) rfl⟩
  · exact .inr ⟨e', he, o.encInv (h.start hb) rfl⟩

theorem buildAt_inv (h : s.Inv) (base : Byte) : Answers State.Inv (s.buildAt base) := by
  have hc := h.setCsum (frameChecksum s.params s.args)
  refine buildAt_answers h (fun c hc => h.raise hc) (fun e hf hb he => ?_) fun e hf hb he => ?_
  all_goals
    rcases buildBody_encInv (vs := frameBytes s.params s.args) h.encInv h.txSize_le hb with ⟨e', he', i⟩ | ⟨e', he', i⟩ <;>
      rw [he'] at he <;> cases he
  · exact (hc.setEnc (i.terminate true)).setOk hf true
  · exact (hc.setEnc i).raise (by decide)

theorem valveSetWritten_inv (h : s.Inv) : s.valveSetWritten.Inv :=
  State.Inv.setCsum (State.Inv.setArgs h (a := valveSetArgs s.args) h.flagsOk) _

theorem writeHeader_encInv {size n : Nat} {e : Encoder} (h : e.Inv size) (hn : n < size) (b : Byte) :
    (e.writeHeader n b).Inv size :=
  .ofInvalid (Memory.writeList_wf _ h.tx (by simp; omega)) h.ptr h.txEnd rfl

theorem valveSetRun_encInv (h : s.Inv) (hlen : headerLen s.params s.args < s.params.txSize) :
    (∃ e : Encoder, s.valveSetRun = .ok e.terminate ∧ e.Inv s.params.txSize) ∨
    (∃ e : Encoder, s.valveSetRun = .overflow e ∧ e.Inv s.params.txSize) :=
  buildBody_encInv (writeHeader_encInv h.encInv hlen _) h.txSize_le (by
    have := h.txSize_le
    rw [BitVec.toNat_ofNat]; omega)

/-- The three trailer kinds of `AppendTrailer` leave a legal `RES_KIND` (10_state.md R34). -/
theorem kindLegal_of_trailer {k : Byte} (hk : k = 0 ∨ k = 1 ∨ k = 2) : kindLegal ((k <<< 2) ||| 1) := by
  rcases hk with rfl | rfl | rfl <;> decide

/-- A trailer run after a terminated build raises a fault, or leaves a legal kind and an encoder with the invariant. -/
theorem valveSetTrailer_encInv {e : Encoder} (h : s.Inv) (he : e.Inv s.params.txSize) :
    (∃ c, s.valveSetTrailer e.terminate = .raised c ∧ c ≠ .none) ∨
    (∃ (k : Byte) (e' : Encoder), s.valveSetTrailer e.terminate = .done k e' ∧ (k = 0 ∨ k = 1 ∨ k = 2) ∧
      (e'.setValid true).Inv s.params.txSize) := by
  have hterm : e.terminate.Inv s.params.txSize := he.terminate e.txValid
  rcases appendTrailer_cases s.params (trailerMinimal (valveSetArgs s.args)) s.trailerRecord e.terminate hterm.txEnd with
    ⟨ht, -⟩ | ⟨bytes, -, -, -, w, ht⟩ | ⟨bytes, -, -, w, ht⟩ | ht | ⟨ht, -⟩
  · exact .inr ⟨0, _, ht, by simp, he.terminate true⟩
  · exact .inr ⟨1, _, ht, by simp, w.encInv hterm h.txSize_le rfl⟩
  · exact .inr ⟨2, _, ht, by simp, w.encInv hterm h.txSize_le rfl⟩
  · exact .inl ⟨_, ht, by decide⟩
  · exact .inl ⟨_, ht, by decide⟩

theorem valveSet_inv (h : s.Inv) : Answers State.Inv s.valveSet := by
  have hw := valveSetWritten_inv h
  refine valveSet_answers h (fun c hc => h.raise hc) (fun e hlen hrun => ?_) (fun e c hlen hrun ht => ?_)
    fun e kind e' hf hlen hrun ht => ?_
  all_goals
    rcases valveSetRun_encInv h hlen with ⟨e0, hr, i⟩ | ⟨e0, hr, i⟩ <;> rw [hr] at hrun <;> cases hrun
  · exact (hw.setEnc i).raise (by decide)
  · rcases valveSetTrailer_encInv h i with ⟨c', hc, hne⟩ | ⟨k, e1, hd, -, -⟩
    · rw [hc] at ht
      cases ht
      exact (hw.setEnc (i.terminate e0.txValid)).raise hne
    · rw [hd] at ht; cases ht
  · rcases valveSetTrailer_encInv h i with ⟨c', hc, -⟩ | ⟨k, e1, hd, hk, i1⟩
    · rw [hc] at ht; cases ht
    · rw [hd] at ht
      cases ht
      exact State.Inv.setOk (State.Inv.setEnc (hw.setRes (kindLegal_of_trailer hk)) i1) hf true

theorem execChecksum_inv (h : s.Inv) : Answers State.Inv (execChecksum s) :=
  unlessFaulted_answers h fun hf => answers_next.mpr ((h.setCsum (frameChecksum s.params s.args)).setOk hf true)

/-! ### The decoder requests and the parser -/

theorem State.Inv.setDec_of_follows (h : s.Inv) {d : Decoder} (f : Follows s.dec d) : (s.setDec d).Inv :=
  h.setDec (f.stop ▸ h.stopOk) (f.reason h.reasonOk)

theorem execDecInit_inv (h : s.Inv) (start : Byte) : Answers State.Inv (execDecInit start s) :=
  unlessFaulted_answers h fun hf => raiseIf_answers (h.raise (by decide)) fun hlen =>
    answers_next.mpr ((h.setDec (by simpa [freshDec] using hlen) (freshDec_reasonMatches _ _)).setOk hf true)

/-- The end of a primitive decode keeps the invariant when the decode state follows the one before. -/
theorem finishRead_inv (h : s.Inv) (hf : s.fault = false) (v : Byte) {d : Decoder} (f : Follows s.dec d) :
    Answers State.Inv (s.finishRead v d) :=
  answers_next.mpr (((h.setDec_of_follows f).setVal v).setOk hf _)

theorem execDecPair_inv (h : s.Inv) : Answers State.Inv (execDecPair s) :=
  unlessFaulted_answers h fun hf => withinRx_answers fun _ => finishRead_inv h hf _ (readPair_follows s.rx s.dec)

theorem execDecBit_inv (h : s.Inv) : Answers State.Inv (execDecBit s) :=
  unlessFaulted_answers h fun hf => withinRx_answers fun _ => finishRead_inv h hf _ (readBit_follows s.rx s.dec)

theorem execDecByte_inv (h : s.Inv) : Answers State.Inv (execDecByte s) :=
  unlessFaulted_answers h fun hf => withinRx_answers fun _ => finishRead_inv h hf _ (readByteP_follows s.rx s.dec)

theorem failDecode_inv (h : s.Inv) {d : Decoder} (hstop : d.stop.toNat ≤ s.params.rxSize) (hr : d.reasonMatches) :
    (s.failDecode d).Inv :=
  (h.setDec hstop hr).setRes (by decide : kindLegal 0)

/-- The writes of a frame decode keep the invariant when its declared end is within RXBUF. -/
theorem applyFrame_inv (h : s.Inv) {n : Byte} {r : FrameRun} (hr : FrameRun.Sound n r) (hn : n.toNat ≤ s.params.rxSize) :
    (s.applyFrame r).Inv := by
  have hstop : r.dec.stop.toNat ≤ s.params.rxSize := hr.stop ▸ hn
  rcases applyFrame_cases s r with ⟨f, -, he⟩ | ⟨-, he⟩
  · rw [he]
    exact (h.setDec hstop hr.reason).setRes (by decide : kindLegal 0x01)
  · rw [he]
    exact { failDecode_inv h hstop hr.reason with }

theorem altFrame_inv (h : s.Inv) (hn : s.rxLen.toNat ≤ s.params.rxSize) (answer : Option StatsRecord) {k : Byte}
    (hk : kindLegal k) : (s.altFrame answer k).Inv := by
  have fresh := freshDec_reasonMatches s.rxLen 0
  cases answer with
  | none =>
    have f := follows_fail (freshDec s.rxLen 0) (r := .altFrame) (by decide)
    exact failDecode_inv h (f.stop ▸ hn) (f.reason fresh)
  | some r => exact { h.setDec hn fresh with kindOk := hk }

/-- A trailer failure of the decode state as it stands. -/
theorem failTrailer_inv (h : s.Inv) {r : FailReason} (hr : r ≠ .none) : (s.failDecode (s.dec.fail r)).Inv :=
  have f := follows_fail s.dec hr
  failDecode_inv h (f.stop ▸ h.stopOk) (f.reason h.reasonOk)

theorem takeTrailer_inv (h : s.Inv) (answer : Option StatsRecord) {k : Byte} (hk : kindLegal (0x01 ||| (k <<< 2))) :
    (s.takeTrailer answer k).Inv := by
  cases answer with
  | none => exact failTrailer_inv h (by decide)
  | some r =>
    cases hid : withHouseCode r s.res.hc1 s.res.hc2 with
    | none => simpa only [State.takeTrailer, hid] using failTrailer_inv h (by decide)
    | some r' =>
      simp only [State.takeTrailer, hid]
      exact { h with kindOk := hk }

theorem trailer_inv (h : s.Inv) : s.trailer.Inv := by
  unfold State.trailer
  dsimp only
  split
  · exact h
  · exact takeTrailer_inv h _ (by decide)
  · exact takeTrailer_inv h _ (by decide)

theorem parseFht8v_inv (h : s.Inv) (hn : s.rxLen.toNat ≤ s.params.rxSize) : s.parseFht8v.Inv := by
  have hframe := applyFrame_inv h (decodeFrame_sound s.rx s.rxLen) hn
  unfold State.parseFht8v
  dsimp only
  split
  · exact trailer_inv hframe
  · exact hframe

theorem parse_inv (h : s.Inv) (hn : s.rxLen.toNat ≤ s.params.rxSize) : s.parse.Inv := by
  have h0 : State.Inv { s with statsOut := none } := { h with }
  unfold State.parse
  dsimp only
  split
  · exact altFrame_inv h0 hn _ (by decide)
  split
  · exact altFrame_inv h0 hn _ (by decide)
  · exact parseFht8v_inv h0 hn

theorem execDecodeBitstream_inv (h : s.Inv) : Answers State.Inv (execDecodeBitstream s) :=
  unlessFaulted_answers h fun hf => raiseIf_answers (h.raise (by decide)) fun hn =>
    answers_next.mpr ((applyFrame_inv h (decodeFrame_sound s.rx s.rxLen) (by simpa using hn)).setOk
      ((applyFrame_body _).fault.trans hf) _)

theorem execParseFrame_inv (h : s.Inv) : Answers State.Inv (execParseFrame s) :=
  unlessFaulted_answers h fun hf => raiseIf_answers (h.raise (by decide)) fun hn =>
    answers_next.mpr ((parse_inv h (by simpa using hn)).setOk (parse_body.fault.trans hf) _)

end Sys2Proof.Machine
end

section
/-! PROOF. The invariant along a step (10_state.md R21 to R34, 60_exceptions.md R232), and in the reset state. -/

namespace Sys2Proof.Machine

variable {s : State}

/-! ### Instructions -/

/-- Every instruction keeps the invariant. -/
theorem exec_inv (h : s.Inv) (i : Instr) : Answers State.Inv (exec i s) := by
  cases i with
  | reset => exact answers_next.mpr h.resetRegisters
  | encInit pos => exact execEncInit_inv h pos
  | encRaw v => exact execEncRaw_inv h v
  | encBit x => exact encodeWith_inv h (qs := lineSymbol x) fun _ _ => rfl
  | encByte v => exact encodeWith_inv h fun size e => appendBits_eq size (encodedByte v) e
  | encTerm => exact execEncTerm_inv h
  | decInit start => exact execDecInit_inv h start
  | decPair => exact execDecPair_inv h
  | decBit => exact execDecBit_inv h
  | decByte => exact execDecByte_inv h
  | checksum => exact execChecksum_inv h
  | buildBitstream base => exact buildAt_inv h base
  | buildValveSet => exact valveSet_inv h
  | decodeBitstream => exact execDecodeBitstream_inv h
  | parseFrame => exact execParseFrame_inv h
  | line0 => exact encodeWith_inv h fun _ _ => rfl
  | line1 => exact encodeWith_inv h fun _ _ => rfl
  | cmdSetZero => exact buildAt_inv (h.setCommand 0x20 0x00) 0
  | cmdSetPercent => exact valveSet_inv h
  | cmdSyncTick => exact buildAt_inv (h.setCommand 0x2C s.args.ext) 0

theorem submitRequest_inv (h : s.Inv) (w : ReqWord) : Answers State.Inv (submitRequest w s) := by
  unfold submitRequest
  split
  · exact exec_inv h _
  · exact unlessFaulted_answers h fun _ => answers_next.mpr (h.raise (by decide))

theorem applyCodeword_inv (h : s.Inv) (w : Byte) : Answers State.Inv (applyCodeword w s) := by
  unfold applyCodeword
  split
  · exact exec_inv h _
  · intro t ht; cases ht

/-! ### The host and the transceiver -/

/-- A write to `ARG_FLAGS` keeps bits 7:4 at 0 (10_state.md R32). -/
theorem flags_masked (v : Byte) : (v &&& 0x0F) &&& 0xF0 = 0 := by
  rw [BitVec.and_assoc]; simp

theorem writeReg_inv (h : s.Inv) (n v : Byte) : (s.writeReg n v).Inv := by
  unfold State.writeReg
  split
  case h_1 => exact { h with }
  case h_9 => exact h.setArgs (flags_masked v)
  case h_10 => exact h
  all_goals exact h.setArgs h.flagsOk

theorem writeRxStep_inv (h : s.Inv) (a v : Byte) : Answers State.Inv (writeRxStep a v s) := by
  unfold writeRxStep
  split
  · intro t ht; cases ht
  · rename_i ha
    exact answers_next.mpr { h with rxOk := Memory.write_wf v h.rxOk (Nat.lt_of_not_le ha) }

theorem readRxStep_inv (h : s.Inv) (a : Byte) : Answers State.Inv (readRxStep a s) := by
  unfold readRxStep
  split
  · intro t ht; cases ht
  · exact answers_next.mpr { h with }

theorem txStart_inv (h : s.Inv) (k : Byte) : Answers State.Inv (txStart k s) :=
  unlessFaulted_answers h fun _ => raiseIf_answers (h.raise (by decide)) fun _ =>
    raiseIf_answers (h.raise (by decide)) fun _ => answers_next.mpr { h with }

theorem transceiverStep_inv (h : s.Inv) : Answers State.Inv (transceiverStep s) := by
  unfold transceiverStep
  split
  · refine withinTx_answers fun _ => ?_
    split <;> exact answers_next.mpr { h with }
  · exact answers_next.mpr h

/-- Whatever is scheduled, running it keeps the invariant. -/
theorem runHostStep_inv (h : s.Inv) (x : HostStep) : Answers State.Inv (runHostStep x s) := by
  cases x with
  | request w => exact submitRequest_inv h w
  | codeword w => exact applyCodeword_inv h w
  | readReq => exact answers_next.mpr { h with }
  | readReg n => exact answers_next.mpr { h with }
  | writeReg n v => exact answers_next.mpr (writeReg_inv h n v)
  | readTx a => exact withinTx_answers fun _ => answers_next.mpr { h with }
  | writeTx a v => exact answers_next.mpr h
  | readRx a => exact readRxStep_inv h a
  | writeRx a v => exact writeRxStep_inv h a v
  | txStart k => exact txStart_inv h k
  | transceiver => exact transceiverStep_inv h
  | setStatsIn r => exact answers_next.mpr { h with }
  | powerOn drives => exact answers_next.mpr (h.powerOn drives)

theorem step_inv (h : s.Inv) : Answers State.Inv (step s) := by
  unfold step
  split
  · exact transceiverStep_inv h
  · rename_i x rest _
    exact runHostStep_inv (s := { s with schedule := rest }) { h with } x

/-- Settles O9: every step answers a state with the invariant, by the entry it takes off the schedule. -/
theorem stepKeepsInvariant : Obligations.StepKeepsInvariant :=
  fun _ t h ht => step_inv h t ht

/-- Settles O8. -/
theorem resetStateSatisfiesInvariant : Obligations.ResetStateSatisfiesInvariant where
  paramsOk := by decide
  txOk := State.reset_memory_wf.1
  rxOk := State.reset_memory_wf.2
  ptrOk := by decide
  txEndOk := by decide
  sentinelOk := by decide
  openNotValid := by decide
  stopOk := by decide
  reasonOk := by decide
  fcodeOk := by decide
  okOk := by decide
  flagsOk := by decide
  kindOk := by decide

end Sys2Proof.Machine
end

section
/-! PROOF. The registers as the host sees them: their reset values, the reserved numbers, what a host write changes, and the bits of
`STATUS` (10_state.md R28 to R40). -/

namespace Sys2Proof.Machine

variable {s : State}

/-! ### The register file -/

/-- A reserved number reads 0 (R38). -/
theorem readReg_reserved {n : Byte} (h : n = 0x00 ∨ 0x1B ≤ n.toNat) : s.readReg n = 0 := by
  have hn : n.toNat = 0 ∨ 0x1B ≤ n.toNat := h.imp_left (congrArg BitVec.toNat)
  unfold State.readReg
  split
  case h_27 => rfl
  all_goals omega

/-- A write to a register that is not RW does nothing (R38). -/
theorem writeReg_readOnly {n : Byte} (v : Byte) (h : n.toNat < 0x09 ∨ 0x12 ≤ n.toNat) : s.writeReg n v = s := by
  unfold State.writeReg
  split
  case h_10 => rfl
  all_goals omega

/-- A host write reaches `RX_LEN` and the argument registers only. -/
theorem writeReg_frame (n v : Byte) :
    s.writeReg n v = { s with rxLen := (s.writeReg n v).rxLen, args := (s.writeReg n v).args } := by
  unfold State.writeReg
  split <;> rfl

/-- An RW register reads what was written to it, `ARG_FLAGS` its low four bits (R30, R32). -/
theorem readReg_writeReg_same {n : Byte} (v : Byte) (hlo : 0x09 ≤ n.toNat) (hhi : n.toNat ≤ 0x11) :
    (s.writeReg n v).readReg n = if n = 0x11 then v &&& 0x0F else v := by
  have h11 : n = 0x11 ↔ n.toNat = 0x11 := BitVec.toNat_inj.symm
  simp only [h11]
  generalize hk : n.toNat = k at *
  simp only [State.readReg, State.writeReg, hk]
  interval_cases k <;> rfl

/-- A write leaves every other register but `STATUS` as it was; `STATUS` mirrors `HC_OK`, which a house code decides (R37). -/
theorem readReg_writeReg_other {n m : Byte} (v : Byte) (hne : m ≠ n) (hstatus : m ≠ 0x01) :
    (s.writeReg n v).readReg m = s.readReg m := by
  have hne' : m.toNat ≠ n.toNat := fun h => hne (BitVec.eq_of_toNat_eq h)
  have hstatus' : m.toNat ≠ 1 := fun h => hstatus (BitVec.eq_of_toNat_eq h)
  unfold State.writeReg
  split <;> unfold State.readReg <;> split
  any_goals rfl
  all_goals omega

/-! ### `STATUS` -/

/-- A flag is the bit at its position and no other. -/
theorem flagBit_getLsbD {i : Nat} (b : Bool) (j : Nat) (hi : i < 8) :
    (flagBit i b).getLsbD j = (b && decide (j = i)) := by
  cases b with
  | false => simp [flagBit]
  | true =>
    have hone : (1 : Byte).getLsbD (j - i) = decide (j - i = 0) := by simp
    rw [flagBit, if_pos rfl, BitVec.getLsbD_shiftLeft, hone]
    grind

theorem hcOk_eq (a : ArgRegs) : hcOk a = (decide (a.hc1.toNat ≤ 99) && decide (a.hc2.toNat ≤ 99)) := rfl

/-! ### The statements -/

/-- Settles O5, register by register. -/
theorem resetStateRegisterValues : Obligations.ResetStateRegisterValues := by
  refine ⟨?_, rfl, rfl, rfl, rfl, rfl, rfl, rfl⟩
  decide +kernel

/-- Settles O53. -/
theorem reservedRegistersReadZero : Obligations.ReservedRegistersReadZero := by
  intro s rest n v
  constructor
  · intro hn hsched
    simp only [step, hsched, runHostStep, readRegStep, readReg_reserved hn]
    rfl
  · intro hn hsched
    simp only [step, hsched, runHostStep, writeRegStep, writeReg_readOnly v hn]

/-- Settles O54, by what a write does to its own register and to the others. -/
theorem writableRegistersReadBack : Obligations.WritableRegistersReadBack := by
  constructor
  · intro s rest n v hlo hhi hsched
    have hframe := writeReg_frame (s := { s with schedule := rest }) n v
    refine ⟨State.writeReg { s with schedule := rest } n v, ?_, readReg_writeReg_same v hlo hhi,
      fun m hne hstatus => ?_, fun a => ?_, fun a => ?_, hframe⟩
    · simp only [step, hsched, runHostStep, writeRegStep]
    · exact readReg_writeReg_other v hne hstatus
    · exact congrArg (·.txByte a) hframe
    · exact congrArg (·.rxByte a) hframe
  · intro s rest r hsched
    simp only [step, hsched, runHostStep, setStatsIn]

/-- Settles O55: each flag is the one bit of `STATUS` at its position. -/
theorem statusBitsMirrorTheFlags : Obligations.StatusBitsMirrorTheFlags := by
  intro s
  have hread : s.readReg 0x01 = statusByte s := rfl
  simp only [hread, statusByte, BitVec.getLsbD_or, flagBit_getLsbD, Nat.reduceLT, hcOk_eq]
  simp

end Sys2Proof.Machine
end

section
/-! PROOF. One scheduled step (20_memory.md R61): the word it decodes, the host's accesses to the buffers inside and outside them
(R50 to R58, 44_control.md R217), and the model's own stops (log 11, log 12). -/

namespace Sys2Proof.Machine

variable {s : State} {r : Result} {x : HostStep} {rest : List HostStep} {i : Instr}

/-! ### The step -/

/-- The step runs the entry at the head of the schedule on the state with that entry taken off. -/
theorem step_scheduled (h : s.schedule = x :: rest) : step s = runHostStep x { s with schedule := rest } := by
  simp only [step, h]

theorem submitRequest_decoded {w : ReqWord} (h : decode (.request w) = some i) : submitRequest w s = exec i s := by
  simp only [submitRequest, h]

theorem applyCodeword_decoded {w : Byte} (h : decode (.codeword w) = some i) : applyCodeword w s = exec i s := by
  simp only [applyCodeword, h]

/-- An encoded word that decodes runs as its instruction, whichever of the two encodings carries it. -/
theorem runHostStep_ofEncoded {w : Encoded} (h : decode w = some i) : runHostStep (.ofEncoded w) s = exec i s := by
  cases w with
  | request w => exact submitRequest_decoded h
  | codeword w => exact applyCodeword_decoded h

/-- A byte that is no row of the table decodes to nothing. -/
theorem decode_codeword_unknown {w : Byte} (h : w ∉ ([0x0C, 0x38, 0x20, 0x26, 0x2C] : List Byte)) :
    decode (.codeword w) = none := by
  simp only [List.mem_cons, List.not_mem_nil, or_false, not_or] at h
  obtain ⟨hline0, hline1, hzero, hpercent, htick⟩ := h
  simp only [decode, decodeCodeword, beq_iff_eq, hline0, hline1, hzero, hpercent, htick, if_false]

/-- A codeword that does not decode is refused (log 11). -/
theorem applyCodeword_unknown {w : Byte} (h : decode (.codeword w) = none) :
    applyCodeword w s = .refused .unknownCodeword := by
  simp only [applyCodeword, h]

/-! ### The accesses to the buffers -/

theorem withinTx_outside {a : Nat} (h : s.params.txSize ≤ a) : withinTx a s r = .fault .txOutside := if_pos h

theorem withinRx_outside (h : s.params.rxSize < s.dec.stop.toNat) : withinRx s r = .fault .rxOutside := if_pos h

theorem readTxStep_inside {a : Byte} (h : a.toNat < s.params.txSize) :
    readTxStep a s = .next (s.setHostData ((s.txByte a.toNat).setWidth 16)) := withinTx_run h

theorem readRxStep_inside {a : Byte} (h : a.toNat < s.params.rxSize) :
    readRxStep a s = .next (s.setHostData ((s.rxByte a.toNat).setWidth 16)) := if_neg (Nat.not_le_of_lt h)

theorem readRxStep_outside {a : Byte} (h : s.params.rxSize ≤ a.toNat) : readRxStep a s = .fault .rxOutside := if_pos h

theorem writeRxStep_inside {a : Byte} (v : Byte) (h : a.toNat < s.params.rxSize) :
    writeRxStep a v s = .next { s with rx := s.rx.write a.toNat v } := if_neg (Nat.not_le_of_lt h)

theorem writeRxStep_outside {a : Byte} (v : Byte) (h : s.params.rxSize ≤ a.toNat) :
    writeRxStep a v s = .fault .rxOutside := if_pos h

theorem transceiverStep_outside (hactive : s.txActive = true) (h : s.params.txSize ≤ s.txIndex) :
    transceiverStep s = .fault .txOutside := by
  rw [transceiverStep, if_pos hactive, withinTx_outside h]

/-! ### The rows that append pairs, as the operation they share -/

theorem exec_encBit (x : Bool) : exec (.encBit x) s = s.encodeWith fun size => appendBit size x := rfl

theorem exec_encByte (v : Byte) : exec (.encByte v) s = s.encodeWith fun size => appendByte size v := rfl

theorem exec_line0 : exec .line0 s = s.encodeWith fun size => appendPairs size [0b11, 0b00] := rfl

theorem exec_line1 : exec .line1 s = s.encodeWith fun size => appendPairs size [0b11, 0b10, 0b00] := rfl

/-! ### Requests in a state no run reaches (log 12) -/

/-- An encoder request that appends stops when `ENC_PTR` is outside TXBUF. -/
theorem encodeWith_outside (append : Nat → Encoder → TxRun) (hf : s.fault = false) (hidle : s.txActive = false)
    (hready : s.enc.ready = true) (h : s.params.txSize ≤ s.enc.ptr.toNat) :
    s.encodeWith append = .fault .txOutside := by
  simp only [State.encodeWith, unlessFaulted_run hf, hready, hidle, Bool.not_true, raiseIf_false, withinTx_outside h]

theorem execEncRaw_outside {v : Byte} (hv : v ≠ 0xFF) (hf : s.fault = false) (hidle : s.txActive = false)
    (hready : s.enc.ready = true) (h : s.params.txSize ≤ s.enc.ptr.toNat) :
    execEncRaw v s = .fault .txOutside := by
  simp only [execEncRaw, unlessFaulted_run hf, hready, hidle, Bool.not_true, beq_eq_false_iff_ne.mpr hv, raiseIf_false,
    withinTx_outside h]

theorem execEncTerm_outside (hf : s.fault = false) (hidle : s.txActive = false) (hready : s.enc.ready = true)
    (h : s.params.txSize ≤ s.enc.ptr.toNat) : execEncTerm s = .fault .txOutside := by
  simp only [execEncTerm, unlessFaulted_run hf, hready, hidle, Bool.not_true, raiseIf_false, withinTx_outside h]

/-- The header's length, its condition as 41_frame_builder.md R153 words it. -/
theorem headerLen_eq (p : Params) (a : ArgRegs) :
    headerLen p a = if p.hdrEn = true ∧ a.thresh.toNat ≤ a.pct.toNat then p.hdrLen else 0 := by
  simp [headerLen, headerWanted, BitVec.le_def]

/-- A wanted trailer passes its check when a record is there for it (R150, R153). -/
theorem trailerCheck_passes
    (h : s.args.flags.getLsbD 0 = true → s.args.flags.getLsbD 3 = true → s.statsIn ≠ none) :
    (trailerWanted s.args && s.statsIn.isNone) = false := by
  simpa [trailerWanted, trlPresent, minstatsEn, Option.isSome_iff_ne_none] using h

/-- `BUILD_VALVE_SET` with its operands in range stops when TXBUF cannot hold the header and a byte after it. -/
theorem valveSet_outside (hf : s.fault = false) (hidle : s.txActive = false) (hpct : s.args.pct.toNat ≤ 100)
    (hlo : 1 ≤ s.args.thresh.toNat) (hhi : s.args.thresh.toNat ≤ 100)
    (htrailer : s.args.flags.getLsbD 0 = true → s.args.flags.getLsbD 3 = true → s.statsIn ≠ none)
    (h : s.params.txSize ≤ headerLen s.params s.args) : s.valveSet = .fault .txOutside := by
  simp only [State.valveSet, unlessFaulted_run hf, decide_eq_false (Nat.not_lt_of_le hpct),
    decide_eq_false (Nat.not_lt_of_le hlo), decide_eq_false (Nat.not_lt_of_le hhi), Bool.or_self,
    trailerCheck_passes htrailer, hidle, raiseIf_false, withinTx_outside h]

/-! ### The statements -/

/-- Settles O4, by taking the word off the schedule and decoding it. -/
theorem stepRunsDecodedInstruction : Obligations.StepRunsDecodedInstruction := by
  refine ⟨fun s w rest i hsched hw => ?_, fun s w rest i hsched hw => ?_, fun s nbits w i hw => ?_⟩
  · exact (step_scheduled hsched).trans (submitRequest_decoded hw)
  · exact (step_scheduled hsched).trans (applyCodeword_decoded hw)
  · have hhead : (s.withFetchWord nbits w).schedule = .ofEncoded (tableWord nbits w) :: s.schedule := rfl
    exact (step_scheduled hhead).trans (runHostStep_ofEncoded hw)

/-- Settles O16, access by access. -/
theorem accessesOutsideTheBuffersStop : Obligations.AccessesOutsideTheBuffersStop := by
  refine ⟨fun s i hf hidle h => ?_, fun s i hf hstop h => ?_, fun s rest a v => ⟨?_, ?_, ?_, ?_, ?_⟩⟩
  · rcases h with ⟨hready, hptr, h⟩ | ⟨hi, hpct, hlo, hhi, htrailer, hlen⟩
    · rcases h with ⟨v, hv, rfl⟩ | ⟨x, rfl⟩ | ⟨v, rfl⟩ | rfl | rfl | rfl
      · exact execEncRaw_outside hv hf hidle hready hptr
      · exact (exec_encBit x).trans (encodeWith_outside _ hf hidle hready hptr)
      · exact (exec_encByte v).trans (encodeWith_outside _ hf hidle hready hptr)
      · exact execEncTerm_outside hf hidle hready hptr
      · exact exec_line0.trans (encodeWith_outside _ hf hidle hready hptr)
      · exact exec_line1.trans (encodeWith_outside _ hf hidle hready hptr)
    · rw [← headerLen_eq] at hlen
      rcases hi with rfl | rfl <;> exact valveSet_outside hf hidle hpct hlo hhi htrailer hlen
  · rcases h with rfl | rfl | rfl <;> exact (unlessFaulted_run hf).trans (withinRx_outside hstop)
  · exact fun ha hsched => (step_scheduled hsched).trans (withinTx_outside ha)
  · exact fun ha hsched => (step_scheduled hsched).trans (readRxStep_outside ha)
  · exact fun ha hsched => (step_scheduled hsched).trans (writeRxStep_outside v ha)
  · exact fun hactive hk hsched => (step_scheduled hsched).trans (transceiverStep_outside hactive hk)
  · exact fun hv hsched => (step_scheduled hsched).trans (applyCodeword_unknown (decode_codeword_unknown hv))

/-- Settles O56: each access is the host's data replaced, or nothing. -/
theorem hostReadsChangeNothing : Obligations.HostReadsChangeNothing := by
  intro s rest
  refine ⟨fun hsched => ?_, fun n hsched => ?_, fun a ha hsched => ?_, fun a ha hsched => ?_, fun a v hsched => ?_⟩
  · exact step_scheduled hsched
  · exact step_scheduled hsched
  · exact (step_scheduled hsched).trans (readTxStep_inside ha)
  · exact (step_scheduled hsched).trans (readRxStep_inside ha)
  · exact step_scheduled hsched

/-- Settles O57, by the law of a buffer read after a write. -/
theorem rxWriteIsSeenByTheNextRead : Obligations.RxWriteIsSeenByTheNextRead := by
  intro s rest a v ha hsched
  refine ⟨{ s with schedule := rest, rx := s.rx.write a.toNat v }, ?_, ?_, fun b hb => ?_, rfl⟩
  · exact (step_scheduled hsched).trans (writeRxStep_inside v ha)
  · exact Memory.read_write_same s.rx a.toNat v
  · exact Memory.read_write_other s.rx v hb

end Sys2Proof.Machine
end

section
/-! PROOF. TXBUF while a transmission runs (20_memory.md R66, 70_reset_and_hazards.md R272): every TX-writing request ends at or
before its check for `TX_BUSY`, and no other instruction writes TXBUF. -/

namespace Sys2Proof.Machine

variable {P : State → Prop} {s : State} {r : Result} {i : Instr}

/-- TXBUF is as before. -/
def KeepsTx (s t : State) : Prop := t.enc.tx = s.enc.tx

/-- While a transmission runs nothing behind the check for `TX_BUSY` is reached. -/
theorem raiseIfBusy_answers (hactive : s.txActive = true) (hraise : P (s.raise .txBusy)) :
    Answers P (raiseIf s.txActive .txBusy s r) :=
  raiseIf_answers hraise fun hidle => absurd hactive (by simp [hidle])

theorem encodeWith_keepsTx (hactive : s.txActive = true) (append : Nat → Encoder → TxRun) :
    Answers (KeepsTx s) (s.encodeWith append) :=
  unlessFaulted_answers rfl fun _ => raiseIf_answers rfl fun _ => raiseIfBusy_answers hactive rfl

theorem execEncInit_keepsTx (hactive : s.txActive = true) (pos : Byte) : Answers (KeepsTx s) (execEncInit pos s) :=
  unlessFaulted_answers rfl fun _ => raiseIf_answers rfl fun _ => raiseIfBusy_answers hactive rfl

theorem execEncRaw_keepsTx (hactive : s.txActive = true) (v : Byte) : Answers (KeepsTx s) (execEncRaw v s) :=
  unlessFaulted_answers rfl fun _ => raiseIf_answers rfl fun _ => raiseIf_answers rfl fun _ =>
    raiseIfBusy_answers hactive rfl

theorem execEncTerm_keepsTx (hactive : s.txActive = true) : Answers (KeepsTx s) (execEncTerm s) :=
  unlessFaulted_answers rfl fun _ => raiseIf_answers rfl fun _ => raiseIfBusy_answers hactive rfl

theorem buildAt_keepsTx (hactive : s.txActive = true) (base : Byte) : Answers (KeepsTx s) (s.buildAt base) :=
  unlessFaulted_answers rfl fun _ => raiseIf_answers rfl fun _ => raiseIfBusy_answers hactive rfl

theorem valveSet_keepsTx (hactive : s.txActive = true) : Answers (KeepsTx s) s.valveSet :=
  unlessFaulted_answers rfl fun _ => raiseIf_answers rfl fun _ => raiseIf_answers rfl fun _ => raiseIf_answers rfl fun _ =>
    raiseIfBusy_answers hactive rfl

/-- The decoder's side and `CHECKSUM` keep TXBUF at all times. -/
theorem decoderSide_keepsTx (hk : kindOf i = .decoder ∨ kindOf i = .checksum) : Answers (KeepsTx s) (exec i s) :=
  fun t ht => congrArg Encoder.tx ((exec_change i t ht).enc hk)

/-- While a transmission runs every instruction keeps TXBUF. -/
theorem exec_keepsTx (hactive : s.txActive = true) (i : Instr) : Answers (KeepsTx s) (exec i s) := by
  cases i with
  | reset => exact answers_next.mpr rfl
  | encInit pos => exact execEncInit_keepsTx hactive pos
  | encRaw v => exact execEncRaw_keepsTx hactive v
  | encBit x => rw [exec_encBit]; exact encodeWith_keepsTx hactive _
  | encByte v => rw [exec_encByte]; exact encodeWith_keepsTx hactive _
  | line0 => rw [exec_line0]; exact encodeWith_keepsTx hactive _
  | line1 => rw [exec_line1]; exact encodeWith_keepsTx hactive _
  | encTerm => exact execEncTerm_keepsTx hactive
  | decInit | decPair | decBit | decByte | decodeBitstream | parseFrame => exact decoderSide_keepsTx (.inl rfl)
  | checksum => exact decoderSide_keepsTx (.inr rfl)
  | buildBitstream base => exact buildAt_keepsTx hactive base
  | buildValveSet | cmdSetPercent => exact valveSet_keepsTx hactive
  | cmdSetZero => exact buildAt_keepsTx (s := s.setCommand 0x20 0x00) hactive 0
  | cmdSyncTick => exact buildAt_keepsTx (s := s.setCommand 0x2C s.args.ext) hactive 0

/-- Settles O18, by the check for `TX_BUSY` on the encoder's side and the frame of the other instructions. -/
theorem noTxWriteDuringTransmission : Obligations.NoTxWriteDuringTransmission := by
  intro i s t hactive h
  have htx : t.enc.tx = s.enc.tx := exec_keepsTx hactive i t h
  exact ⟨fun a => by rw [State.txByte, State.txByte, htx], htx, (exec_change i t h).surroundings.txActive.trans hactive⟩

end Sys2Proof.Machine
end

section
/-! PROOF. The decoder and the encoder of words (30_encoding.md R80 to R83): the fields of a request word, the words that
decode, and that decoding and encoding invert each other. -/

namespace Sys2Proof

/-! ### The fields of a request word (R80) -/

theorem requestWord_op (op : BitVec 4) (b : Bool) (imm : Byte) : (requestWord op b imm).extractLsb' 12 4 = op :=
  BitVec.extractLsb'_append_eq_left (w' := 3 + (1 + 8))

theorem requestWord_rsv (op : BitVec 4) (b : Bool) (imm : Byte) : (requestWord op b imm).extractLsb' 9 3 = 0 :=
  (BitVec.extractLsb'_append_eq_of_add_le (by decide)).trans (BitVec.extractLsb'_append_eq_left (w' := 1 + 8))

theorem requestWord_b (op : BitVec 4) (b : Bool) (imm : Byte) : (requestWord op b imm).getLsbD 8 = b := by
  simp only [requestWord, BitVec.getLsbD_append]
  simp

theorem requestWord_imm (op : BitVec 4) (b : Bool) (imm : Byte) : (requestWord op b imm).extractLsb' 0 8 = imm := by
  rw [requestWord, BitVec.extractLsb'_append_eq_of_add_le (by decide), BitVec.extractLsb'_append_eq_of_add_le (by decide),
    BitVec.extractLsb'_append_eq_of_add_le (by decide), BitVec.extractLsb'_eq_self]

/-- A word whose `RSV` is 0 is the one laid out from its other fields. -/
theorem requestWord_fields {w : ReqWord} (h : w.extractLsb' 9 3 = 0) :
    requestWord (w.extractLsb' 12 4) (w.getLsbD 8) (w.extractLsb' 0 8) = w := by
  have hrsv : 0#3 = w.extractLsb' 9 3 := h.symm
  have hb : BitVec.ofBool (w.getLsbD 8) = w.extractLsb' 8 1 := by
    ext i hi
    obtain rfl : i = 0 := by omega
    simp
  rw [requestWord, hrsv, hb, BitVec.extractLsb'_append_extractLsb'_eq_extractLsb' (by decide),
    BitVec.extractLsb'_append_extractLsb'_eq_extractLsb' (by decide),
    BitVec.extractLsb'_append_extractLsb'_eq_extractLsb' (by decide), BitVec.extractLsb'_eq_self]

/-! ### The operation-code map (R81, R83)

A case split of `decodeOp` names the operation code `k` `h_(k+1)`; the last, `h_16`, is every code from 0xF on. -/

theorem bareRequest_eq_some {b : Bool} {imm : Byte} {i j : Instr} :
    bareRequest b imm i = some j ↔ b = false ∧ imm = 0 ∧ i = j := by
  cases b <;> simp [bareRequest]

theorem immRequest_eq_some {b : Bool} {i j : Instr} : immRequest b i = some j ↔ b = false ∧ i = j := by
  cases b <;> simp [immRequest]

theorem bareRequest_eq_none {b : Bool} {imm : Byte} {i : Instr} :
    bareRequest b imm i = none ↔ b = true ∨ imm ≠ 0 := by
  cases b <;> simp [bareRequest]

theorem immRequest_eq_none {b : Bool} {i : Instr} : immRequest b i = none ↔ b = true := by
  cases b <;> simp [immRequest]

/-- An operation code with its operands decodes only to an instruction whose word is laid out from them. -/
theorem encode_of_decodeOp {op : Nat} {b : Bool} {imm : Byte} {i : Instr} (h : decodeOp op b imm = some i) :
    encode i = .request (requestWord (BitVec.ofNat 4 op) b imm) := by
  unfold decodeOp at h
  split at h
  case h_4 =>
    obtain ⟨himm, hi⟩ := Option.ite_none_right_eq_some.mp h
    obtain rfl : imm = 0 := eq_of_beq himm
    cases hi
    rfl
  case h_2 | h_3 | h_5 | h_7 | h_12 =>
    obtain ⟨rfl, rfl⟩ := immRequest_eq_some.mp h
    rfl
  case h_16 => cases h
  all_goals
    obtain ⟨rfl, rfl, rfl⟩ := bareRequest_eq_some.mp h
    rfl

/-- The illegal words of R83 with `RSV = 0`: the reserved operation code, a `B` or an `IMM8` where it is unused. -/
theorem decodeOp_eq_none {op : Nat} {b : Bool} {imm : Byte} :
    decodeOp op b imm = none ↔ 15 ≤ op ∨ (b = true ∧ op ≠ 3) ∨ (imm ≠ 0 ∧ op ∉ [1, 2, 4, 6, 11]) := by
  unfold decodeOp
  split
  case h_4 => simp
  case h_2 | h_3 | h_5 | h_7 | h_12 => simp [immRequest_eq_none]
  case h_16 =>
    simp only [imp_false] at *
    exact iff_of_true trivial (.inl (by omega))
  all_goals simp [bareRequest_eq_none]

theorem decodeOp_toNat_eq_none (op : BitVec 4) (b : Bool) (imm : Byte) :
    decodeOp op.toNat b imm = none ↔
      op = 0xF ∨ (b = true ∧ op ≠ 0x3) ∨ (imm ≠ 0 ∧ op ∉ ([0x1, 0x2, 0x4, 0x6, 0xB] : List (BitVec 4))) := by
  have hreserved : op = 0xF ↔ 15 ≤ op.toNat := by bv_omega
  rw [decodeOp_eq_none, hreserved]
  simp [BitVec.toNat_eq]

/-! ### Words and instructions (R80 to R83) -/

theorem decodeRequest_requestWord (op : BitVec 4) (b : Bool) (imm : Byte) :
    decodeRequest (requestWord op b imm) = decodeOp op.toNat b imm := by
  simp only [decodeRequest, requestWord_op, requestWord_rsv, requestWord_b, requestWord_imm, beq_self_eq_true, if_true]

theorem decodeRequest_eq_some {w : ReqWord} {i : Instr} :
    decodeRequest w = some i ↔
      w.extractLsb' 9 3 = 0 ∧ decodeOp (w.extractLsb' 12 4).toNat (w.getLsbD 8) (w.extractLsb' 0 8) = some i := by
  simp only [decodeRequest, beq_iff_eq, Option.ite_none_right_eq_some]

/-- The words the decoder has no instruction for are those R83 calls illegal. -/
theorem decodeRequest_eq_none (w : ReqWord) :
    decodeRequest w = none ↔
      w.extractLsb' 12 4 = 0xF ∨ w.extractLsb' 9 3 ≠ 0 ∨ (w.getLsbD 8 = true ∧ w.extractLsb' 12 4 ≠ 0x3) ∨
        (w.extractLsb' 0 8 ≠ 0 ∧ w.extractLsb' 12 4 ∉ ([0x1, 0x2, 0x4, 0x6, 0xB] : List (BitVec 4))) := by
  by_cases hrsv : w.extractLsb' 9 3 = 0
  · have hrun : decodeRequest w = decodeOp (w.extractLsb' 12 4).toNat (w.getLsbD 8) (w.extractLsb' 0 8) :=
      if_pos (beq_iff_eq.mpr hrsv)
    rw [hrun, decodeOp_toNat_eq_none]
    simp only [hrsv, ne_eq, not_true_eq_false, false_or]
  · have hnone : decodeRequest w = none := if_neg (beq_iff_eq.not.mpr hrsv)
    exact iff_of_true hnone (.inr (.inl hrsv))

/-- Decoding the word of an instruction gives it back. -/
theorem decode_encode (i : Instr) : decode (encode i) = some i := by
  cases i with
  | encInit | encRaw | encBit | encByte | decInit | buildBitstream => exact decodeRequest_requestWord _ _ _
  | _ => rfl

/-- A request word that decodes is the word of its instruction. -/
theorem encode_of_decodeRequest {w : ReqWord} {i : Instr} (h : decodeRequest w = some i) : encode i = .request w := by
  obtain ⟨hrsv, hop⟩ := decodeRequest_eq_some.mp h
  rw [encode_of_decodeOp hop, BitVec.ofNat_toNat, BitVec.setWidth_eq, requestWord_fields hrsv]

/-- A codeword that decodes is the codeword of its instruction. -/
theorem encode_of_decodeCodeword {w : Byte} {i : Instr} (h : decodeCodeword w = some i) : encode i = .codeword w := by
  simp only [decodeCodeword, beq_iff_eq] at h
  split_ifs at h with hline0 hline1 hzero hpercent htick <;> (cases h; subst w; rfl)

/-- A word that decodes is the word of its instruction. -/
theorem encode_of_decode {w : Encoded} {i : Instr} (h : decode w = some i) : encode i = w := by
  cases w with
  | request w => exact encode_of_decodeRequest h
  | codeword w => exact encode_of_decodeCodeword h

end Sys2Proof

namespace Sys2Proof.Machine

/-- A word that does not decode is taken as an illegal request (R83). -/
theorem submitRequest_illegal {s : State} {w : ReqWord} (h : decode (.request w) = none) :
    submitRequest w s = illegalRequest s := by
  simp only [submitRequest, h]

/-! ### The statements -/

/-- Settles O1, by the fields of a request word and the operation-code map. -/
theorem decodeAndEncodeAgree : Obligations.DecodeAndEncodeAgree :=
  ⟨decode_encode, fun _ _ => encode_of_decode⟩

/-- Settles O2: the decoder's `none` is R83's condition, and such a word raises `ILLEGAL_REQ` when it comes to run. -/
theorem illegalWordsRaiseIllegalReq : Obligations.IllegalWordsRaiseIllegalReq := by
  intro w
  rw [← decodeRequest_eq_none]
  refine ⟨fun hnone => ⟨hnone, fun s rest hsched hf => ?_⟩, fun hsome => ?_⟩
  · calc step s = submitRequest w { s with schedule := rest } := step_scheduled hsched
      _ = illegalRequest { s with schedule := rest } := submitRequest_illegal hnone
      _ = .next (State.raise { s with schedule := rest } .illegalReq) := unlessFaulted_run hf
  · obtain ⟨i, hi⟩ := Option.ne_none_iff_exists'.mp hsome
    exact ⟨i, hi, encode_of_decodeRequest hi⟩

/-- Settles O3, by decoding each word. -/
theorem sampleWordsDecode : Obligations.SampleWordsDecode := by
  unfold Obligations.SampleWordsDecode
  decide

end Sys2Proof.Machine
end

section
/-! PROOF. The encoder requests that append pairs (30_encoding.md R70, R71, R74): with room for its pairs each lays them down and
changes nothing else. -/

namespace Sys2Proof.Machine

variable {s : State}

/-! ### A request that appends pairs (40_line_code.md R103, R104) -/

/-- `t` is `s` with the pairs `ps` laid down by an encoder request that succeeded: what the stream since any earlier index and the
cursor are, which bytes are left alone, and that the rest of `s` is kept. -/
structure Appended (s t : State) (ps : List Pair) : Prop where
  stream : ∀ base, base ≤ s.enc.ptr.toNat → t.enc.stream base = s.enc.stream base ++ ps
  ptr : t.enc.ptr.toNat = s.enc.ptr.toNat + s.enc.bytesFilledBy ps.length
  outside : ∀ a, a < s.enc.ptr.toNat ∨ s.enc.ptr.toNat + s.enc.bytesFilledBy ps.length < a → t.txByte a = s.txByte a
  rest : t = { s with enc := { s.enc with tx := t.enc.tx, ptr := t.enc.ptr, txValid := false }, ok := true }

/-- An encoder request past its checks runs its append (60_exceptions.md R234). -/
theorem encodeWith_run (append : Nat → Encoder → TxRun) (hf : s.fault = false) (hready : s.enc.ready = true)
    (hidle : s.txActive = false) (hptr : s.enc.ptr.toNat < s.params.txSize) :
    s.encodeWith append = s.finishTx (append s.params.txSize (s.enc.setValid false)) := by
  simp only [State.encodeWith, unlessFaulted_run hf, hready, hidle, Bool.not_true, raiseIf_false, withinTx_run hptr]

theorem LaidDown.appended {e : Encoder} {ps : List Pair} (h : LaidDown s.params.txSize (s.enc.setValid false) e ps) :
    Appended s ((s.setEnc e).setOk true) ps where
  stream := h.stream
  ptr := h.ptr
  outside := fun a ha => h.outside a (by rw [h.ptr]; exact ha)
  rest := by
    obtain ⟨tx, ptr, ready, txEnd, txValid⟩ := e
    obtain rfl : ready = s.enc.ready := h.ready
    obtain rfl : txEnd = s.enc.txEnd := h.txEnd
    obtain rfl : txValid = false := h.txValid
    rfl

/-- An encoder request whose pairs fit lays them down. -/
theorem encodeWith_appended {append : Nat → Encoder → TxRun} {ps : List Pair}
    (happend : append s.params.txSize (s.enc.setValid false) = appendPairs s.params.txSize ps (s.enc.setValid false))
    (hf : s.fault = false) (hready : s.enc.ready = true) (hidle : s.txActive = false) (hsize : s.params.txSize ≤ 255)
    (hfits : s.enc.ptr.toNat + s.enc.bytesFilledBy ps.length < s.params.txSize) :
    ∃ t, s.encodeWith append = .next t ∧ Appended s t ps := by
  have hptr : s.enc.ptr.toNat < s.params.txSize := by omega
  rw [encodeWith_run append hf hready hidle hptr, happend]
  rcases appendPairs_cases ps (e := s.enc.setValid false) hsize hptr with ⟨e, he, hlaid, -⟩ | ⟨e, -, -, hfull⟩
  · exact ⟨(s.setEnc e).setOk true, by rw [he]; rfl, hlaid.appended⟩
  · exact absurd hfits (Nat.not_lt_of_le hfull)

/-! ### The pairs of a bit and of a byte (30_encoding.md R70, R71, R74) -/

theorem lineSymbol_length (x : Bool) : (lineSymbol x).length = if x then 3 else 2 := by cases x <;> rfl

theorem weight_eq (v : Byte) : weight v = popcount v + (if popcount v % 2 = 1 then 1 else 0) := by
  rcases Nat.mod_two_eq_zero_or_one (popcount v) with h | h <;> simp [weight, parity, h]

theorem appendByte_eq (size : Nat) (v : Byte) (e : Encoder) :
    appendByte size v e = appendPairs size (linePairs (encodedByte v)) e := appendBits_eq size (encodedByte v) e

/-! ### The statements -/

/-- Settles O22: `ENC_BIT` appends the pairs of its bit's symbol. -/
theorem encBitAppendsItsSymbol : Obligations.EncBitAppendsItsSymbol := by
  intro s x hf hready hidle hsize hfits
  rw [← lineSymbol_length] at hfits ⊢
  obtain ⟨t, ht, happ⟩ := encodeWith_appended (append := fun size => appendBit size x) rfl hf hready hidle hsize hfits
  exact ⟨t, ht, happ.stream, happ.ptr, happ.outside, happ.rest⟩

/-- Settles O23: each of the two rows appends the pairs it names. -/
theorem lineRowsAppendTheirPairs : Obligations.LineRowsAppendTheirPairs := by
  intro s i ps hrow hf hready hidle hsize hfits
  have hexec : exec i s = s.encodeWith fun size => appendPairs size ps := by
    rcases hrow with ⟨rfl, rfl⟩ | ⟨rfl, rfl⟩
    · exact exec_line0
    · exact exec_line1
  obtain ⟨t, ht, happ⟩ := encodeWith_appended (append := fun size => appendPairs size ps) rfl hf hready hidle hsize hfits
  exact ⟨t, hexec.trans ht, happ.stream, happ.outside, happ.rest⟩

/-- Settles O24: `ENC_BYTE` appends the pairs of the byte's nine bits, of which there are `18 + weight(v)`. -/
theorem encByteAppendsItsEncodedByte : Obligations.EncByteAppendsItsEncodedByte := by
  refine ⟨fun v => ?_, fun s v hf hready hidle hsize hfits => ?_⟩
  · obtain ⟨heven, hle⟩ := weight_bounds v
    exact ⟨heven, hle, weight_eq v⟩
  rw [← encodedByte_length] at hfits ⊢
  obtain ⟨t, ht, happ⟩ := encodeWith_appended (append := fun size => appendByte size v) (appendByte_eq _ v _)
    hf hready hidle hsize hfits
  exact ⟨t, linePairs (encodedByte v), ht, rfl, rfl, happ.stream, happ.ptr, happ.outside, happ.rest⟩

end Sys2Proof.Machine
end

section
/-! PROOF. The decode of one bit from an illegal pair sequence (30_encoding.md R73, 40_line_code.md R122): the failure recorded and
where the cursor stands. -/

namespace Sys2Proof.Machine

variable {rx : Memory} {d : Decoder} {rest : List Pair}

/-! ### Illegal pair sequences -/

/-- The pairs `ps` are an illegal start of a symbol, wrong at their last pair, and `r` is its reason (R73(a) to (c)). -/
def IllegalPairs (ps : List Pair) (r : FailReason) : Prop :=
  (∃ p1, ps = [p1] ∧ p1 ≠ 0b11 ∧ r = .badPair1) ∨
  (∃ p2, ps = [0b11, p2] ∧ (p2 = 0b01 ∨ p2 = 0b11) ∧ r = .badPair2) ∨
  (∃ p3, ps = [0b11, 0b10, p3] ∧ p3 ≠ 0b00 ∧ r = .badPair3)

/-- `ReadBit` with an illegal pair sequence ahead reads up to its wrong pair and fails with its reason (R122). -/
theorem readBit_illegal {ps : List Pair} {r : FailReason} (hbad : IllegalPairs ps r) (hok : d.failed = false)
    (h : d.ahead rx = ps ++ rest) :
    ∃ d', readBit rx d = (false, d'.fail r) ∧ Consumed rx d d' ps ∧ d'.ahead rx = rest := by
  rcases hbad with ⟨p1, rfl, hp1, rfl⟩ | ⟨p2, rfl, hp2, rfl⟩ | ⟨p3, rfl, hp3, rfl⟩
  · have hp11 : p1 ≠ 3#2 := hp1
    obtain ⟨e1, c1, a1⟩ := readPair_cons hok h
    exact ⟨_, by simp [readBit, hok, e1, c1.ok, hp11], c1, a1⟩
  · have hp00 : p2 ≠ 0#2 := by rcases hp2 with rfl | rfl <;> decide
    have hp10 : p2 ≠ 2#2 := by rcases hp2 with rfl | rfl <;> decide
    obtain ⟨e1, c1, a1⟩ := readPair_cons hok (q := 0b11) (rest := p2 :: rest) h
    obtain ⟨e2, c2, a2⟩ := readPair_cons c1.ok a1
    exact ⟨_, by simp [readBit, hok, e1, c1.ok, e2, c2.ok, hp00, hp10], c1.trans c2, a2⟩
  · have hp00 : p3 ≠ 0#2 := hp3
    obtain ⟨e1, c1, a1⟩ := readPair_cons hok (q := 0b11) (rest := 0b10 :: p3 :: rest) h
    obtain ⟨e2, c2, a2⟩ := readPair_cons c1.ok a1
    obtain ⟨e3, c3, a3⟩ := readPair_cons c2.ok a2
    exact ⟨_, by simp [readBit, hok, e1, c1.ok, e2, c2.ok, e3, c3.ok, hp00], (c1.trans c2).trans c3, a3⟩

/-! ### `DEC_BIT` (R127) -/

/-- `DEC_BIT` past its checks ends with what `ReadBit` answers. -/
theorem execDecBit_run {s : State} (hf : s.fault = false) (hstop : s.dec.stop.toNat ≤ s.params.rxSize) :
    exec .decBit s =
      s.finishRead ((BitVec.ofBool (readBit s.rx s.dec).1).setWidth 8) (readBit s.rx s.dec).2 :=
  (unlessFaulted_run hf).trans (withinRx_run hstop)

/-- Settles O30, by what `ReadBit` answers on an illegal pair sequence. -/
theorem illegalPairsFailTheDecode : Obligations.IllegalPairsFailTheDecode := by
  intro s hf hstop hok ps rest r hahead hbad
  obtain ⟨d, hread, hpairs, hrest⟩ := readBit_illegal hbad hok hahead
  rw [Decoder.fail_of_ok hpairs.ok] at hread
  refine ⟨_, by rw [execDecBit_run hf hstop, hread]; rfl, rfl, hrest, hpairs.pos, ?_⟩
  have hstop' : d.stop = s.dec.stop := hpairs.stop
  obtain ⟨ptr, mask, stop, failed, reason⟩ := d
  obtain rfl : stop = s.dec.stop := hstop'
  rfl

end Sys2Proof.Machine
end

section
/-! PROOF. The frame `BUILD_BITSTREAM` lays down (30_encoding.md R75 to R78): its pairs in TXBUF, and the bytes they make. -/

namespace Sys2Proof.Machine

variable {s t : State}

/-! ### The build (41_frame_builder.md R151) -/

/-- The state a completed build leaves, the encoder `e` having laid its frame down (R151). -/
def State.built (s : State) (e : Encoder) : State :=
  ((s.setCsum (frameChecksum s.params s.args)).setEnc (e.terminate.setValid true)).setOk true

@[simp] theorem State.built_params (s : State) (e : Encoder) : (s.built e).params = s.params := rfl

/-- A frame that fits is laid down from `base` on and terminated. -/
theorem buildAt_built {base : Byte} (hf : s.fault = false) (hidle : s.txActive = false) (hsize : s.params.txSize ≤ 255)
    (hfits : base.toNat + frameLen s.params s.args + 1 ≤ s.params.txSize) :
    ∃ e, s.buildAt base = .next (s.built e) ∧
      LaidDown s.params.txSize (s.enc.start base) e (linePairs (frameBits s.params s.args)) := by
  have hbase : base.toNat < s.params.txSize := by omega
  rcases buildBody_cases (frameBytes s.params s.args) base s.enc hsize hbase with ⟨e, he, hlaid, -⟩ | ⟨e, -, -, hfull⟩
  · refine ⟨e, ?_, hlaid⟩
    rw [State.buildAt, unlessFaulted_run hf, decide_eq_false (Nat.not_le_of_lt hbase), hidle, he]
    rfl
  · rw [← frameBits_eq, frameBits_length, ← frameLen_eq] at hfull
    omega

/-- The frame's pairs before the sentinel are those of the stream, less the ones of the byte the sentinel replaces (R76). -/
theorem LaidDown.holds_framePairs {base : Byte} {e : Encoder} {p : Params} {a : ArgRegs}
    (h : LaidDown s.params.txSize (s.enc.start base) e (linePairs (frameBits p a))) :
    e.ptr.toNat = base.toNat + frameLen p a ∧ e.tx.pairs base.toNat (frameLen p a) = framePairs p a := by
  have hempty : (s.enc.start base).stream base.toNat = [] := by
    simp [Encoder.stream, Encoder.current, Memory.pairs, Memory.readList]
  have hfill : pairsFilled (s.enc.start base).current = 0 := by simp [Encoder.current]
  have hptr : e.ptr.toNat = base.toNat + frameLen p a := by
    rw [h.ptr, hfill, frameBits_length, frameLen_eq, Nat.zero_add]
    rfl
  have hstream : e.stream base.toNat = linePairs (frameBits p a) := by
    simpa [hempty] using h.stream base.toNat le_rfl
  refine ⟨hptr, ?_⟩
  rw [framePairs, ← hstream, Encoder.stream, hptr, Nat.add_sub_cancel_left, List.take_left' (Memory.pairs_length _ _ _)]

/-- Settles O36: the frame's pairs are laid down and the sentinel put after the completed bytes. -/
theorem buildBitstreamLaysDownTheFrame : Obligations.BuildBitstreamLaysDownTheFrame := by
  intro s base hf hidle hsize hfits
  obtain ⟨e, hrun, hlaid⟩ := buildAt_built hf hidle hsize hfits
  obtain ⟨hptr, hpairs⟩ := hlaid.holds_framePairs
  have hread : ∀ a, a ≠ e.ptr.toNat → (s.built e).txByte a = e.tx.read a := fun a ha =>
    Memory.read_write_other e.tx sentinel ha
  refine ⟨s.built e, hrun, ⟨?_, ?_⟩, hptr, fun a ha => ?_, rfl⟩
  · exact (Memory.pairs_congr fun k (hk : k < frameLen s.params s.args) => hread _ (by omega)).trans hpairs
  · rw [State.built_params, ← hptr]
    exact Memory.read_write_same e.tx e.ptr.toNat sentinel
  · rw [hread a (by omega), hlaid.outside a (by rw [hptr]; exact ha)]
    exact Memory.read_write_other s.enc.tx sentinel (by omega)

/-! ### The bytes of a line code (R78) -/

/-- A pair `q` that may come right after the pair `p` in a sequence of symbols: `11` starts one, `10` goes on with it, `00` ends
it (R70, R71). -/
def MayFollow (p q : Pair) : Prop := (p = 0b11 ∧ (q = 0b10 ∨ q = 0b00)) ∨ (p = 0b10 ∧ q = 0b00) ∨ (p = 0b00 ∧ q = 0b11)

/-- After a `00` the pairs of one logical bit after another come in the symbols' order. -/
theorem linePairs_chain (bits : List Bool) : (0b00 :: linePairs bits).IsChain MayFollow := by
  induction bits with
  | nil => exact List.isChain_singleton _
  | cons x xs ih =>
    cases x <;> simpa [linePairs, lineSymbol, MayFollow] using ih

/-- Four pairs in the symbols' order make one of the seven bytes. -/
theorem lineByte_of_chain (b : Byte) (h : (bytePairs b).IsChain MayFollow) :
    b ∈ ([0x33, 0x38, 0x8C, 0x8E, 0xCC, 0xCE, 0xE3] : List Byte) := by
  revert b
  unfold MayFollow
  decide +kernel

/-- The pairs of a byte stand among those of its buffer from an earlier index on. -/
theorem Memory.pairs_split (m : Memory) {a base n : Nat} (hlo : base ≤ a) (hhi : a < base + n) :
    ∃ before after, m.pairs base n = before ++ bytePairs (m.read a) ++ after := by
  obtain ⟨k, rfl⟩ := Nat.exists_eq_add_of_le hlo
  obtain ⟨j, rfl⟩ := Nat.exists_eq_add_of_le (show k + 1 ≤ n by omega)
  exact ⟨_, _, by rw [Memory.pairs_append, Memory.pairs_succ]⟩

/-- The pairs of a frame come in the symbols' order. -/
theorem framePairs_chain (p : Params) (a : ArgRegs) : (framePairs p a).IsChain MayFollow :=
  (linePairs_chain (frameBits p a)).tail.take _

/-! ### The first bytes of a frame (R75, R78) -/

/-- A byte is its four pairs in wire order (20_memory.md R55). -/
theorem pairs_of_byte (b : Byte) : (pairAt b 0 ++ (pairAt b 1 ++ (pairAt b 2 ++ pairAt b 3)) : BitVec 8) = b := by
  simp only [pairAt]
  rw [BitVec.extractLsb'_append_extractLsb'_eq_extractLsb' (by decide),
    BitVec.extractLsb'_append_extractLsb'_eq_extractLsb' (by decide),
    BitVec.extractLsb'_append_extractLsb'_eq_extractLsb' (by decide)]
  exact BitVec.extractLsb'_eq_self

theorem bytePairs_injective : Function.Injective bytePairs := by
  intro b c h
  simp only [bytePairs, List.cons.injEq] at h
  obtain ⟨h0, h1, h2, h3, -⟩ := h
  rw [← pairs_of_byte b, ← pairs_of_byte c, h0, h1, h2, h3]

theorem Memory.pairs_cons (m : Memory) (a n : Nat) :
    m.pairs a (n + 1) = bytePairs (m.read a) ++ m.pairs (a + 1) n := rfl

/-- The bytes whose pairs stand in a buffer from `a` on are the buffer's. -/
theorem Memory.read_of_pairs {m : Memory} {vs : List Byte} {rest : List Pair} {a n : Nat} (hn : vs.length ≤ n)
    (h : m.pairs a n = vs.flatMap bytePairs ++ rest) (k : Nat) (hk : k < vs.length) : m.read (a + k) = vs[k] := by
  induction vs generalizing a n k with
  | nil => exact absurd hk (Nat.not_lt_zero k)
  | cons v vs ih =>
    obtain ⟨n, rfl⟩ := Nat.exists_eq_add_of_le' (Nat.le_of_add_left_le hn)
    rw [Memory.pairs_cons, List.flatMap_cons, List.append_assoc] at h
    obtain ⟨hbyte, htail⟩ := List.append_inj h rfl
    cases k with
    | zero => exact bytePairs_injective hbyte
    | succ k =>
      rw [show a + (k + 1) = a + 1 + k by omega]
      exact ih (Nat.le_of_succ_le_succ hn) htail k (Nat.lt_of_succ_lt_succ hk)

/-- The bytes a frame begins with: the preamble, then the lead bit's pairs `11 10 00` and the `11` of the symbol after it. -/
def frameHead : List Byte := List.replicate 6 preambleByte ++ [0xE3]

theorem linePairs_cons_head (x : Bool) (xs : List Bool) : ∃ rest, linePairs (x :: xs) = 0b11 :: rest := by
  cases x <;> exact ⟨_, rfl⟩

/-- A frame's bits begin with the twelve preamble 0s, the lead 1 and one bit more. -/
theorem frameBits_head (p : Params) (a : ArgRegs) :
    ∃ x xs, frameBits p a = List.replicate 12 false ++ (true :: x :: xs) := by
  simp only [frameBits, frameBytes, encodedByte, byteBits, List.flatMap_cons, List.append_assoc, List.cons_append,
    List.nil_append]
  exact ⟨_, _, rfl⟩

theorem linePairs_frameBits_head (p : Params) (a : ArgRegs) :
    ∃ rest, linePairs (frameBits p a) = frameHead.flatMap bytePairs ++ rest := by
  obtain ⟨x, xs, hbits⟩ := frameBits_head p a
  obtain ⟨rest, hnext⟩ := linePairs_cons_head x xs
  have hlead : linePairs (true :: x :: xs) = bytePairs 0xE3 ++ rest := by
    rw [show linePairs (true :: x :: xs) = lineSymbol true ++ linePairs (x :: xs) from rfl, hnext]
    rfl
  exact ⟨rest, by
    rw [hbits, linePairs_append, hlead, ← preamble_pairs, frameHead, List.flatMap_append, List.append_assoc]; rfl⟩

/-- The completed bytes of a frame are long enough to hold its first seven. -/
theorem framePairs_head (p : Params) (a : ArgRegs) : ∃ rest, framePairs p a = frameHead.flatMap bytePairs ++ rest := by
  obtain ⟨rest, hhead⟩ := linePairs_frameBits_head p a
  have hlen : (frameHead.flatMap bytePairs).length ≤ 4 * frameLen p a := by
    rw [show (frameHead.flatMap bytePairs).length = 28 from rfl, frameLen_eq]
    omega
  exact ⟨_, by rw [framePairs, hhead, List.take_append, List.take_of_length_le hlen]⟩

/-! ### A build that succeeded -/

/-- A build outside the fault state that raises no fault had its frame fit, and no transmission was running. -/
theorem buildAt_success {base : Byte} (hf : s.fault = false) (hsize : s.params.txSize ≤ 255)
    (h : s.buildAt base = .next t) (hok : t.fault = false) :
    s.txActive = false ∧ base.toNat + frameLen s.params s.args + 1 ≤ s.params.txSize := by
  rw [State.buildAt, unlessFaulted_run hf] at h
  rcases raiseIf_cases h with ⟨-, rfl⟩ | ⟨hbase, h⟩
  · cases hok
  rcases raiseIf_cases h with ⟨-, rfl⟩ | ⟨hidle, h⟩
  · cases hok
  refine ⟨hidle, ?_⟩
  have hbase : base.toNat < s.params.txSize := by simpa using hbase
  rcases buildBody_cases (frameBytes s.params s.args) base s.enc hsize hbase with ⟨e, -, -, hfits⟩ | ⟨e, he, -, -⟩
  · rw [← frameBits_eq, frameBits_length, ← frameLen_eq] at hfits
    omega
  · rw [he] at h
    cases h
    cases hok

/-- A build that succeeded holds its frame from `base` to `TX_END`. -/
theorem buildAt_success_holdsFrame {base : Byte} (hf : s.fault = false) (hsize : s.params.txSize ≤ 255)
    (h : s.buildAt base = .next t) (hok : t.fault = false) :
    t.holdsFrame s.args base.toNat ∧ t.enc.txEnd.toNat = base.toNat + frameLen t.params s.args := by
  obtain ⟨hidle, hfits⟩ := buildAt_success hf hsize h hok
  obtain ⟨u, hu, hframe, hend, -, hrest⟩ := buildBitstreamLaysDownTheFrame s base hf hidle hsize hfits
  obtain rfl : t = u := Host.Outcome.next.inj (h.symm.trans hu)
  exact ⟨hframe, by rw [hend, hrest]⟩

/-- Settles O39: every four pairs of a frame come in the symbols' order, and the frame's first seven bytes are known. -/
theorem builtBytesAreLineCodeBytes : Obligations.BuiltBytesAreLineCodeBytes := by
  intro s t base hf hsize hrun hok
  obtain ⟨⟨hpairs, -⟩, hend⟩ := buildAt_success_holdsFrame hf hsize hrun hok
  obtain ⟨rest, hhead⟩ := framePairs_head t.params s.args
  have hlen : frameHead.length ≤ frameLen t.params s.args := by
    rw [show frameHead.length = 7 from rfl, frameLen_eq]
    omega
  have hfirst : ∀ k (hk : k < frameHead.length), t.txByte (base.toNat + k) = frameHead[k] :=
    Memory.read_of_pairs hlen (hpairs.trans hhead)
  refine ⟨fun a hlo hhi => ?_, fun a hlo hhi => ?_, hfirst 6 (by decide)⟩
  · rw [hend] at hhi
    obtain ⟨before, after, hsplit⟩ := t.enc.tx.pairs_split hlo hhi
    have hchain := framePairs_chain t.params s.args
    rw [← hpairs, hsplit] at hchain
    exact lineByte_of_chain _ hchain.left_of_append.right_of_append
  · obtain ⟨k, rfl⟩ := Nat.exists_eq_add_of_le hlo
    have hk : k < 6 := by omega
    rw [hfirst k (by rw [show frameHead.length = 7 from rfl]; omega)]
    exact (List.getElem_append_left (by simpa using hk)).trans (List.getElem_replicate _)

end Sys2Proof.Machine
end

section
/-! PROOF. The encoder requests that open and close a stream, `ENC_RAW`, and the requests whose pairs run into the end of TXBUF
(40_line_code.md R101 to R105, 60_exceptions.md R232). -/

namespace Sys2Proof.Machine

variable {s : State} {e : Encoder} {size : Nat} {ps : List Pair}

/-! ### The requests past their checks (R234) -/

theorem execEncInit_run {pos : Byte} (hf : s.fault = false) (hpos : pos.toNat < s.params.txSize)
    (hidle : s.txActive = false) : exec (.encInit pos) s = .next ((s.setEnc (s.enc.start pos)).setOk true) := by
  change execEncInit pos s = _
  rw [execEncInit, unlessFaulted_run hf, decide_eq_false (Nat.not_le_of_lt hpos), hidle, raiseIf_false, raiseIf_false]

theorem execEncTerm_run (hf : s.fault = false) (hready : s.enc.ready = true) (hidle : s.txActive = false)
    (hptr : s.enc.ptr.toNat < s.params.txSize) :
    exec .encTerm s = .next ((s.setEnc (s.enc.terminate.setValid true)).setOk true) := by
  change execEncTerm s = _
  rw [execEncTerm, unlessFaulted_run hf, hready, hidle, withinTx_run hptr, Bool.not_true, raiseIf_false, raiseIf_false]

theorem execEncRaw_run {v : Byte} (hf : s.fault = false) (hready : s.enc.ready = true) (hv : v ≠ 0xFF)
    (hidle : s.txActive = false) (hempty : s.enc.current.extractLsb' 0 2 = 0b11)
    (hptr : s.enc.ptr.toNat < s.params.txSize) :
    exec (.encRaw v) s = s.finishTx (appendRaw s.params.txSize v (s.enc.setValid false)) := by
  change execEncRaw v s = _
  rw [execEncRaw, unlessFaulted_run hf, hready, beq_eq_false_iff_ne.mpr hv, hidle, withinTx_run hptr, hempty,
    bne_self_eq_false, Bool.not_true, raiseIf_false, raiseIf_false, raiseIf_false, raiseIf_false]

/-! ### The body of `ENC_RAW` (R102) -/

theorem appendRaw_room (v : Byte) (h : e.ptr.toNat + 1 < size) :
    appendRaw size v e =
      .ok { e with tx := (e.tx.write e.ptr.toNat v).write (e.ptr.toNat + 1) sentinel, ptr := e.ptr + 1 } :=
  if_neg (Nat.not_le_of_lt h)

theorem appendRaw_full (v : Byte) (h : size ≤ e.ptr.toNat + 1) : appendRaw size v e = .overflow (e.setCurrent v) :=
  if_pos h

/-! ### Overflow (R232) -/

/-- An encoder request whose pairs do not fit ends in `TX_OVERFLOW`, with what its append had written. -/
theorem encodeWith_overflowed {append : Nat → Encoder → TxRun}
    (happend : append s.params.txSize (s.enc.setValid false) = appendPairs s.params.txSize ps (s.enc.setValid false))
    (hf : s.fault = false) (hready : s.enc.ready = true) (hidle : s.txActive = false) (hsize : s.params.txSize ≤ 255)
    (hptr : s.enc.ptr.toNat < s.params.txSize)
    (hfull : s.params.txSize ≤ s.enc.ptr.toNat + s.enc.bytesFilledBy ps.length) :
    ∃ e, s.encodeWith append = .next ((s.setEnc e).raise .txOverflow) ∧
      Overflowed s.params.txSize (s.enc.setValid false) e ps := by
  rw [encodeWith_run append hf hready hidle hptr, happend]
  rcases appendPairs_cases ps (e := s.enc.setValid false) hsize hptr with ⟨e, -, -, hfits⟩ | ⟨e, he, hover, -⟩
  · exact absurd hfull (Nat.not_le_of_lt hfits)
  · exact ⟨e, by rw [he]; rfl, hover⟩

/-- The fault of an append that overflowed changes TXBUF, `ENC_PTR` and `TXVALID` of the encoder, and the fault's flags. -/
theorem Overflowed.raised_eq (h : Overflowed size (s.enc.setValid false) e ps) :
    (s.setEnc e).raise .txOverflow =
      { s with enc := { s.enc with tx := e.tx, ptr := e.ptr, txValid := false }, ok := false, fault := true,
               fcode := .txOverflow } := by
  obtain ⟨tx, ptr, ready, txEnd, txValid⟩ := e
  obtain rfl : ready = s.enc.ready := h.ready
  obtain rfl : txEnd = s.enc.txEnd := h.txEnd
  obtain rfl : txValid = false := h.txValid
  rfl

/-! ### The statements -/

/-- Settles O20: the one byte written is the sentinel at `pos`. -/
theorem encInitStartsAStream : Obligations.EncInitStartsAStream := by
  intro s pos hf hpos hidle
  refine ⟨_, execEncInit_run hf hpos hidle, ?_, fun a ha => ?_, rfl⟩
  · exact Memory.read_write_same s.enc.tx pos.toNat sentinel
  · exact Memory.read_write_other s.enc.tx sentinel ha

/-- Settles O25: the one byte written is the sentinel at the cursor. -/
theorem encTermEndsTheStream : Obligations.EncTermEndsTheStream := by
  intro s hf hready hidle hptr
  refine ⟨_, execEncTerm_run hf hready hidle hptr, ?_, fun a ha => ?_, rfl⟩
  · exact Memory.read_write_same s.enc.tx s.enc.ptr.toNat sentinel
  · exact Memory.read_write_other s.enc.tx sentinel ha

/-- Settles O21, by whether TXBUF has a byte after the cursor's. -/
theorem encRawWritesOneByte : Obligations.EncRawWritesOneByte := by
  intro s v hf hready hv hidle hempty hsize
  constructor
  · intro hroom
    have hrun := execEncRaw_run hf hready hv hidle hempty (Nat.lt_of_succ_lt hroom)
    rw [appendRaw_room (e := s.enc.setValid false) v hroom] at hrun
    refine ⟨_, hrun, ?_, ?_, fun a ha ha' => ?_, byte_succ_toNat hsize hroom, rfl⟩
    · exact (Memory.read_write_other _ sentinel (by simp)).trans (Memory.read_write_same s.enc.tx s.enc.ptr.toNat v)
    · exact Memory.read_write_same _ (s.enc.ptr.toNat + 1) sentinel
    · exact (Memory.read_write_other _ sentinel ha').trans (Memory.read_write_other s.enc.tx v ha)
  · intro hlast
    have hrun := execEncRaw_run hf hready hv hidle hempty (by omega)
    rw [appendRaw_full (e := s.enc.setValid false) v hlast.ge] at hrun
    refine ⟨_, hrun, ?_, fun a ha => ?_, rfl⟩
    · exact Memory.read_write_same s.enc.tx s.enc.ptr.toNat v
    · exact Memory.read_write_other s.enc.tx v ha

/-- Settles O26, by what an append that overflowed leaves. -/
theorem encoderOverflowFaults : Obligations.EncoderOverflowFaults := by
  intro s i ps hi hf hready hidle hsize hptr hfull
  obtain ⟨append, hexec, happend⟩ : ∃ append : Nat → Encoder → TxRun,
      exec i s = s.encodeWith append ∧ ∀ size e, append size e = appendPairs size ps e := by
    rcases hi with ⟨rfl, rfl⟩ | ⟨rfl, rfl⟩ | ⟨v, rfl, rfl⟩
    · exact ⟨_, exec_encBit false, fun _ _ => rfl⟩
    · exact ⟨_, exec_encBit true, fun _ _ => rfl⟩
    · exact ⟨_, exec_encByte v, fun size e => appendByte_eq size v e⟩
  obtain ⟨e, hrun, hover⟩ := encodeWith_overflowed (happend _ _) hf hready hidle hsize hptr hfull
  exact ⟨_, hexec.trans hrun, hover.ptr, hover.laid, hover.outside, hover.raised_eq⟩

end Sys2Proof.Machine
end

section
/-! PROOF. The decoder requests (40_line_code.md R120 to R128): what each primitive decode reads from the pairs ahead, and that a
failed decode state is left alone. -/

namespace Sys2Proof.Machine

variable {s : State} {rx : Memory} {d : Decoder} {ps rest : List Pair}

/-! ### The requests past their checks (R234) -/

theorem execDecInit_run {start : Byte} (hf : s.fault = false) (hlen : s.rxLen.toNat ≤ s.params.rxSize) :
    exec (.decInit start) s = .next ((s.setDec (freshDec s.rxLen start)).setOk true) := by
  change execDecInit start s = _
  rw [execDecInit, unlessFaulted_run hf, decide_eq_false (Nat.not_lt_of_le hlen), raiseIf_false]

/-- `DEC_PAIR` past its checks ends with what `ReadPair` answers. -/
theorem execDecPair_run (hf : s.fault = false) (hstop : s.dec.stop.toNat ≤ s.params.rxSize) :
    exec .decPair s = s.finishRead ((readPair s.rx s.dec).1.setWidth 8) (readPair s.rx s.dec).2 :=
  (unlessFaulted_run hf).trans (withinRx_run hstop)

/-- `DEC_BYTE` past its checks ends with what `ReadByteP` answers. -/
theorem execDecByte_run (hf : s.fault = false) (hstop : s.dec.stop.toNat ≤ s.params.rxSize) :
    exec .decByte s = s.finishRead (readByteP s.rx s.dec).1 (readByteP s.rx s.dec).2 :=
  (unlessFaulted_run hf).trans (withinRx_run hstop)

/-! ### The end of a primitive decode (R126 to R128) -/

theorem finishRead_of_ok (v : Byte) (h : d.failed = false) :
    s.finishRead v d = .next (((s.setDec d).setVal v).setOk true) := by
  rw [State.finishRead, okAfterDecode, h, Bool.not_false]

theorem finishRead_fail (v : Byte) (r : FailReason) (h : d.failed = false) :
    s.finishRead v (d.fail r) = .next (((s.setDec { d with failed := true, reason := r }).setVal v).setOk false) := by
  rw [Decoder.fail_of_ok h]
  rfl

/-- A decode that read the pairs `ps` changes the cursor, `RES_VAL` and `OK`. -/
theorem Consumed.read_eq (h : Consumed s.rx s.dec d ps) (hok : s.dec.failed = false) (v : Byte) :
    ((s.setDec d).setVal v).setOk true =
      { s with dec := { s.dec with ptr := d.ptr, mask := d.mask }, res := { s.res with val := v }, ok := true } := by
  obtain ⟨ptr, mask, stop, failed, reason⟩ := d
  obtain rfl : stop = s.dec.stop := h.stop
  obtain rfl : failed = s.dec.failed := h.ok.trans hok.symm
  obtain rfl : reason = s.dec.reason := h.reason
  rfl

/-- A decode that read the pairs `ps` and then failed changes the cursor, the failure, `RES_VAL` and `OK`. -/
theorem Consumed.failed_eq (h : Consumed s.rx s.dec d ps) (v : Byte) (r : FailReason) :
    ((s.setDec { d with failed := true, reason := r }).setVal v).setOk false =
      { s with dec := { s.dec with ptr := d.ptr, mask := d.mask, failed := true, reason := r },
               res := { s.res with val := v }, ok := false } := by
  obtain ⟨ptr, mask, stop, failed, reason⟩ := d
  obtain rfl : stop = s.dec.stop := h.stop
  rfl

/-! ### One pair (R121) -/

/-- The mask rotates, and the index moves on after the fourth pair of a byte. -/
theorem Decoder.advance_ptr (h : d.ptr.toNat < 255) :
    d.advance.ptr.toNat = d.ptr.toNat + (if d.mask.byte = 0x03 then 1 else 0) := by
  have hpos := Decoder.advance_pos h
  simp only [Decoder.pos, show d.advance.mask = d.mask.next from rfl] at hpos
  cases hm : d.mask <;> simp [hm, PairMask.next, PairMask.index, PairMask.byte] at hpos ⊢ <;> omega

/-- A cursor with a pair ahead of it is before the last index there is. -/
theorem Decoder.ptr_lt_of_ahead {q : Pair} (h : d.ahead rx = q :: rest) : d.ptr.toNat < 255 := by
  have hlt : ¬ d.stop ≤ d.ptr := fun hle => by simp [Decoder.ahead_nil hle] at h
  have := d.stop.isLt
  rw [BitVec.le_def] at hlt
  omega

/-! ### One bit (R122) -/

/-- `ReadBit` with a symbol cut by the declared end reads the pairs there are and fails `EXHAUSTED`. -/
theorem readBit_cut {cut : List Pair} (hcut : cut = [] ∨ cut = [0b11] ∨ cut = [0b11, 0b10]) (hok : d.failed = false)
    (h : d.ahead rx = cut) :
    ∃ d', readBit rx d = (false, d'.fail .exhausted) ∧ Consumed rx d d' cut ∧ d'.ahead rx = [] := by
  rcases hcut with rfl | rfl | rfl
  · exact ⟨d, by simp [readBit, hok, readPair_nil hok h], Consumed.nil hok, h⟩
  · obtain ⟨e1, c1, a1⟩ := readPair_cons hok h
    exact ⟨_, by simp [readBit, hok, e1, c1.ok, readPair_nil c1.ok a1], c1, a1⟩
  · obtain ⟨e1, c1, a1⟩ := readPair_cons hok h
    obtain ⟨e2, c2, a2⟩ := readPair_cons c1.ok a1
    exact ⟨_, by simp [readBit, hok, e1, c1.ok, e2, c2.ok, readPair_nil c2.ok a2], c1.trans c2, a2⟩

/-! ### One byte (R123) -/

/-- The loop of `ReadByteP` run once more reads one bit after the others. -/
theorem readBits_succ (n : Nat) (r : BitsRead) :
    readBits rx (n + 1) r =
      { val := ((readBits rx n r).val <<< 1) ||| (BitVec.ofBool (readBit rx (readBits rx n r).dec).1).setWidth 8
        par := (readBits rx n r).par ^^ (readBit rx (readBits rx n r).dec).1
        dec := (readBit rx (readBits rx n r).dec).2 } := by
  induction n generalizing r with
  | zero => rfl
  | succ n ih => exact ih _

/-- What the loop of `ReadByteP` has gathered after all nine bits, the parity bit read like the others. -/
def nineBits (rx : Memory) (d : Decoder) : BitsRead := readBits rx 9 { val := 0, par := false, dec := d }

/-- `ReadByteP` fails when one of the nine bits does or when their XOR is 1, and else returns the first eight. -/
theorem readByteP_eq (rx : Memory) (hok : d.failed = false) :
    readByteP rx d =
      if (nineBits rx d).dec.failed then (0, (nineBits rx d).dec)
      else if (nineBits rx d).par then (0, (nineBits rx d).dec.fail .parity)
      else ((readBits rx 8 { val := 0, par := false, dec := d }).val, (nineBits rx d).dec) := by
  have hpar : ∀ a b : Bool, a ≠ b ↔ (b ^^ a) = true := by decide
  simp only [readByteP, hok, nineBits, readBits_succ 8, hpar, Bool.false_eq_true, if_false]

/-- Nine symbols ahead are read to the end, and the XOR of their bits is 0 exactly when the ninth is the parity. -/
theorem nineBits_symbols {v : Byte} {p : Bool} (hok : d.failed = false)
    (h : d.ahead rx = linePairs (byteBits v ++ [p]) ++ rest) :
    ∃ d', (nineBits rx d).dec = d' ∧ (nineBits rx d).par = (parity v ^^ p) ∧
      Consumed rx d d' (linePairs (byteBits v ++ [p])) ∧ d'.ahead rx = rest := by
  obtain ⟨d', hread, hpairs, hrest⟩ := readBits_symbols (byteBits v ++ [p]) (r := ⟨0, false, d⟩) hok h
  have hnine : nineBits rx d = ⟨gather 0 (byteBits v ++ [p]), (byteBits v ++ [p]).foldl (· ^^ ·) false, d'⟩ := hread
  refine ⟨d', by rw [hnine], ?_, hpairs, hrest⟩
  rw [hnine, List.foldl_append, xor_byteBits]
  rfl

/-- `ReadByteP` with nine symbols ahead reads them all and returns the byte, or fails `PARITY` (R123). -/
theorem readByteP_symbols {v : Byte} {p : Bool} (hok : d.failed = false)
    (h : d.ahead rx = linePairs (byteBits v ++ [p]) ++ rest) :
    ∃ d', readByteP rx d = (if p = parity v then (v, d') else (0, d'.fail .parity)) ∧
      Consumed rx d d' (linePairs (byteBits v ++ [p])) ∧ d'.ahead rx = rest := by
  obtain ⟨d', hdec, hpar, hpairs, hrest⟩ := nineBits_symbols hok h
  have hval : (readBits rx 8 { val := 0, par := false, dec := d }).val = v := by
    rw [linePairs_append, List.append_assoc] at h
    obtain ⟨d8, hread, -, -⟩ := readBits_symbols (byteBits v) (r := ⟨0, false, d⟩) hok h
    exact (congrArg BitsRead.val hread).trans (gather_byteBits v)
  refine ⟨d', ?_, hpairs, hrest⟩
  rw [readByteP_eq rx hok, hdec, hpar, hval, hpairs.ok]
  cases p <;> cases parity v <;> rfl

/-! ### The statements -/

/-- Settles O27. -/
theorem decInitStartsADecode : Obligations.DecInitStartsADecode := by
  intro s start hf hlen
  exact ⟨_, execDecInit_run hf hlen, rfl, rfl, rfl, rfl, rfl, rfl⟩

/-- Settles O33: the three internal functions return 0 and the decode state they are given. -/
theorem failedDecodeStateIsFrozen : Obligations.FailedDecodeStateIsFrozen := by
  intro s i hf hstop hfailed hi
  have hend : s.finishRead 0 s.dec = .next { s with res := { s.res with val := 0 }, ok := false } := by
    rw [State.finishRead, okAfterDecode, hfailed]
    rfl
  rcases hi with rfl | rfl | rfl
  · rw [execDecPair_run hf hstop, readPair_of_failed s.rx hfailed]
    exact hend
  · rw [execDecBit_run hf hstop, readBit_of_failed s.rx hfailed]
    exact hend
  · rw [execDecByte_run hf hstop, readByteP_of_failed s.rx hfailed]
    exact hend

/-- Settles O28, by what `ReadPair` does with a pair ahead and with none. -/
theorem decPairReadsTheNextPair : Obligations.DecPairReadsTheNextPair := by
  intro s hf hstop hok
  refine ⟨fun q rest hahead => ?_, fun hahead => ?_⟩
  · obtain ⟨hread, hpairs, hrest⟩ := readPair_cons hok hahead
    refine ⟨_, ?_, rfl, hrest, rfl, Decoder.advance_ptr (Decoder.ptr_lt_of_ahead hahead), hpairs.read_eq hok (q.setWidth 8)⟩
    rw [execDecPair_run hf hstop, hread, finishRead_of_ok _ hpairs.ok]
  · rw [execDecPair_run hf hstop, readPair_nil hok hahead, finishRead_fail _ _ hok]
    rfl

/-- Settles O29, by what `ReadBit` does with a symbol ahead and with one cut short. -/
theorem decBitReadsASymbol : Obligations.DecBitReadsASymbol := by
  intro s hf hstop hok
  refine ⟨fun x rest hahead => ?_, fun cut hcut hahead => ?_⟩
  · obtain ⟨d, hread, hpairs, hrest⟩ := readBit_symbol x hok hahead
    refine ⟨_, ?_, ?_, hrest, ?_, hpairs.read_eq hok ((BitVec.ofBool x).setWidth 8)⟩
    · rw [execDecBit_run hf hstop, hread, finishRead_of_ok _ hpairs.ok]
    · cases x <;> rfl
    · rw [← lineSymbol_length]
      exact hpairs.pos
  · obtain ⟨d, hread, hpairs, hrest⟩ := readBit_cut hcut hok hahead
    refine ⟨_, ?_, rfl, hrest, hpairs.pos, hpairs.failed_eq 0 .exhausted⟩
    rw [execDecBit_run hf hstop, hread, finishRead_fail _ _ hpairs.ok]
    rfl

/-- Settles O31, by what `ReadByteP` does with nine symbols ahead. -/
theorem decByteReadsAnEncodedByte : Obligations.DecByteReadsAnEncodedByte := by
  intro s v p rest hf hstop hok hahead
  obtain ⟨d, hread, hpairs, hrest⟩ := readByteP_symbols hok hahead
  by_cases hp : p = parity v
  · refine ⟨_, ?_, hrest, hpairs.pos, fun _ => hpairs.read_eq hok v, fun hne => absurd hp hne⟩
    rw [execDecByte_run hf hstop, hread, if_pos hp, finishRead_of_ok _ hpairs.ok]
  · refine ⟨_, ?_, hrest, hpairs.pos, fun heq => absurd heq hp, fun _ => hpairs.failed_eq 0 .parity⟩
    rw [execDecByte_run hf hstop, hread, if_neg hp, finishRead_fail _ _ hpairs.ok]

end Sys2Proof.Machine
end

section
/-! PROOF. A single flip in an encoded byte (30_encoding.md R73, R74, 40_line_code.md R128): it makes a pair sequence illegal, or
exactly one bit is read wrong, which the parity finds. -/

namespace Sys2Proof.Machine

variable {rx : Memory} {d : Decoder} {before mid after rest : List Pair} {q flip : Pair} {x : Bool}

/-! ### Failures with a reason (R120) -/

/-- The decode state is failed and says why. -/
def Decoder.FailedWithReason (d : Decoder) : Prop := d.failed = true ∧ d.reason ≠ .none

theorem Decoder.fail_failedWithReason {r : FailReason} (hok : d.failed = false) (hr : r ≠ .none) :
    (d.fail r).FailedWithReason := by
  rw [Decoder.fail_of_ok hok]
  exact ⟨rfl, hr⟩

theorem IllegalPairs.reason_ne_none {ps : List Pair} {r : FailReason} (h : IllegalPairs ps r) : r ≠ .none := by
  rcases h with ⟨-, -, -, rfl⟩ | ⟨-, -, -, rfl⟩ | ⟨-, -, -, rfl⟩ <;> decide

theorem readBit_illegal_fails {ps : List Pair} {r : FailReason} (hbad : IllegalPairs ps r) (hok : d.failed = false)
    (h : d.ahead rx = ps ++ rest) : (readBit rx d).2.FailedWithReason := by
  obtain ⟨d', hread, hpairs, -⟩ := readBit_illegal hbad hok h
  rw [hread]
  exact Decoder.fail_failedWithReason hpairs.ok hbad.reason_ne_none

theorem readBit_cut_fails {cut : List Pair} (hcut : cut = [] ∨ cut = [0b11] ∨ cut = [0b11, 0b10])
    (hok : d.failed = false) (h : d.ahead rx = cut) : (readBit rx d).2.FailedWithReason := by
  obtain ⟨d', hread, hpairs, -⟩ := readBit_cut hcut hok h
  rw [hread]
  exact Decoder.fail_failedWithReason hpairs.ok (by decide)

/-- A failure of the next bit is the failure of the whole loop. -/
theorem readBits_fails (n : Nat) {r : BitsRead} (h : (readBit rx r.dec).2.FailedWithReason) :
    (readBits rx (n + 1) r).dec.FailedWithReason := by
  rw [readBits, readBits_dec_of_failed rx n h.1]
  exact h

/-! ### A flip within a symbol -/

/-- The pairs a symbol is made of (30_encoding.md R70, R71). -/
theorem lineSymbol_split (h : lineSymbol x = before ++ q :: mid) :
    (before = [] ∧ q = 0b11) ∨
    (x = false ∧ before = [0b11] ∧ q = 0b00 ∧ mid = []) ∨
    (x = true ∧ before = [0b11] ∧ q = 0b10 ∧ mid = [0b00]) ∨
    (x = true ∧ before = [0b11, 0b10] ∧ q = 0b00 ∧ mid = []) := by
  rcases before with _ | ⟨b0, _ | ⟨b1, _ | ⟨b2, before⟩⟩⟩ <;> cases x <;> simp_all [lineSymbol]

/-- Pairs that begin with `11 10` are read as a 1 with exactly one pair more, or not at all. -/
theorem readBit_of_one_begun (hok : d.failed = false) (h : d.ahead rx = 0b11 :: 0b10 :: rest) :
    (readBit rx d).2.FailedWithReason ∨
      ∃ d', readBit rx d = (true, d') ∧ d'.failed = false ∧ rest = 0b00 :: d'.ahead rx := by
  cases rest with
  | nil => exact .inl (readBit_cut_fails (.inr (.inr rfl)) hok h)
  | cons p3 rest =>
    by_cases hp3 : p3 = 0b00
    · subst hp3
      obtain ⟨d', hread, hpairs, hrest⟩ := readBit_symbol true hok h
      exact .inr ⟨d', hread, hpairs.ok, by rw [hrest]⟩
    · exact .inl (readBit_illegal_fails (.inr (.inr ⟨p3, rfl, hp3, rfl⟩)) hok h)

/-- A symbol with one physical bit flipped fails or is read as the other bit: with the `00` of the flipped 1 left over, or with a
`00` that is not its own taken in. -/
theorem readBit_flipped (hok : d.failed = false) (hsymbol : lineSymbol x = before ++ q :: mid)
    (hflip : flip = 0b01 ∨ flip = 0b10) (h : d.ahead rx = before ++ (q ^^^ flip) :: mid ++ rest) :
    (readBit rx d).2.FailedWithReason ∨
      ∃ d', readBit rx d = (!x, d') ∧ d'.failed = false ∧ (d'.ahead rx = 0b00 :: rest ∨ rest = 0b00 :: d'.ahead rx) := by
  rcases lineSymbol_split hsymbol with ⟨rfl, rfl⟩ | ⟨rfl, rfl, rfl, rfl⟩ | ⟨rfl, rfl, rfl, rfl⟩ | ⟨rfl, rfl, rfl, rfl⟩
  · refine .inl (readBit_illegal_fails (.inl ⟨0b11 ^^^ flip, rfl, ?_, rfl⟩) hok h)
    rcases hflip with rfl | rfl <;> decide
  · rcases hflip with rfl | rfl
    · exact .inl (readBit_illegal_fails (.inr (.inl ⟨_, rfl, .inl rfl, rfl⟩)) hok h)
    · refine (readBit_of_one_begun hok h).imp_right fun ⟨d', hread, hok', hrest⟩ => ⟨d', hread, hok', .inr hrest⟩
  · rcases hflip with rfl | rfl
    · exact .inl (readBit_illegal_fails (.inr (.inl ⟨_, rfl, .inr rfl, rfl⟩)) hok h)
    · obtain ⟨d', hread, hpairs, hrest⟩ := readBit_symbol false hok h
      exact .inr ⟨d', hread, hpairs.ok, .inl hrest⟩
  · refine .inl (readBit_illegal_fails (.inr (.inr ⟨0b00 ^^^ flip, rfl, ?_, rfl⟩)) hok h)
    rcases hflip with rfl | rfl <;> decide

/-! ### A flip among the symbols of several bits -/

/-- An element of two lists in a row stands in the first or in the second. -/
theorem append_eq_append_cons {α : Type} {as bs cs ds : List α} {a : α} (h : as ++ bs = cs ++ a :: ds) :
    (∃ ms, as = cs ++ a :: ms ∧ ds = ms ++ bs) ∨ (∃ cs', cs = as ++ cs' ∧ bs = cs' ++ a :: ds) := by
  rcases List.append_eq_append_iff.mp h with hsecond | ⟨ms, has, hds⟩
  · exact .inr hsecond
  · cases ms with
    | nil => exact .inr ⟨[], by simpa using has.symm, hds.symm⟩
    | cons m ms =>
      obtain ⟨rfl, rfl⟩ := List.cons.inj hds
      exact .inl ⟨ms, has, rfl⟩

/-- One physical bit flipped among the symbols of the bits `xs` makes the loop of `ReadByteP` fail or turns its parity: when a bit
is read wrong, the symbols after it no longer begin where they should, unless there are none. -/
theorem readBits_flipped (xs : List Bool) {r : BitsRead} (hok : r.dec.failed = false)
    (hcode : linePairs xs = before ++ q :: after) (hflip : flip = 0b01 ∨ flip = 0b10)
    (h : r.dec.ahead rx = before ++ (q ^^^ flip) :: after ++ rest) :
    (readBits rx xs.length r).dec.FailedWithReason ∨
      ((readBits rx xs.length r).dec.failed = false ∧ (readBits rx xs.length r).par = !(xs.foldl (· ^^ ·) r.par)) := by
  induction xs generalizing before r with
  | nil => simp [linePairs] at hcode
  | cons x xs ih =>
    have hcons : linePairs (x :: xs) = lineSymbol x ++ linePairs xs := rfl
    rcases append_eq_append_cons (hcons.symm.trans hcode) with ⟨mid, hsymbol, rfl⟩ | ⟨before', rfl, hlater⟩
    · have h' : r.dec.ahead rx = before ++ (q ^^^ flip) :: mid ++ (linePairs xs ++ rest) := by simp [h]
      rcases readBit_flipped hok hsymbol hflip h' with hfail | ⟨d', hread, hok', hnext⟩
      · exact .inl (readBits_fails _ hfail)
      simp only [List.length_cons, readBits, hread]
      cases xs with
      | nil => exact .inr ⟨hok', by cases x <;> simp [readBits]⟩
      | cons y ys =>
        left
        obtain ⟨tail, htail⟩ := linePairs_cons_head y ys
        rw [htail] at hnext
        rcases hnext with hleft | htaken
        · exact readBits_fails ys.length (readBit_illegal_fails (.inl ⟨0b00, rfl, by decide, rfl⟩) hok' hleft)
        · exact absurd (List.cons.inj htaken).1 (by decide)
    · rw [List.append_assoc, List.append_assoc] at h
      obtain ⟨d', hread, hpairs, hrest⟩ := readBit_symbol x hok h
      rw [List.length_cons, readBits, hread]
      exact ih (r := ⟨_, r.par ^^ x, d'⟩) hpairs.ok hlater (by rw [hrest, List.append_assoc])

/-! ### A flip in an encoded byte (R128) -/

/-- The nine bits of an encoded byte have an even number of 1s (30_encoding.md R74). -/
theorem xor_encodedByte (v : Byte) : (encodedByte v).foldl (· ^^ ·) false = false := by
  rw [encodedByte, List.foldl_append, xor_byteBits]
  exact Bool.xor_self _

theorem nineBits_flipped {v : Byte} (hok : d.failed = false) (hcode : linePairs (encodedByte v) = before ++ q :: after)
    (hflip : flip = 0b01 ∨ flip = 0b10) (h : d.ahead rx = before ++ (q ^^^ flip) :: after ++ rest) :
    (nineBits rx d).dec.FailedWithReason ∨ ((nineBits rx d).dec.failed = false ∧ (nineBits rx d).par = true) := by
  have hbits := readBits_flipped (encodedByte v) (r := ⟨0, false, d⟩) hok hcode hflip h
  rw [xor_encodedByte] at hbits
  exact hbits

/-- `ReadByteP` fails when one of its bits does or the parity is wrong. -/
theorem readByteP_fails (hok : d.failed = false)
    (h : (nineBits rx d).dec.FailedWithReason ∨ ((nineBits rx d).dec.failed = false ∧ (nineBits rx d).par = true)) :
    ∃ d', readByteP rx d = (0, d') ∧ d'.FailedWithReason := by
  rw [readByteP_eq rx hok]
  rcases h with hfail | ⟨hok', hpar⟩
  · exact ⟨_, if_pos hfail.1, hfail⟩
  · refine ⟨(nineBits rx d).dec.fail .parity, ?_, Decoder.fail_failedWithReason hok' (by decide)⟩
    rw [hok', hpar]
    rfl

/-- Settles O32: the flipped byte fails one of its bits or turns the parity of the nine. -/
theorem decByteDetectsEverySingleFlip : Obligations.DecByteDetectsEverySingleFlip := by
  intro s v before after rest q flip hf hstop hok hcode hflip hahead
  obtain ⟨d, hread, hfailed, hreason⟩ := readByteP_fails hok (nineBits_flipped hok hcode hflip hahead)
  refine ⟨((s.setDec d).setVal 0).setOk false, ?_, hfailed, hreason, rfl, rfl⟩
  rw [execDecByte_run hf hstop, hread, State.finishRead, okAfterDecode, hfailed, Bool.not_true]

end Sys2Proof.Machine
end

section
/-! PROOF. The inverse law for bits (40_line_code.md R129): a run of requests taken one by one, the pairs an encoded stream leaves in
TXBUF, and the bits a decode reads back from them. -/

namespace Sys2Proof.Machine

variable {s t u : State} {rest : List HostStep} {i : Instr} {n : Nat} {xs : List Bool}

/-! ### A run, step by step -/

theorem core_run_of_step {M : Host.Core} {a b : M.State} (h : M.step a = .next b) : M.run (n + 1) a = M.run n b := by
  rw [Host.Core.run, h]

theorem core_step_of_run {M : Host.Core} {a c : M.State} (h : M.run (n + 1) a = .next c) :
    ∃ b, M.step a = .next b ∧ M.run n b = .next c := by
  rw [Host.Core.run] at h
  split at h
  case h_1 b hstep => exact ⟨b, hstep, h⟩
  all_goals cases h

/-- A scheduled request is its instruction run on the state with the entry taken off. -/
theorem step_entry (h : s.schedule = .ofEncoded (encode i) :: rest) : step s = exec i { s with schedule := rest } :=
  (step_scheduled h).trans (runHostStep_ofEncoded (decode_encode i))

/-- A run whose next entry is a request that answers a next state goes on from there. -/
theorem run_entry (hsched : s.schedule = .ofEncoded (encode i) :: rest)
    (h : exec i { s with schedule := rest } = .next u) :
    Host.Core.run Sys2Proof.core (n + 1) s = Host.Core.run Sys2Proof.core n u :=
  core_run_of_step (M := Sys2Proof.core) ((step_entry hsched).trans h)

/-- A run that ends in a next state went through one at each request. -/
theorem entry_of_run (hsched : s.schedule = .ofEncoded (encode i) :: rest)
    (h : Host.Core.run Sys2Proof.core (n + 1) s = .next t) :
    ∃ u, exec i { s with schedule := rest } = .next u ∧ Host.Core.run Sys2Proof.core n u = .next t ∧ u.schedule = rest := by
  obtain ⟨u, hstep, hrun⟩ := core_step_of_run h
  have hexec := (step_entry hsched).symm.trans hstep
  exact ⟨u, hexec, hrun, (exec_change i u hexec).surroundings.schedule⟩

/-! ### Encoder requests that end with no fault -/

/-- `ENC_INIT` with no fault at its end has started its stream. -/
theorem encInit_success {pos : Byte} (h : exec (.encInit pos) s = .next t) (hok : t.fault = false) :
    t = (s.setEnc (s.enc.start pos)).setOk true := by
  rcases unlessFaulted_cases h with ⟨hf, rfl⟩ | ⟨-, h⟩
  · exact absurd hf (by simp [hok])
  rcases raiseIf_cases h with ⟨-, rfl⟩ | ⟨-, h⟩
  · cases hok
  rcases raiseIf_cases h with ⟨-, rfl⟩ | ⟨-, h⟩
  · cases hok
  exact (Host.Outcome.next.inj h).symm

/-- `ENC_TERM` with no fault at its end has closed its stream. -/
theorem encTerm_success (h : exec .encTerm s = .next t) (hok : t.fault = false) :
    s.fault = false ∧ s.enc.ptr.toNat < s.params.txSize ∧ t = (s.setEnc (s.enc.terminate.setValid true)).setOk true := by
  rcases unlessFaulted_cases h with ⟨hf, rfl⟩ | ⟨hf, h⟩
  · exact absurd hf (by simp [hok])
  rcases raiseIf_cases h with ⟨-, rfl⟩ | ⟨-, h⟩
  · cases hok
  rcases raiseIf_cases h with ⟨-, rfl⟩ | ⟨-, h⟩
  · cases hok
  obtain ⟨hptr, h⟩ := withinTx_cases h
  exact ⟨hf, hptr, (Host.Outcome.next.inj h).symm⟩

/-- `ENC_BIT` with no fault at its end has laid its symbol down. -/
theorem encBit_success {x : Bool} (h : exec (.encBit x) s = .next t) (hok : t.fault = false)
    (hsize : s.params.txSize ≤ 255) :
    s.fault = false ∧ LaidDown s.params.txSize (s.enc.setValid false) t.enc (lineSymbol x) := by
  rw [exec_encBit] at h
  rcases encodeWith_cases h with ⟨hf, rfl⟩ | ⟨-, -, rfl⟩ | ⟨-, -, -, rfl⟩ | ⟨hf, -, -, hptr, ⟨e, he, rfl⟩ | ⟨e, he, rfl⟩⟩
  · exact absurd hf (by simp [hok])
  · cases hok
  · cases hok
  · rcases appendPairs_cases (lineSymbol x) (e := s.enc.setValid false) hsize hptr with ⟨e', he', hlaid, -⟩ | ⟨e', he', -, -⟩
    · obtain rfl : e = e' := TxRun.ok.inj (he.symm.trans he')
      exact ⟨hf, hlaid⟩
    · cases he.symm.trans he'
  · cases hok

/-! ### The pairs an encoded stream leaves -/

theorem Encoder.setValid_self {e : Encoder} {b : Bool} (h : e.txValid = b) : e.setValid b = e := by
  rw [← h]
  rfl

/-- Bits encoded one by one and terminated, with no fault at the end, had been laid down before the sentinel. -/
theorem encBits_run (hsize : s.params.txSize ≤ 255)
    (hsched : s.schedule = (xs.map fun x => .ofEncoded (encode (.encBit x))) ++ [.ofEncoded (encode .encTerm)])
    (hrun : Host.Core.run Sys2Proof.core (xs.length + 1) s = .next t) (hok : t.fault = false) :
    s.fault = false ∧ ∃ e, LaidDown s.params.txSize (s.enc.setValid false) e (linePairs xs) ∧
      t.enc = e.terminate.setValid true := by
  induction xs generalizing s with
  | nil =>
    obtain ⟨u, hexec, hend, -⟩ := entry_of_run hsched hrun
    obtain rfl : u = t := Host.Outcome.next.inj hend
    obtain ⟨hf, hptr, rfl⟩ := encTerm_success hexec hok
    exact ⟨hf, s.enc.setValid false, LaidDown.nil hptr, rfl⟩
  | cons x xs ih =>
    obtain ⟨u, hexec, hend, husched⟩ := entry_of_run hsched hrun
    have hparams : u.params = s.params := (exec_change _ _ hexec).surroundings.params
    obtain ⟨huok, e, hlater, hterm⟩ := ih (by rw [hparams]; exact hsize) husched hend
    obtain ⟨hf, hlaid⟩ := encBit_success hexec huok hsize
    have hvalid : u.enc.txValid = false := hlaid.txValid
    rw [Encoder.setValid_self hvalid, hparams] at hlater
    exact ⟨hf, e, hlaid.trans hlater, hterm⟩

/-- The completed bytes of a stream hold all its pairs but the last three or fewer. -/
theorem Encoder.stream_length (e : Encoder) (base : Nat) :
    (e.stream base).length ≤ 4 * (e.ptr.toNat - base) + 3 := by
  have := pairsFilled_le e.current
  simp only [Encoder.stream, List.length_append, Memory.pairs_length, List.length_take, bytePairs_length]
  omega

/-- An encoded stream that begins with the pairs `ps` and has four more holds `ps` in its completed bytes, which the sentinel
leaves alone. -/
theorem Encoder.completed_pairs {e : Encoder} {base : Nat} {ps qs : List Pair} (h : e.stream base = ps ++ qs)
    (hqs : 3 < qs.length) :
    ∃ rest, (e.terminate.setValid true).tx.pairs base (e.ptr.toNat - base) = ps ++ rest := by
  have hkept : (e.terminate.setValid true).tx.pairs base (e.ptr.toNat - base) = e.tx.pairs base (e.ptr.toNat - base) :=
    Memory.pairs_congr fun k hk => Memory.read_write_other _ _ (by omega)
  have hlen := e.stream_length base
  rw [h, List.length_append] at hlen
  rw [hkept]
  have hprefix : ps <+: e.tx.pairs base (e.ptr.toNat - base) :=
    List.prefix_of_prefix_length_le ⟨qs, h.symm⟩ (List.prefix_append _ _) (by rw [Memory.pairs_length]; omega)
  obtain ⟨rest, hrest⟩ := hprefix
  exact ⟨rest, hrest.symm⟩

/-- Bits encoded from `ENC_INIT` on, padded with two 0 bits and terminated, stand as their pairs in the bytes up to `TX_END`. -/
theorem encoded_pairs {start : Byte} (hsize : s.params.txSize ≤ 255)
    (hsched : s.schedule = .ofEncoded (encode (.encInit start)) ::
      (((xs ++ [false, false]).map fun x => .ofEncoded (encode (.encBit x))) ++ [.ofEncoded (encode .encTerm)]))
    (hrun : Host.Core.run Sys2Proof.core (xs.length + 4) s = .next t) (hok : t.fault = false) :
    ∃ rest, t.enc.tx.pairs start.toNat (t.enc.txEnd.toNat - start.toNat) = linePairs xs ++ rest := by
  obtain ⟨u, hexec, hend, husched⟩ := entry_of_run hsched hrun
  have hparams : u.params = s.params := (exec_change _ _ hexec).surroundings.params
  have hlength : xs.length + 3 = (xs ++ [false, false]).length + 1 := by simp
  rw [hlength] at hend
  obtain ⟨huok, e, hlaid, hterm⟩ := encBits_run (by rw [hparams]; exact hsize) husched hend hok
  obtain rfl := encInit_success hexec huok
  have hstream : e.stream start.toNat = linePairs xs ++ linePairs [false, false] := by
    rw [hlaid.stream start.toNat le_rfl, linePairs_append]
    simp [Encoder.stream, Encoder.current, Encoder.setValid, Memory.pairs, Memory.readList]
  rw [hterm]
  exact Encoder.completed_pairs hstream (by decide)

/-! ### The bits a decode reads back -/

/-- `DEC_BIT` requests one after another return the bits whose symbols lie ahead. -/
theorem decBits_run {tail : List Pair} {k : Nat} {x : Bool} (hf : s.fault = false)
    (hstop : s.dec.stop.toNat ≤ s.params.rxSize) (hok : s.dec.failed = false)
    (hahead : s.dec.ahead s.rx = linePairs xs ++ tail)
    (hsched : s.schedule = List.replicate xs.length (.ofEncoded (encode .decBit))) (hk : xs[k]? = some x) :
    ∃ v, Host.Core.run Sys2Proof.core (k + 1) s = .next v ∧ v.res.val = (if x then 1 else 0) ∧
      v.dec.failed = false ∧ v.ok = true := by
  induction xs generalizing s k with
  | nil => simp at hk
  | cons y ys ih =>
    have hsymbol : s.dec.ahead s.rx = (if y then [0b11, 0b10, 0b00] else [0b11, 0b00]) ++ (linePairs ys ++ tail) := by
      rw [hahead, ← List.append_assoc]
      rfl
    obtain ⟨u, hexec, hval, huahead, -, hu⟩ :=
      (decBitReadsASymbol { s with schedule := List.replicate ys.length (.ofEncoded (encode .decBit)) } hf hstop hok).1
        y (linePairs ys ++ tail) hsymbol
    have hufailed : u.dec.failed = false := by rw [hu]; exact hok
    rw [run_entry hsched hexec]
    cases k with
    | zero =>
      obtain rfl : y = x := by simpa using hk
      exact ⟨u, rfl, hval, hufailed, by rw [hu]⟩
    | succ k =>
      refine ih ?_ ?_ hufailed huahead ?_ (by simpa using hk)
      · rw [hu]; exact hf
      · rw [hu]; exact hstop
      · rw [hu]

/-- Settles O60: the pairs an encoded stream leaves in TXBUF, copied to RXBUF, are those ahead of the decoder after `DEC_INIT`. -/
theorem decBitsInvertEncBits : Obligations.DecBitsInvertEncBits := by
  intro xs start s t u _ hsize hsched hrun htok huf hlen ⟨hrxLen, hbytes⟩ husched k x hk
  obtain ⟨tail, htx⟩ := encoded_pairs hsize hsched hrun htok
  have hrx : u.rx.pairs 0 u.rxLen.toNat = linePairs xs ++ tail := by
    rw [hrxLen, ← htx]
    exact Memory.pairs_congr fun j hj => by rw [Nat.zero_add]; exact hbytes j hj
  rw [← hrxLen] at hlen
  have hinit := execDecInit_run (s := { u with schedule := List.replicate xs.length (.ofEncoded (encode .decBit)) })
    (start := 0) huf hlen
  rw [show k + 2 = (k + 1) + 1 from rfl, run_entry husched hinit]
  refine decBits_run ?_ ?_ ?_ (tail := tail) ?_ ?_ hk
  exacts [huf, hlen, rfl, hrx, rfl]

end Sys2Proof.Machine
end

section
/-! PROOF. The checksum and the length of a frame (41_frame_builder.md R140, R157, 30_encoding.md R77). -/

namespace Sys2Proof.Machine

variable {s t : State}

/-! ### `CHECKSUM` (R140, R141) -/

theorem checksum_toNat (hc1 hc2 a cmd ext : Byte) :
    (checksum hc1 hc2 a cmd ext).toNat =
      (0x0C + hc1.toNat + hc2.toNat + a.toNat + cmd.toNat + ext.toNat) % 256 := by
  rw [checksum, BitVec.toNat_ofNat]
  exact Nat.mod_mod _ 256

theorem frameAddr_toNat (p : Params) (a : ArgRegs) :
    (frameAddr p a).toNat = if p.addrEn then a.addr.toNat else 0 := by
  unfold frameAddr
  split <;> rfl

/-- Settles O34: the sum is that of the frame's fields, the placeholder address counting as 0. -/
theorem checksumIsTheSumModulo256 : Obligations.ChecksumIsTheSumModulo256 := by
  intro s hf
  refine ⟨_, unlessFaulted_run hf, ?_, rfl⟩
  change (frameChecksum s.params s.args).toNat = _
  rw [frameChecksum, checksum_toNat, frameAddr_toNat]

/-! ### The length of a frame (R77, R157) -/

/-- The placeholder for an address that is not sent has no weight. -/
theorem weight_frameAddr_le (p : Params) (a : ArgRegs) : weight (frameAddr p a) ≤ if p.addrEn then 8 else 0 := by
  unfold frameAddr
  split
  · exact (weight_bounds a.addr).2
  · exact Nat.le_of_eq (by decide)

/-- The six weights of a frame sum to an even number, at most 8 for each byte that is sent (R74). -/
theorem frameWeight_bounds (p : Params) (a : ArgRegs) :
    frameWeight p a % 2 = 0 ∧ frameWeight p a ≤ if p.addrEn then 48 else 40 := by
  have hsum : frameWeight p a = weight a.hc1 + weight a.hc2 + weight (frameAddr p a) + weight a.cmd + weight a.ext +
      weight (frameChecksum p a) := by
    simp only [frameWeight, frameBytes, List.map_cons, List.map_nil, List.sum_cons, List.sum_nil]
    omega
  have haddr := weight_frameAddr_le p a
  obtain ⟨e1, b1⟩ := weight_bounds a.hc1
  obtain ⟨e2, b2⟩ := weight_bounds a.hc2
  obtain ⟨e3, -⟩ := weight_bounds (frameAddr p a)
  obtain ⟨e4, b4⟩ := weight_bounds a.cmd
  obtain ⟨e5, b5⟩ := weight_bounds a.ext
  obtain ⟨e6, b6⟩ := weight_bounds (frameChecksum p a)
  rw [hsum]
  exact ⟨by omega, by grind⟩

/-- A frame has between 35 and 45 completed bytes, or 47 with the address sent (R157). -/
theorem frameLen_bounds (p : Params) (a : ArgRegs) : 35 ≤ frameLen p a ∧ frameLen p a ≤ if p.addrEn then 47 else 45 := by
  have hweight := (frameWeight_bounds p a).2
  rw [frameLen_eq]
  exact ⟨by omega, by grind⟩

/-- A build that succeeded ends at the length of its frame. -/
theorem buildAt_success_txEnd {base : Byte} (hf : s.fault = false) (hsize : s.params.txSize ≤ 255)
    (h : s.buildAt base = .next t) (hok : t.fault = false) :
    t.enc.txEnd.toNat = base.toNat + frameLen s.params s.args := by
  have hparams : t.params = s.params := (exec_change (.buildBitstream base) t h).surroundings.params
  rw [← hparams]
  exact (buildAt_success_holdsFrame hf hsize h hok).2

/-- Settles O38, by the bounds of the six weights. -/
theorem frameLengthIsInRange : Obligations.FrameLengthIsInRange := by
  intro s t base hf hsize hrun hok
  rw [buildAt_success_txEnd hf hsize hrun hok, Nat.add_sub_cancel_left]
  obtain ⟨hlo, hhi⟩ := frameLen_bounds s.params s.args
  exact ⟨rfl, Nat.le_add_right _ _, hlo, hhi⟩

end Sys2Proof.Machine
end

section
/-! PROOF. The inverse law for frames (41_frame_builder.md R156): a built frame copied to RXBUF is the preamble and the payload that
a frame decode reads, and it ends in the frame's last byte. -/

namespace Sys2Proof.Machine

variable {s t u : State}

/-! ### A built frame as a decoder meets it -/

/-- The bits of a frame that a decode reads after the preamble: lead bit, six bytes, trailing bit (42_frame_parser.md R174). -/
def payloadBits (p : Params) (a : ArgRegs) : List Bool := [true] ++ (frameBytes p a).flatMap encodedByte ++ [false]

theorem frameBits_payload (p : Params) (a : ArgRegs) :
    frameBits p a = List.replicate 12 false ++ payloadBits p a ++ [false, false] := by
  simp only [frameBits, payloadBits, List.append_assoc, List.cons_append, List.nil_append]

theorem payloadBits_length (p : Params) (a : ArgRegs) :
    (linePairs (payloadBits p a)).length = 113 + frameWeight p a := by
  have hpreamble : (linePairs (List.replicate 12 false)).length = 24 := by decide
  have hpadding : (linePairs [false, false]).length = 4 := by decide
  have htotal := frameBits_length p a
  rw [frameBits_payload, linePairs_append, linePairs_append, List.length_append, List.length_append, hpreamble,
    hpadding] at htotal
  omega

/-- The completed bytes of a frame hold its preamble and its whole payload: what they cut off is padding (30_encoding.md R76). -/
theorem framePairs_payload (p : Params) (a : ArgRegs) :
    ∃ padding, framePairs p a =
      (List.replicate 6 preambleByte).flatMap bytePairs ++ (linePairs (payloadBits p a) ++ padding) := by
  have hlen : ((List.replicate 6 preambleByte).flatMap bytePairs ++ linePairs (payloadBits p a)).length ≤
      4 * frameLen p a := by
    have heven := (frameWeight_bounds p a).1
    rw [List.length_append, payloadBits_length, frameLen_eq,
      show ((List.replicate 6 preambleByte).flatMap bytePairs).length = 24 from rfl]
    omega
  refine ⟨(linePairs [false, false]).take (4 * frameLen p a -
    ((List.replicate 6 preambleByte).flatMap bytePairs ++ linePairs (payloadBits p a)).length), ?_⟩
  rw [framePairs, frameBits_payload, linePairs_append, linePairs_append, ← preamble_pairs, List.take_append,
    List.take_of_length_le hlen, List.append_assoc]

/-- RXBUF holds a whole frame of the argument registers `a`, and nothing else is declared received (R156). -/
structure State.HoldsReceived (u : State) (p : Params) (a : ArgRegs) : Prop where
  len : u.rxLen.toNat = frameLen p a
  pairs : u.rx.pairs 0 u.rxLen.toNat = framePairs p a

theorem buildAt_received {base : Byte} (hf : s.fault = false) (hsize : s.params.txSize ≤ 255)
    (h : s.buildAt base = .next t) (hok : t.fault = false)
    (hcopy : u.receives t base.toNat (t.enc.txEnd.toNat - base.toNat)) : u.HoldsReceived s.params s.args := by
  obtain ⟨hlen, hbytes⟩ := hcopy
  obtain ⟨⟨hpairs, -⟩, -⟩ := buildAt_success_holdsFrame hf hsize h hok
  have hparams : t.params = s.params := (exec_change (.buildBitstream base) t h).surroundings.params
  rw [buildAt_success_txEnd hf hsize h hok, Nat.add_sub_cancel_left] at hlen hbytes
  refine ⟨hlen, ?_⟩
  rw [hlen, ← hparams, ← hpairs, hparams]
  exact Memory.pairs_congr fun k hk => by rw [Nat.zero_add]; exact hbytes k hk

/-! ### The decode of a received frame (42_frame_parser.md R171, R174) -/

/-- The scan passes the six preamble bytes of a received frame. -/
theorem State.HoldsReceived.scan {p : Params} {a : ArgRegs} (h : u.HoldsReceived p a) :
    scanPreamble u.rx u.rxLen = .start 6 := by
  obtain ⟨padding, hsplit⟩ := framePairs_payload p a
  have hlen := (frameLen_bounds p a).1
  have hsix : 6 ≤ u.rxLen.toNat := by rw [h.len]; omega
  have hbytes := Memory.read_of_pairs (vs := List.replicate 6 preambleByte) hsix (h.pairs.trans hsplit)
  refine scanPreamble_payload ⟨by decide, le_rfl, fun k hk => ?_, fun h6 => absurd h6 (by decide)⟩
    (fun h6 => absurd h6 (by decide)) hsix
  have hbyte := hbytes k hk
  rwa [Nat.zero_add, List.getElem_replicate] at hbyte

/-- The payload of a received frame is ahead of a decoder that starts after the preamble. -/
theorem State.HoldsReceived.ahead {p : Params} {a : ArgRegs} (h : u.HoldsReceived p a) :
    ∃ padding, (freshDec u.rxLen 6).ahead u.rx = linePairs (payloadBits p a) ++ padding := by
  obtain ⟨padding, hsplit⟩ := framePairs_payload p a
  have hlen := (frameLen_bounds p a).1
  have hsum : u.rxLen.toNat = 6 + (u.rxLen.toNat - 6) := by rw [h.len]; omega
  have hpairs := h.pairs.trans hsplit
  rw [hsum, Memory.pairs_append] at hpairs
  exact ⟨padding, (List.append_inj hpairs (by rw [Memory.pairs_length]; rfl)).2⟩

/-- The frame that the argument registers `a` describe, as a decode of `n` bytes returns it (R156). -/
def frameOf (p : Params) (a : ArgRegs) (n : Byte) : Frame :=
  { hc1 := a.hc1, hc2 := a.hc2, addr := frameAddr p a, cmd := a.cmd, ext := a.ext, csum := frameChecksum p a, next := n }

/-- A received frame decodes to its fields, and the decode ends in its last byte. -/
theorem State.HoldsReceived.decodes {p : Params} {a : ArgRegs} (h : u.HoldsReceived p a) :
    ∃ d, decodeFrame u.rx u.rxLen = { dec := d, frame := some (frameOf p a u.rxLen), garbage := [] } ∧
      d.failed = false := by
  obtain ⟨padding, hahead⟩ := h.ahead
  obtain ⟨d, hrun, hread⟩ := decodePayload_frame a.hc1 a.hc2 (frameAddr p a) a.cmd a.ext rfl hahead
  have hpos : d.pos = 137 + frameWeight p a := by
    rw [hread.pos]
    change 24 + (linePairs (payloadBits p a)).length = _
    rw [payloadBits_length]
    omega
  obtain ⟨heven, hweight⟩ := frameWeight_bounds p a
  have hptr : d.ptr.toNat < 255 := by
    have : frameWeight p a ≤ 48 := by grind
    unfold Decoder.pos at hpos
    omega
  have hnext : nextIndex d = u.rxLen := BitVec.eq_of_toNat_eq (by
    rw [nextIndex_pos hptr, hpos, h.len, frameLen_eq]
    omega)
  refine ⟨d, ?_, hread.ok⟩
  rw [decodeFrame, h.scan]
  change decodePayload u.rx (freshDec u.rxLen 6) = _
  rw [hrun, hnext]
  rfl

/-- `DECODE_BITSTREAM` on a frame that decodes leaves its fields in the result registers. -/
theorem execDecodeBitstream_frame {d : Decoder} {f : Frame} {garbage : List Byte} (hf : u.fault = false)
    (hlen : u.rxLen.toNat ≤ u.params.rxSize)
    (hrun : decodeFrame u.rx u.rxLen = { dec := d, frame := some f, garbage := garbage }) (hok : d.failed = false) :
    exec .decodeBitstream u = .next { u with dec := d, ok := true, res := u.res.ofFrame f } := by
  change execDecodeBitstream u = _
  rw [execDecodeBitstream, unlessFaulted_run hf, decide_eq_false (Nat.not_lt_of_le hlen), raiseIf_false, hrun]
  change Host.Outcome.next { u with dec := d, ok := !d.failed, res := u.res.ofFrame f } = _
  rw [hok]
  rfl

/-- Settles O40: the bytes built are the frame a decode reads, and the decode answers the fields it was built from. -/
theorem decodeOfBuildIsTheCommand : Obligations.DecodeOfBuildIsTheCommand := by
  intro s t u base hf hsize hrun hok huf hroom hcopy
  have hreceived := buildAt_received hf hsize hrun hok hcopy
  obtain ⟨d, hdecode, hdok⟩ := hreceived.decodes
  rw [← hcopy.1] at hroom
  have hcsum : t.res.csum = frameChecksum s.params s.args := by
    obtain ⟨hidle, hfits⟩ := buildAt_success hf hsize hrun hok
    obtain ⟨t', ht', -, -, -, hrest⟩ := buildBitstreamLaysDownTheFrame s base hf hidle hsize hfits
    obtain rfl : t = t' := Host.Outcome.next.inj (hrun.symm.trans ht')
    rw [hrest]
  refine ⟨_, execDecodeBitstream_frame huf hroom hdecode hdok, ?_, hdok⟩
  rw [hcsum]
  rfl

end Sys2Proof.Machine
end

section
/-! PROOF. What a build of a frame leaves in TXBUF and the encoder (41_frame_builder.md R151, R152), whoever asks for it: the frame
and its sentinel where they fit, and what the overflow leaves where they do not (60_exceptions.md R232). -/

namespace Sys2Proof.Machine

variable {s t : State} {p : Params} {a : ArgRegs} {base : Byte} {e : Encoder}

/-! ### A build that fits -/

/-- The encoder `e` closed a frame of `a` at index `base`; every byte outside the frame and its sentinel is as in `old`. `TXVALID`
is left to the request (R151, 90_conflicts.md C14). -/
structure FrameBuilt (p : Params) (a : ArgRegs) (base : Nat) (old : Memory) (e : Encoder) : Prop where
  pairs : e.tx.pairs base (frameLen p a) = framePairs p a
  sentinel : e.tx.read (base + frameLen p a) = sentinel
  outside : ∀ k, k < base ∨ base + frameLen p a < k → e.tx.read k = old.read k
  txEnd : e.txEnd.toNat = base + frameLen p a
  flags : e = { tx := e.tx, ptr := e.txEnd, ready := false, txEnd := e.txEnd, txValid := false }

/-- A frame laid down from `base` on and terminated is built. -/
theorem LaidDown.frameBuilt {e₀ : Encoder} (h : LaidDown s.params.txSize (e₀.start base) e (linePairs (frameBits p a))) :
    FrameBuilt p a base.toNat e₀.tx e.terminate := by
  obtain ⟨hptr, hpairs⟩ := LaidDown.holds_framePairs (s := s.setEnc e₀) h
  refine ⟨?_, ?_, fun k hk => ?_, hptr, ?_⟩
  · rw [← hpairs]
    exact Memory.pairs_congr fun k hk => Memory.read_write_other _ _ (by omega)
  · rw [← hptr]
    exact Memory.read_write_same _ _ _
  · rw [Encoder.terminate_tx, Memory.read_write_other _ _ (by omega), h.outside k (by rw [hptr]; exact hk)]
    exact Memory.read_write_other _ _ (by omega)
  · exact congrArg (fun v => { e.terminate with txValid := v }) h.txValid

/-- A body that fits builds its frame, from any encoder. -/
theorem buildBody_fits (s : State) (e₀ : Encoder) (hsize : s.params.txSize ≤ 255)
    (hfits : base.toNat + frameLen p a + 1 ≤ s.params.txSize) :
    ∃ e, buildBody s.params.txSize (frameBytes p a) base e₀ = .ok e ∧ FrameBuilt p a base.toNat e₀.tx e := by
  rcases buildBody_cases (frameBytes p a) base e₀ hsize (by omega) with ⟨e, he, hlaid, -⟩ | ⟨e, -, -, hfull⟩
  · exact ⟨_, he, LaidDown.frameBuilt (s := s) hlaid⟩
  · rw [← frameBits_eq, frameBits_length, ← frameLen_eq] at hfull
    omega

/-- `TXVALID` set after the build leaves the other fields of the encoder as the build left them. -/
theorem FrameBuilt.setValid_eq {n : Nat} {old : Memory} (h : FrameBuilt p a n old e) (b : Bool) :
    e.setValid b = { tx := e.tx, ptr := e.txEnd, ready := false, txEnd := e.txEnd, txValid := b } :=
  congrArg (Encoder.setValid · b) h.flags

/-! ### A build that overflows -/

/-- A body that does not fit overflows with the frame's pairs cut at the end of TXBUF, from any encoder. -/
theorem buildBody_overflows (s : State) (e₀ : Encoder) (hsize : s.params.txSize ≤ 255) (hbase : base.toNat < s.params.txSize)
    (hfull : s.params.txSize < base.toNat + frameLen p a + 1) :
    ∃ e, buildBody s.params.txSize (frameBytes p a) base e₀ = .overflow e ∧
      Overflowed s.params.txSize (e₀.start base) e (linePairs (frameBits p a)) := by
  rcases buildBody_cases (frameBytes p a) base e₀ hsize hbase with ⟨e, -, -, hfits⟩ | ⟨e, he, hover, -⟩
  · rw [← frameBits_eq, frameBits_length, ← frameLen_eq] at hfits
    omega
  · exact ⟨e, he, hover⟩

/-- The encoder at the overflow of a stream just started: an open stream, and the `TX_END` of before (10_state.md R24, R26). -/
theorem Overflowed.started_eq {size : Nat} {qs : List Pair} {e₀ : Encoder} (h : Overflowed size (e₀.start base) e qs) :
    e = { tx := e.tx, ptr := e.ptr, ready := true, txEnd := e₀.txEnd, txValid := false } := by
  obtain ⟨tx, ptr, ready, txEnd, txValid⟩ := e
  obtain rfl : ready = true := h.ready
  obtain rfl : txEnd = e₀.txEnd := h.txEnd
  obtain rfl : txValid = false := h.txValid
  rfl

/-- A bitstream build whose frame does not fit ends in `TX_OVERFLOW`, with what the build had written. -/
theorem buildAt_overflows (hf : s.fault = false) (hidle : s.txActive = false) (hsize : s.params.txSize ≤ 255)
    (hbase : base.toNat < s.params.txSize) (hfull : s.params.txSize < base.toNat + frameLen s.params s.args + 1) :
    ∃ e, s.buildAt base = .next (((s.setCsum (frameChecksum s.params s.args)).setEnc e).raise .txOverflow) ∧
      Overflowed s.params.txSize (s.enc.start base) e (linePairs (frameBits s.params s.args)) := by
  obtain ⟨e, he, hover⟩ := buildBody_overflows s s.enc hsize hbase hfull
  refine ⟨e, ?_, hover⟩
  rw [State.buildAt, unlessFaulted_run hf, decide_eq_false (Nat.not_le_of_lt hbase), hidle, he]
  rfl

/-- Settles O37, by what an overflow of the build leaves. -/
theorem buildBitstreamOverflowFaults : Obligations.BuildBitstreamOverflowFaults := by
  intro s base hf hidle hsize hbase hfull
  obtain ⟨e, hrun, hover⟩ := buildAt_overflows hf hidle hsize hbase hfull
  have hempty : (s.enc.start base).stream base.toNat = [] := by
    simp [Encoder.stream, Encoder.current, Memory.pairs, Memory.readList]
  have hlaid := hover.laid base.toNat le_rfl
  rw [hempty, List.nil_append] at hlaid
  refine ⟨_, hrun, hover.ptr, hlaid, fun k hk => ?_, ?_⟩
  · exact (hover.outside k hk).trans (Memory.read_write_other s.enc.tx sentinel (by omega))
  · exact congrArg (fun enc => ((s.setCsum (frameChecksum s.params s.args)).setEnc enc).raise .txOverflow) hover.started_eq

end Sys2Proof.Machine
end

section
/-! PROOF. `BUILD_VALVE_SET` (41_frame_builder.md R145, R150, R152, R153): its checks, its scaled percentage, the header and the frame
it builds in every block with legal parameters, and what it leaves when no trailer follows. -/

namespace Sys2Proof.Machine

variable {s t : State} {i : Instr} {e e' : Encoder} {c : FaultCode} {k : Byte}

/-! ### The percentage (R145) -/

theorem scale_toNat {pct : Byte} (h : pct.toNat ≤ 100) : (scale pct).toNat = (255 * pct.toNat + 50) / 100 := by
  rw [scale, BitVec.toNat_ofNat]
  exact Nat.mod_eq_of_lt (by omega)

/-! ### The checks and the body (R150, R234) -/

/-- The row `CMD_SET_PERCENT` does what `BUILD_VALVE_SET` does (log 10). -/
theorem exec_valveSet (hi : i = .buildValveSet ∨ i = .cmdSetPercent) : exec i s = s.valveSet := by
  rcases hi with rfl | rfl <;> rfl

/-- What `BUILD_VALVE_SET` checks before it writes anything. -/
structure State.ValveSetReady (s : State) : Prop where
  fault : s.fault = false
  pct : s.args.pct.toNat ≤ 100
  threshLo : 1 ≤ s.args.thresh.toNat
  threshHi : s.args.thresh.toNat ≤ 100
  record : (trailerWanted s.args && s.statsIn.isNone) = false
  idle : s.txActive = false
  header : headerLen s.params s.args < s.params.txSize

theorem State.ValveSetReady.run (h : s.ValveSetReady) : s.valveSet = s.valveSetBody := by
  simp only [State.valveSet, unlessFaulted_run h.fault, decide_eq_false (Nat.not_lt_of_le h.pct),
    decide_eq_false (Nat.not_lt_of_le h.threshLo), decide_eq_false (Nat.not_lt_of_le h.threshHi), Bool.or_self, h.record,
    h.idle, raiseIf_false, withinTx_run h.header]

/-- A trailer that raises its fault ends the request with the frame built and none of the trailer written (R154). -/
theorem valveSetBody_raised (hrun : s.valveSetRun = .ok e) (htrailer : s.valveSetTrailer e = .raised c) :
    s.valveSetBody = .next ((s.valveSetWritten.setEnc e).raise c) := by
  simp only [State.valveSetRun] at hrun
  simp only [State.valveSetTrailer] at htrailer
  simp only [State.valveSetBody, hrun, htrailer]
  rfl

theorem valveSetBody_done (hrun : s.valveSetRun = .ok e) (htrailer : s.valveSetTrailer e = .done k e') :
    s.valveSetBody = .next (s.valveSetDone k e') := by
  simp only [State.valveSetRun] at hrun
  simp only [State.valveSetTrailer] at htrailer
  simp only [State.valveSetBody, hrun, htrailer]
  rfl

theorem valveSetBody_overflow (hrun : s.valveSetRun = .overflow e) :
    s.valveSetBody = .next ((s.valveSetWritten.setEnc e).raise .txOverflow) := by
  simp only [State.valveSetRun] at hrun
  simp only [State.valveSetBody, hrun]
  rfl

/-- A `BUILD_VALVE_SET` outside the fault state that raises no fault passed its checks and completed. -/
theorem valveSet_success (hf : s.fault = false) (h : s.valveSet = .next t) (hok : t.fault = false) :
    s.ValveSetReady ∧ ∃ e k e', s.valveSetRun = .ok e ∧ s.valveSetTrailer e = .done k e' ∧ t = s.valveSetDone k e' := by
  have hchecks := h
  rw [State.valveSet, unlessFaulted_run hf] at hchecks
  rcases raiseIf_cases hchecks with ⟨-, rfl⟩ | ⟨hpct, hchecks⟩
  · cases hok
  rcases raiseIf_cases hchecks with ⟨-, rfl⟩ | ⟨hthresh, hchecks⟩
  · cases hok
  rcases raiseIf_cases hchecks with ⟨-, rfl⟩ | ⟨hrecord, hchecks⟩
  · cases hok
  rcases raiseIf_cases hchecks with ⟨-, rfl⟩ | ⟨hidle, hchecks⟩
  · cases hok
  obtain ⟨hheader, hbody⟩ := withinTx_cases hchecks
  simp only [Bool.or_eq_false_iff, decide_eq_false_iff_not, Nat.not_lt] at hpct hthresh
  refine ⟨⟨hf, hpct, hthresh.1, hthresh.2, hrecord, hidle, hheader⟩, ?_⟩
  cases hrun : s.valveSetRun with
  | overflow e =>
    cases (valveSetBody_overflow hrun).symm.trans hbody
    cases hok
  | ok e =>
    cases htrailer : s.valveSetTrailer e with
    | raised c =>
      cases (valveSetBody_raised hrun htrailer).symm.trans hbody
      cases hok
    | done k e' =>
      exact ⟨e, k, e', rfl, htrailer, Host.Outcome.next.inj (hbody.symm.trans (valveSetBody_done hrun htrailer))⟩

/-- Settles O35: the extension is the quotient that `Scale` computes without a wrap. -/
theorem scaleRoundsTiesUp : Obligations.ScaleRoundsTiesUp := by
  refine ⟨fun s t hf h hok => ?_, fun pct hpct => ?_, fun p q hle hq => ?_, by decide, by decide, by decide, by decide,
    by decide, by decide⟩
  · obtain ⟨hready, e, k, e', -, -, rfl⟩ := valveSet_success hf h hok
    exact ⟨hready.pct, scale_toNat hready.pct⟩
  · rw [scale_toNat hpct]
    omega
  · rw [scale_toNat (hle.trans hq), scale_toNat hq]
    omega

/-! ### The header and the frame (R150, R152, R153) -/

theorem Params.txSize_bounds {p : Params} (h : p.wf = true) :
    p.txSize ≤ 255 ∧ p.maxHeader + (if p.addrEn then 48 else 46) ≤ p.txSize := by
  simp only [Params.wf, Params.txSizeOk, Bool.and_eq_true, decide_eq_true_eq] at h
  obtain ⟨⟨⟨⟨-, hhi⟩, hroom⟩, -⟩, -⟩ := h
  exact ⟨hhi, hroom⟩

theorem headerLen_le (p : Params) (a : ArgRegs) : headerLen p a ≤ p.maxHeader := by
  unfold Params.maxHeader
  rw [headerLen_eq]
  split
  · rw [if_pos (by tauto)]
  · exact Nat.zero_le _

/-- TXBUF of a block with legal parameters has room for the header and any frame (R152). -/
theorem headerLen_add_frameLen_lt {p : Params} (h : p.wf = true) (a b : ArgRegs) :
    headerLen p a + frameLen p b + 1 ≤ p.txSize := by
  have hroom := (Params.txSize_bounds h).2
  have hheader := headerLen_le p a
  have hframe := (frameLen_bounds p b).2
  grind

/-- The index of the sentinel after the header and the frame: the `TX_END` before a trailer. -/
def State.valveSetEnd (s : State) : Nat := headerLen s.params s.args + frameLen s.params (valveSetArgs s.args)

/-- The encoder `e` closed the frame of `BUILD_VALVE_SET` after its header. -/
abbrev State.ValveBuilt (s : State) (e : Encoder) : Prop :=
  FrameBuilt s.params (valveSetArgs s.args) (headerLen s.params s.args)
    (s.enc.tx.writeList 0 (List.replicate (headerLen s.params s.args) s.params.hdrByte)) e

/-- With legal parameters the build of `BUILD_VALVE_SET` never overflows (R152). -/
theorem valveSetRun_built (hwf : s.params.wf = true) : ∃ e, s.valveSetRun = .ok e ∧ s.ValveBuilt e := by
  have hsize := (Params.txSize_bounds hwf).1
  have hfits := headerLen_add_frameLen_lt hwf s.args (valveSetArgs s.args)
  have hbase : (BitVec.ofNat 8 (headerLen s.params s.args)).toNat = headerLen s.params s.args := by
    rw [BitVec.toNat_ofNat]
    exact Nat.mod_eq_of_lt (by omega)
  obtain ⟨e, he, hbuilt⟩ := buildBody_fits (base := BitVec.ofNat 8 (headerLen s.params s.args)) s
    (s.enc.writeHeader (headerLen s.params s.args) s.params.hdrByte) hsize (by rw [hbase]; exact hfits)
  rw [hbase] at hbuilt
  exact ⟨e, he, hbuilt⟩

theorem State.ValveBuilt.header (h : s.ValveBuilt e) {j : Nat} (hj : j < headerLen s.params s.args) :
    e.tx.read j = s.params.hdrByte := by
  rw [h.outside j (.inl hj), Memory.read_writeList, dif_pos ⟨Nat.zero_le j, by simpa using hj⟩, List.getElem_replicate]

theorem State.ValveBuilt.after (h : s.ValveBuilt e) {j : Nat} (hj : s.valveSetEnd < j) : e.tx.read j = s.txByte j := by
  unfold State.valveSetEnd at hj
  rw [h.outside j (.inr hj), Memory.read_writeList_outside _ _ (by rw [List.length_replicate]; omega)]
  rfl

/-- `t` holds the header and the frame of the `BUILD_VALVE_SET` asked for in `s`. -/
structure State.HoldsValveFrame (s t : State) : Prop where
  header : ∀ j, j < headerLen s.params s.args → t.txByte j = s.params.hdrByte
  pairs : t.enc.tx.pairs (headerLen s.params s.args) (frameLen s.params (valveSetArgs s.args)) =
    framePairs s.params (valveSetArgs s.args)

/-- Whatever keeps the bytes before the sentinel keeps the header and the frame. -/
theorem State.ValveBuilt.holds (h : s.ValveBuilt e) (hbelow : ∀ j, j < s.valveSetEnd → t.txByte j = e.tx.read j) :
    s.HoldsValveFrame t := by
  unfold State.valveSetEnd at hbelow
  refine ⟨fun j hj => ?_, ?_⟩
  · rw [hbelow j (by omega), h.header hj]
  · rw [← h.pairs]
    exact Memory.pairs_congr fun j hj => hbelow _ (by omega)

/-- A `BUILD_VALVE_SET` past its checks builds its header and its frame and goes on with the trailer. -/
theorem State.ValveSetReady.builds (h : s.ValveSetReady) (hwf : s.params.wf = true) :
    ∃ e, s.ValveBuilt e ∧ (∀ c, s.valveSetTrailer e = .raised c → s.valveSet = .next ((s.valveSetWritten.setEnc e).raise c)) ∧
      (∀ k e', s.valveSetTrailer e = .done k e' → s.valveSet = .next (s.valveSetDone k e')) := by
  obtain ⟨e, hrun, hbuilt⟩ := valveSetRun_built hwf
  refine ⟨e, hbuilt, fun c hc => ?_, fun k e' hk => ?_⟩
  · rw [h.run, valveSetBody_raised hrun hc]
  · rw [h.run, valveSetBody_done hrun hk]

/-- With legal parameters the checks are those of R150 on the operands, the record and the transmission. -/
theorem valveSetReady_of_operands (hf : s.fault = false) (hidle : s.txActive = false) (hwf : s.params.wf = true)
    (hpct : s.args.pct.toNat ≤ 100) (hlo : 1 ≤ s.args.thresh.toNat) (hhi : s.args.thresh.toNat ≤ 100)
    (hrecord : (trailerWanted s.args && s.statsIn.isNone) = false) : s.ValveSetReady :=
  ⟨hf, hpct, hlo, hhi, hrecord, hidle, by have := headerLen_add_frameLen_lt hwf s.args s.args; omega⟩

/-! ### A build without a trailer (R153) -/

/-- The state a `BUILD_VALVE_SET` that appended no trailer leaves. -/
structure ValveSetPlain (s t : State) : Prop where
  frame : s.HoldsValveFrame t
  sentinel : t.txByte s.valveSetEnd = sentinel
  outside : ∀ j, s.valveSetEnd < j → t.txByte j = s.txByte j
  txEnd : t.enc.txEnd.toNat = s.valveSetEnd
  state : t = { s with
    enc := { tx := t.enc.tx, ptr := t.enc.txEnd, ready := false, txEnd := t.enc.txEnd, txValid := true }
    args := valveSetArgs s.args
    res := { s.res with csum := frameChecksum s.params (valveSetArgs s.args), kind := 0x01 }
    ok := true }

theorem State.ValveBuilt.plain (h : s.ValveBuilt e) : ValveSetPlain s (s.valveSetDone 0 e) where
  frame := h.holds fun _ _ => rfl
  sentinel := h.sentinel
  outside := fun _ hj => h.after hj
  txEnd := h.txEnd
  state := congrArg (fun enc => (State.setEnc { s.valveSetWritten with
    res := { s.valveSetWritten.res with kind := 0x01 } } enc).setOk true) (h.setValid_eq true)

/-- Settles O43: no record is attached, so the trailer leaves the build as it is. -/
theorem valveSetBuildsHeaderAndFrame : Obligations.ValveSetBuildsHeaderAndFrame := by
  intro s i hlen a hi hf hidle hwf hpct hlo hhi hflags hhlen ha
  obtain rfl : hlen = headerLen s.params s.args := hhlen.trans (headerLen_eq _ _).symm
  obtain rfl : a = valveSetArgs s.args := ha
  have hwanted : trailerWanted s.args = false := hflags
  have hready := valveSetReady_of_operands hf hidle hwf hpct hlo hhi (by rw [hwanted]; rfl)
  obtain ⟨e, hbuilt, -, hdone⟩ := hready.builds hwf
  have htrailer : s.valveSetTrailer e = .done 0 e := by
    rw [State.valveSetTrailer, State.trailerRecord, hwanted]
    rfl
  obtain ⟨hframe, hsentinel, houtside, hend, hstate⟩ := hbuilt.plain
  exact ⟨_, (exec_valveSet hi).trans (hdone 0 e htrailer), hframe.header, ⟨hframe.pairs, hsentinel⟩, hend, houtside, hstate⟩

end Sys2Proof.Machine
end

section
/-! PROOF. The trailers of `BUILD_VALVE_SET` (41_frame_builder.md R154): what a trailer that is written and one that is refused leave,
and which of the two the Stats Codec's answer leads to. -/

namespace Sys2Proof.Machine

variable {s t : State} {e : Encoder} {c : FaultCode} {k : Byte} {bytes : List Byte} {r : StatsRecord}

/-! ### A trailer that is written -/

/-- The state a `BUILD_VALVE_SET` that appended the trailer `vs` leaves: they replace the sentinel of the build, and a new one
follows them. -/
structure ValveSetTrailed (s t : State) (vs : List Byte) (kind : Byte) : Prop where
  frame : s.HoldsValveFrame t
  written : ∀ j (hj : j < vs.length), t.txByte (s.valveSetEnd + j) = vs[j]
  sentinel : t.txByte (s.valveSetEnd + vs.length) = sentinel
  outside : ∀ j, s.valveSetEnd + vs.length < j → t.txByte j = s.txByte j
  txEnd : t.enc.txEnd.toNat = s.valveSetEnd + vs.length
  ptr : t.enc.ptr.toNat = s.valveSetEnd
  state : t = { s with
    enc := { tx := t.enc.tx, ptr := t.enc.ptr, ready := false, txEnd := t.enc.txEnd, txValid := true }
    args := valveSetArgs s.args
    res := { s.res with csum := frameChecksum s.params (valveSetArgs s.args), kind := kind }
    ok := true }

theorem writeTrailer_read_below {a : Nat} (h : a < e.txEnd.toNat) : (e.writeTrailer bytes).tx.read a = e.tx.read a := by
  rw [writeTrailer_read, if_neg (by omega), dif_neg (by omega)]

theorem writeTrailer_read_above {a : Nat} (h : e.txEnd.toNat + bytes.length < a) :
    (e.writeTrailer bytes).tx.read a = e.tx.read a := by
  rw [writeTrailer_read, if_neg (by omega), dif_neg (by omega)]

theorem writeTrailer_read_sentinel : (e.writeTrailer bytes).tx.read (e.txEnd.toNat + bytes.length) = sentinel := by
  rw [writeTrailer_read, if_pos rfl]

theorem writeTrailer_read_trailer {j : Nat} (hj : j < bytes.length) :
    (e.writeTrailer bytes).tx.read (e.txEnd.toNat + j) = bytes[j] := by
  rw [writeTrailer_read, if_neg (by omega), dif_pos (by omega)]
  simp only [Nat.add_sub_cancel_left]

theorem State.ValveBuilt.trailed (h : s.ValveBuilt e) (hsize : s.params.txSize ≤ 255)
    (hfits : s.valveSetEnd + bytes.length < s.params.txSize) (k : Byte) :
    ValveSetTrailed s (s.valveSetDone k (e.writeTrailer bytes)) bytes ((k <<< 2) ||| 1) := by
  have hend : e.txEnd.toNat = s.valveSetEnd := h.txEnd
  refine ⟨h.holds fun j hj => ?_, fun j hj => ?_, ?_, fun j hj => ?_, ?_, ?_, ?_⟩
  · exact writeTrailer_read_below (hend.symm ▸ hj)
  · rw [← hend]
    exact writeTrailer_read_trailer hj
  · rw [← hend]
    exact writeTrailer_read_sentinel
  · exact (writeTrailer_read_above (hend.symm ▸ hj)).trans (h.after (by omega))
  · change (BitVec.ofNat 8 (e.txEnd.toNat + bytes.length)).toNat = _
    rw [BitVec.toNat_ofNat, hend]
    exact Nat.mod_eq_of_lt (by omega)
  · rw [← hend]
    exact congrArg (fun enc => enc.ptr.toNat) h.flags
  · have hclosed : e.ready = false := congrArg Encoder.ready h.flags
    exact congrArg (fun ready => (State.setEnc (s.valveSetDone k (e.writeTrailer bytes))
      { (e.writeTrailer bytes).setValid true with ready := ready })) hclosed

/-! ### A trailer that is refused -/

/-- The state a `BUILD_VALVE_SET` whose trailer raised the fault `c` leaves: the build stands, and nothing follows its
sentinel. -/
structure ValveSetRaised (s t : State) (c : FaultCode) : Prop where
  frame : s.HoldsValveFrame t
  sentinel : t.txByte s.valveSetEnd = sentinel
  outside : ∀ j, s.valveSetEnd < j → t.txByte j = s.txByte j
  txEnd : t.enc.txEnd.toNat = s.valveSetEnd
  state : t = { s with
    enc := { tx := t.enc.tx, ptr := t.enc.txEnd, ready := false, txEnd := t.enc.txEnd, txValid := false }
    args := valveSetArgs s.args
    res := { s.res with csum := frameChecksum s.params (valveSetArgs s.args) }
    ok := false, fault := true, fcode := c }

theorem State.ValveBuilt.raised (h : s.ValveBuilt e) (c : FaultCode) :
    ValveSetRaised s ((s.valveSetWritten.setEnc e).raise c) c where
  frame := h.holds fun _ _ => rfl
  sentinel := h.sentinel
  outside := fun _ hj => h.after hj
  txEnd := h.txEnd
  state := congrArg (fun enc => (s.valveSetWritten.setEnc enc).raise c) h.flags

/-! ### The minimal trailer -/

theorem contains_sentinel_iff : bytes.contains sentinel = true ↔ 0xFF ∈ bytes := List.contains_iff_mem

/-- A trailer with a 0xFF in it breaks the codec's contract (R154). -/
theorem appendMinTrailer_statsBad {p : Params} {b0 b1 b2 : Byte} (hanswer : statsMinEncode p r = (b0, b1, b2))
    (hbad : 0xFF ∈ [b0, b1, b2]) : appendMinTrailer p r e = .raised .statsBad := by
  simp only [appendMinTrailer, hanswer]
  rw [if_pos (contains_sentinel_iff.mpr hbad)]

theorem appendMinTrailer_overflow {p : Params} {b0 b1 b2 : Byte} (hanswer : statsMinEncode p r = (b0, b1, b2))
    (hgood : 0xFF ∉ [b0, b1, b2]) (hfull : p.txSize ≤ e.txEnd.toNat + 3) :
    appendMinTrailer p r e = .raised .txOverflow := by
  simp only [appendMinTrailer, hanswer]
  rw [if_neg (fun h => hgood (contains_sentinel_iff.mp h)), if_pos hfull]

theorem appendMinTrailer_done {p : Params} {b0 b1 b2 : Byte} (hanswer : statsMinEncode p r = (b0, b1, b2))
    (hgood : 0xFF ∉ [b0, b1, b2]) (hfits : e.txEnd.toNat + 3 < p.txSize) :
    appendMinTrailer p r e = .done 1 (e.writeTrailer [b0, b1, b2]) := by
  simp only [appendMinTrailer, hanswer]
  rw [if_neg (fun h => hgood (contains_sentinel_iff.mp h)), if_neg (Nat.not_le_of_lt hfits)]

/-- A wanted trailer is encoded from the record supplied, in the form the flags name (R153, R154). -/
theorem valveSetTrailer_record (hwanted : trailerWanted s.args = true) (hrecord : s.statsIn = some r) (e : Encoder) :
    s.valveSetTrailer e =
      if trailerMinimal s.args then appendMinTrailer s.params r e else appendFullTrailer s.params r e := by
  rw [State.valveSetTrailer, State.trailerRecord, if_pos hwanted, hrecord]
  rfl

/-- The low four bits of `ARG_FLAGS` that ask for a minimal trailer (10_state.md R32, R153). -/
theorem minimal_of_flags {a : ArgRegs} (h : a.flags.extractLsb' 0 4 = 0b1001) :
    trailerWanted a = true ∧ trailerMinimal a = true := by
  have hbit : ∀ j, j < 4 → a.flags.getLsbD j = (0b1001 : BitVec 4).getLsbD j := fun j hj => by
    rw [← h, BitVec.getLsbD_extractLsb', decide_eq_true hj, Bool.true_and, Nat.zero_add]
  simp only [trailerWanted, trailerMinimal, trlPresent, minstatsEn, trlHasId, trlHasAmbl, hbit 0 (by decide),
    hbit 1 (by decide), hbit 2 (by decide), hbit 3 (by decide)]
  decide

/-- Settles O44, by the three ends of the minimal trailer. -/
theorem valveSetAppendsMinimalTrailer : Obligations.ValveSetAppendsMinimalTrailer := by
  intro s i hlen T a r b0 b1 b2 hi hf hidle hwf hpct hlo hhi hflags hrecord hanswer hhlen ha hT
  obtain rfl : hlen = headerLen s.params s.args := hhlen.trans (headerLen_eq _ _).symm
  obtain rfl : a = valveSetArgs s.args := ha
  obtain rfl : T = s.valveSetEnd := hT
  obtain ⟨hwanted, hminimal⟩ := minimal_of_flags hflags
  have hready := valveSetReady_of_operands hf hidle hwf hpct hlo hhi (by rw [hrecord]; exact Bool.and_false _)
  obtain ⟨e, hbuilt, hraised, hdone⟩ := hready.builds hwf
  have hend : e.txEnd.toNat = s.valveSetEnd := hbuilt.txEnd
  have htrailer := valveSetTrailer_record hwanted hrecord e
  rw [if_pos hminimal] at htrailer
  rw [exec_valveSet hi]
  by_cases hbad : 0xFF ∈ [b0, b1, b2]
  · have hrun := hraised _ (htrailer.trans (appendMinTrailer_statsBad hanswer hbad))
    obtain ⟨hframe, hsentinel, houtside, htxEnd, hstate⟩ := hbuilt.raised .statsBad
    refine ⟨_, hrun, hframe.header, hframe.pairs, fun h => absurd hbad h.1, ?_⟩
    rintro c (⟨-, rfl⟩ | ⟨hgood, -, -⟩)
    · exact ⟨hsentinel, houtside, htxEnd, hstate⟩
    · exact absurd hbad hgood
  by_cases hfits : s.valveSetEnd + 3 < s.params.txSize
  · have hrun := hdone _ _ (htrailer.trans (appendMinTrailer_done hanswer hbad (hend.symm ▸ hfits)))
    obtain ⟨hframe, hwritten, hsentinel, houtside, htxEnd, hptr, hstate⟩ :=
      hbuilt.trailed (bytes := [b0, b1, b2]) (Params.txSize_bounds hwf).1 hfits 1
    have h0 := hwritten 0 (by simp)
    have h1 := hwritten 1 (by simp)
    have h2 := hwritten 2 (by simp)
    refine ⟨_, hrun, hframe.header, hframe.pairs,
      fun _ => ⟨h0, h1, h2, hsentinel, houtside, htxEnd, hptr, hstate⟩, ?_⟩
    rintro c (⟨h, -⟩ | ⟨-, hfull, -⟩)
    · exact absurd h hbad
    · exact absurd hfits (Nat.not_lt_of_le hfull)
  · have hfull := Nat.le_of_not_lt hfits
    have hrun := hraised _ (htrailer.trans (appendMinTrailer_overflow hanswer hbad (hend.symm ▸ hfull)))
    obtain ⟨hframe, hsentinel, houtside, htxEnd, hstate⟩ := hbuilt.raised .txOverflow
    refine ⟨_, hrun, hframe.header, hframe.pairs, fun h => absurd h.2 hfits, ?_⟩
    rintro c (⟨h, -⟩ | ⟨-, -, rfl⟩)
    · exact absurd h hbad
    · exact ⟨hsentinel, houtside, htxEnd, hstate⟩

/-! ### The full trailer -/

/-- An answer keeps the codec's contract when it fits the room left and holds no 0xFF (R154, 42_frame_parser.md R179). -/
def trailerLegal (p : Params) (e : Encoder) (vs : List Byte) : Prop :=
  vs.length ≤ p.txSize - e.txEnd.toNat - 1 ∧ 0xFF ∉ vs

theorem appendFullTrailer_none {p : Params} (hanswer : statsEncode p r (p.txSize - e.txEnd.toNat - 1) = none) :
    appendFullTrailer p r e = .done 0 e := by
  simp only [appendFullTrailer, hanswer]

theorem appendFullTrailer_done {p : Params} (hanswer : statsEncode p r (p.txSize - e.txEnd.toNat - 1) = some bytes)
    (hlegal : trailerLegal p e bytes) : appendFullTrailer p r e = .done 2 (e.writeTrailer bytes) := by
  obtain ⟨hroom, hgood⟩ := hlegal
  have hclean : bytes.contains sentinel = false := Bool.eq_false_iff.mpr fun h => hgood (contains_sentinel_iff.mp h)
  simp only [appendFullTrailer, hanswer, hclean, decide_eq_false (Nat.not_lt_of_le hroom), Bool.or_self]
  rfl

theorem appendFullTrailer_statsBad {p : Params} (hanswer : statsEncode p r (p.txSize - e.txEnd.toNat - 1) = some bytes)
    (hbreach : ¬ trailerLegal p e bytes) : appendFullTrailer p r e = .raised .statsBad := by
  simp only [appendFullTrailer, hanswer]
  refine if_pos ?_
  rw [Bool.or_eq_true, decide_eq_true_eq, contains_sentinel_iff]
  unfold trailerLegal at hbreach
  by_contra h
  exact hbreach ⟨Nat.le_of_not_lt fun hlong => h (.inl hlong), fun hbad => h (.inr hbad)⟩

/-- An ID or an ambient light asked for makes the trailer a full one (10_state.md R32, R153). -/
theorem full_of_flags {a : ArgRegs} (h : a.flags.extractLsb' 1 2 ≠ 0) : trailerMinimal a = false := by
  by_contra hminimal
  simp only [trailerMinimal, trlHasId, trlHasAmbl, Bool.not_eq_false, Bool.and_eq_true, Bool.not_eq_true'] at hminimal
  obtain ⟨hid, hambl⟩ := hminimal
  refine h (BitVec.eq_of_getLsbD_eq fun j hj => ?_)
  rw [BitVec.getLsbD_extractLsb']
  obtain rfl | rfl : j = 0 ∨ j = 1 := by omega
  · exact hid
  · exact hambl

/-- A list of bytes read is known byte by byte. -/
theorem Memory.readList_eq {m : Memory} {a : Nat} {vs : List Byte} (h : ∀ j (hj : j < vs.length), m.read (a + j) = vs[j]) :
    m.readList a vs.length = vs := by
  induction vs generalizing a with
  | nil => rfl
  | cons v vs ih =>
    refine congrArg₂ List.cons (h 0 (Nat.zero_lt_succ _)) (ih fun j hj => ?_)
    rw [show a + 1 + j = a + (j + 1) by omega]
    exact h (j + 1) (Nat.succ_lt_succ hj)

/-- Settles O45, by the three answers of the Stats Codec. -/
theorem valveSetAppendsFullTrailer : Obligations.ValveSetAppendsFullTrailer := by
  intro s i hlen T a r answer hi hf hidle hwf hpct hlo hhi hpresent henabled hfull hrecord hhlen ha hT hanswer
  obtain rfl : hlen = headerLen s.params s.args := hhlen.trans (headerLen_eq _ _).symm
  obtain rfl : a = valveSetArgs s.args := ha
  obtain rfl : T = s.valveSetEnd := hT
  have hwanted : trailerWanted s.args = true := by
    rw [trailerWanted, trlPresent, minstatsEn, hpresent, henabled]
    rfl
  have hready := valveSetReady_of_operands hf hidle hwf hpct hlo hhi (by rw [hrecord]; exact Bool.and_false _)
  obtain ⟨e, hbuilt, hraised, hdone⟩ := hready.builds hwf
  have hend : e.txEnd.toNat = s.valveSetEnd := hbuilt.txEnd
  have htrailer := valveSetTrailer_record hwanted hrecord e
  rw [full_of_flags hfull, if_neg Bool.false_ne_true] at htrailer
  rw [exec_valveSet hi]
  rw [← hend] at hanswer
  cases answer with
  | none =>
    have hrun := hdone _ _ (htrailer.trans (appendFullTrailer_none hanswer))
    obtain ⟨hframe, hsentinel, houtside, htxEnd, hstate⟩ := hbuilt.plain
    exact ⟨_, hrun, hframe.header, hframe.pairs, fun _ => ⟨hsentinel, htxEnd, houtside, hstate⟩, nofun, nofun⟩
  | some bytes =>
    by_cases hlegal : trailerLegal s.params e bytes
    · have hrun := hdone _ _ (htrailer.trans (appendFullTrailer_done hanswer hlegal))
      rw [trailerLegal, hend] at hlegal
      have hfits : s.valveSetEnd + bytes.length < s.params.txSize := by
        have := headerLen_add_frameLen_lt hwf s.args (valveSetArgs s.args)
        unfold State.valveSetEnd at *
        omega
      obtain ⟨hframe, hwritten, hsentinel, houtside, htxEnd, hptr, hstate⟩ :=
        hbuilt.trailed (Params.txSize_bounds hwf).1 hfits 2
      refine ⟨_, hrun, hframe.header, hframe.pairs, nofun, ?_, ?_⟩
      · rintro _ ⟨⟩ -
        exact ⟨Memory.readList_eq hwritten, hsentinel, houtside, htxEnd, hptr, hstate⟩
      · rintro _ ⟨⟩ h
        exact absurd hlegal h
    · have hrun := hraised _ (htrailer.trans (appendFullTrailer_statsBad hanswer hlegal))
      obtain ⟨hframe, hsentinel, houtside, htxEnd, hstate⟩ := hbuilt.raised .statsBad
      rw [trailerLegal, hend] at hlegal
      refine ⟨_, hrun, hframe.header, hframe.pairs, nofun, ?_, ?_⟩
      · rintro _ ⟨⟩ h
        exact absurd h hlegal
      · rintro _ ⟨⟩ -
        exact ⟨hsentinel, houtside, htxEnd, hstate⟩

end Sys2Proof.Machine
end

section
/-! PROOF. Two runs of a builder side by side: neither depends on what TXBUF held before (41_frame_builder.md R155), and a second
build repeats the first (R158). -/

namespace Sys2Proof.Machine

variable {s s' t u : State} {p : Params} {a : ArgRegs} {base : Byte} {e f e₀ : Encoder} {lo n : Nat} {m m' : Memory}

/-! ### Encoders that built the same stream -/

/-- `f` is `e` but for TXBUF, and TXBUF holds the same bytes from `lo` to `TX_END`. -/
structure Encoder.Agrees (lo : Nat) (e f : Encoder) : Prop where
  same : f = { e with tx := f.tx }
  bytes : ∀ j, lo ≤ j → j ≤ e.txEnd.toNat → f.tx.read j = e.tx.read j

theorem Encoder.Agrees.txEnd (h : e.Agrees lo f) : f.txEnd = e.txEnd := (congrArg Encoder.txEnd h.same :)

theorem Encoder.Agrees.setValid (h : e.Agrees lo f) (b : Bool) : (e.setValid b).Agrees lo (f.setValid b) :=
  ⟨congrArg (Encoder.setValid · b) h.same, h.bytes⟩

/-- Equal pairs are those of equal bytes. -/
theorem Memory.read_eq_of_pairs_eq {b : Nat} (h : m.pairs n b = m'.pairs n b) {j : Nat} (hj : j < b) :
    m.read (n + j) = m'.read (n + j) := by
  induction b generalizing n j with
  | zero => exact absurd hj (Nat.not_lt_zero j)
  | succ b ih =>
    rw [Memory.pairs_cons, Memory.pairs_cons] at h
    obtain ⟨hbyte, htail⟩ := List.append_inj h rfl
    cases j with
    | zero => exact bytePairs_injective hbyte
    | succ j =>
      rw [show n + (j + 1) = n + 1 + j by omega]
      exact ih htail (Nat.lt_of_succ_lt_succ hj)

/-- Two builds of one frame at one index agree on it, and on the bytes before it that agreed already. -/
theorem FrameBuilt.agrees (he : FrameBuilt p a n m e) (hf : FrameBuilt p a n m' f)
    (hbefore : ∀ j, lo ≤ j → j < n → m'.read j = m.read j) : e.Agrees lo f where
  same := by
    have hend : f.txEnd = e.txEnd := BitVec.eq_of_toNat_eq (hf.txEnd.trans he.txEnd.symm)
    calc
      f = { tx := f.tx, ptr := f.txEnd, ready := false, txEnd := f.txEnd, txValid := false } := hf.flags
      _ = { tx := f.tx, ptr := e.txEnd, ready := false, txEnd := e.txEnd, txValid := false } := by rw [hend]
      _ = { e with tx := f.tx } := congrArg (fun x => { x with tx := f.tx }) he.flags.symm
  bytes := fun j hlo hhi => by
    rw [he.txEnd] at hhi
    rcases Nat.lt_or_ge j n with hj | hj
    · rw [he.outside j (.inl hj), hf.outside j (.inl hj), hbefore j hlo hj]
    rcases Nat.lt_or_eq_of_le hhi with hlt | rfl
    · obtain ⟨k, rfl⟩ := Nat.exists_eq_add_of_le hj
      exact Memory.read_eq_of_pairs_eq (hf.pairs.trans he.pairs.symm) (by omega)
    · rw [he.sentinel, hf.sentinel]

/-- Two overflows of one stream leave encoders that differ in TXBUF at most. -/
theorem Overflowed.same {size : Nat} {ps qs : List Pair} (he : Overflowed size (e₀.start base) e ps)
    (hf : Overflowed size (Encoder.start base { e₀ with tx := m }) f qs) : f = { e with tx := f.tx } := by
  have hptr : f.ptr = e.ptr := BitVec.eq_of_toNat_eq (Nat.succ_injective (hf.ptr.trans he.ptr.symm))
  calc
    f = { tx := f.tx, ptr := f.ptr, ready := true, txEnd := e₀.txEnd, txValid := false } := hf.started_eq
    _ = { tx := f.tx, ptr := e.ptr, ready := true, txEnd := e₀.txEnd, txValid := false } := by rw [hptr]
    _ = { e with tx := f.tx } := congrArg (fun x => { x with tx := f.tx }) he.started_eq.symm

/-! ### Trailers after the same stream (R154) -/

theorem Encoder.Agrees.writeTrailer (h : e.Agrees lo f) (vs : List Byte) :
    (e.writeTrailer vs).Agrees lo (f.writeTrailer vs) where
  same := congrArg (fun x => { x.writeTrailer vs with tx := (f.writeTrailer vs).tx }) h.same
  bytes := fun j hlo hhi => by
    have hle : j ≤ e.txEnd.toNat + vs.length := by
      rw [Encoder.writeTrailer_txEnd, BitVec.toNat_ofNat] at hhi
      exact hhi.trans (Nat.mod_le _ _)
    simp only [writeTrailer_read, h.txEnd]
    split
    · rfl
    split
    · rfl
    · exact h.bytes j hlo (by omega)

/-- `AppendTrailer` looks at the stream's end only: after the same stream it ends the same. -/
theorem appendTrailer_agrees (h : e.Agrees lo f) (minimal : Bool) (rec : Option StatsRecord) :
    (∃ c, appendTrailer p minimal rec e = .raised c ∧ appendTrailer p minimal rec f = .raised c) ∨
    (∃ k e' f', appendTrailer p minimal rec e = .done k e' ∧ appendTrailer p minimal rec f = .done k f' ∧
      e'.Agrees lo f') := by
  cases rec with
  | none => exact .inr ⟨0, e, f, rfl, rfl, h⟩
  | some r =>
    cases minimal with
    | true =>
      simp only [appendTrailer, appendMinTrailer, h.txEnd, if_true]
      split
      · exact .inl ⟨_, rfl, rfl⟩
      split
      · exact .inl ⟨_, rfl, rfl⟩
      · exact .inr ⟨_, _, _, rfl, rfl, h.writeTrailer _⟩
    | false =>
      simp only [appendTrailer, appendFullTrailer, h.txEnd, Bool.false_eq_true, if_false]
      cases statsEncode p r (p.txSize - e.txEnd.toNat - 1) with
      | none => exact .inr ⟨0, e, f, rfl, rfl, h⟩
      | some vs =>
        dsimp only
        split
        · exact .inl ⟨_, rfl, rfl⟩
        · exact .inr ⟨_, _, _, rfl, rfl, h.writeTrailer _⟩

/-! ### Two requests, check by check (60_exceptions.md R234) -/

/-- Whenever both results are next states, they are related. -/
def AnswersBoth (R : State → State → Prop) (r r' : Result) : Prop := ∀ t u, r = .next t → r' = .next u → R t u

section
variable {R : State → State → Prop} {r r' : Result} {b : Bool} {c : FaultCode}

theorem answersBoth_next (h : R t u) : AnswersBoth R (.next t) (.next u) := by
  rintro _ _ ⟨⟩ ⟨⟩
  exact h

theorem unlessFaulted_both (hf : s'.fault = s.fault) (hs : s.fault = true → R s s')
    (hr : s.fault = false → AnswersBoth R r r') : AnswersBoth R (unlessFaulted s r) (unlessFaulted s' r') := by
  cases h : s.fault with
  | true =>
    rw [unlessFaulted_ignore h, unlessFaulted_ignore (hf.trans h)]
    exact answersBoth_next (hs h)
  | false =>
    rw [unlessFaulted_run h, unlessFaulted_run (hf.trans h)]
    exact hr h

theorem raiseIf_both (hraise : R (s.raise c) (s'.raise c)) (hr : b = false → AnswersBoth R r r') :
    AnswersBoth R (raiseIf b c s r) (raiseIf b c s' r') := by
  cases b with
  | true => exact answersBoth_next hraise
  | false => exact hr rfl

theorem withinTx_both {j : Nat} (hr : AnswersBoth R r r') : AnswersBoth R (withinTx j s r) (withinTx j s' r') := by
  intro t u ht hu
  exact hr t u (withinTx_cases ht).2 (withinTx_cases hu).2

end

/-! ### Another content of TXBUF (R155) -/

/-- `u` is `t` but for TXBUF, and outside the fault state TXBUF holds the same bytes from `lo` to `TX_END`. -/
structure SameButTx (lo : Nat) (t u : State) : Prop where
  state : u = { t with enc := { t.enc with tx := u.enc.tx } }
  bytes : t.fault = false → ∀ j, lo ≤ j → j ≤ t.enc.txEnd.toNat → u.txByte j = t.txByte j

/-- The state with another content of TXBUF. -/
def State.withTx (s : State) (m : Memory) : State := { s with enc := { s.enc with tx := m } }

theorem SameButTx.ofFault (hstate : u = { t with enc := { t.enc with tx := u.enc.tx } }) (hf : t.fault = true) :
    SameButTx lo t u :=
  ⟨hstate, fun hok => absurd (hf.symm.trans hok) (by decide)⟩

theorem SameButTx.raise (hsame : f = { e with tx := f.tx }) (c : FaultCode) :
    SameButTx lo ((s.setEnc e).raise c) ((s.setEnc f).raise c) :=
  .ofFault (congrArg (fun enc => (s.setEnc enc).raise c) hsame) rfl

theorem SameButTx.setOk (h : e.Agrees lo f) (b : Bool) : SameButTx lo ((s.setEnc e).setOk b) ((s.setEnc f).setOk b) :=
  ⟨congrArg (fun enc => (s.setEnc enc).setOk b) h.same, fun _ => h.bytes⟩

/-- `BUILD_BITSTREAM` ends the same whatever TXBUF held. -/
theorem buildAt_withTx (hsize : s.params.txSize ≤ 255) (m : Memory) (base : Byte) :
    AnswersBoth (SameButTx base.toNat) (s.buildAt base) ((s.withTx m).buildAt base) := by
  refine unlessFaulted_both rfl (.ofFault rfl) fun _ => raiseIf_both (.ofFault rfl rfl) fun hbase =>
    raiseIf_both (.ofFault rfl rfl) fun _ => ?_
  have hbase : base.toNat < s.params.txSize := by simpa using hbase
  rcases Nat.lt_or_ge s.params.txSize (base.toNat + frameLen s.params s.args + 1) with hfull | hfits
  · obtain ⟨e, he, hover⟩ := buildBody_overflows s s.enc hsize hbase hfull
    obtain ⟨f, hf, hover'⟩ := buildBody_overflows (p := (s.withTx m).params) (a := (s.withTx m).args) (s.withTx m)
      (s.withTx m).enc hsize hbase hfull
    rw [he, hf]
    exact answersBoth_next (.raise (hover.same hover') _)
  · obtain ⟨e, he, hbuilt⟩ := buildBody_fits s s.enc hsize hfits
    obtain ⟨f, hf, hbuilt'⟩ := buildBody_fits (p := (s.withTx m).params) (a := (s.withTx m).args) (s.withTx m)
      (s.withTx m).enc hsize hfits
    have hagree : e.Agrees base.toNat f := hbuilt.agrees hbuilt' fun j hlo hhi => absurd hhi (Nat.not_lt_of_le hlo)
    rw [he, hf]
    exact answersBoth_next (.setOk (hagree.setValid true) _)

/-- Two builds of one valve-set stream agree from its header on. -/
theorem State.ValveBuilt.agrees (he : s.ValveBuilt e)
    (hf : FrameBuilt s.params (valveSetArgs s.args) (headerLen s.params s.args)
      (m.writeList 0 (List.replicate (headerLen s.params s.args) s.params.hdrByte)) f) : e.Agrees 0 f :=
  FrameBuilt.agrees he hf fun j _ hj => by
    have hheader : 0 ≤ j ∧ j - 0 < (List.replicate (headerLen s.params s.args) s.params.hdrByte).length :=
      ⟨Nat.zero_le j, by simpa using hj⟩
    rw [Memory.read_writeList, Memory.read_writeList, dif_pos hheader, dif_pos hheader]

/-- `BUILD_VALVE_SET` ends the same whatever TXBUF held. -/
theorem valveSet_withTx (hwf : s.params.wf = true) (m : Memory) :
    AnswersBoth (SameButTx 0) s.valveSet (s.withTx m).valveSet := by
  refine unlessFaulted_both rfl (.ofFault rfl) fun _ => raiseIf_both (.ofFault rfl rfl) fun _ =>
    raiseIf_both (.ofFault rfl rfl) fun _ => raiseIf_both (.ofFault rfl rfl) fun _ =>
    raiseIf_both (.ofFault rfl rfl) fun _ => withinTx_both ?_
  obtain ⟨e, he, hbuilt⟩ := valveSetRun_built hwf
  obtain ⟨f, hf, hbuilt'⟩ := valveSetRun_built (s := s.withTx m) hwf
  have hagree : e.Agrees 0 f := hbuilt.agrees hbuilt'
  rcases appendTrailer_agrees (p := s.params) hagree (trailerMinimal (valveSetArgs s.args)) s.trailerRecord with
    ⟨c, hc, hc'⟩ | ⟨k, e', f', hk, hk', hagree'⟩
  · rw [valveSetBody_raised he hc, valveSetBody_raised hf hc']
    exact answersBoth_next (.raise hagree.same _)
  · rw [valveSetBody_done he hk, valveSetBody_done hf hk']
    exact answersBoth_next (.setOk (hagree'.setValid true) _)

/-- Settles O41, by running the two builds side by side. -/
theorem buildersIgnoreOldTxContents : Obligations.BuildersIgnoreOldTxContents := by
  intro i s t u m hi hwf ht hu
  rcases hi with ⟨base, rfl⟩ | rfl
  · obtain ⟨hstate, hbytes⟩ := buildAt_withTx (Params.txSize_bounds hwf).1 m base t u ht hu
    refine ⟨hstate, fun _ hok => ⟨?_, nofun⟩⟩
    rintro _ ⟨⟩
    exact hbytes hok
  · obtain ⟨hstate, hbytes⟩ := valveSet_withTx hwf m t u ht hu
    exact ⟨hstate, fun _ hok => ⟨nofun, fun _ j hj => hbytes hok j (Nat.zero_le j) hj⟩⟩

/-! ### A second build (R158) -/

/-- `u` holds the stream of `t` and the registers that describe it. -/
structure SameStream (t u : State) : Prop where
  bytes : ∀ j, j ≤ t.enc.txEnd.toNat → u.txByte j = t.txByte j
  txEnd : u.enc.txEnd = t.enc.txEnd
  csum : u.res.csum = t.res.csum
  kind : u.res.kind = t.res.kind
  cmd : u.args.cmd = t.args.cmd
  ext : u.args.ext = t.args.ext

theorem SameStream.refl (t : State) : SameStream t t := ⟨fun _ _ => rfl, rfl, rfl, rfl, rfl, rfl⟩

/-- A frame built where it stands already is built again, and the bytes before it stay. -/
theorem buildAt_again (hsize : s.params.txSize ≤ 255) (hf : s.fault = false) (hrun : s.buildAt base = .next t)
    (hok : t.fault = false) (hagain : t.buildAt base = .next u) : SameStream t u := by
  obtain ⟨hidle, hfits⟩ := buildAt_success hf hsize hrun hok
  obtain ⟨e, he, hlaid⟩ := buildAt_built hf hidle hsize hfits
  obtain rfl : t = s.built e := Host.Outcome.next.inj (hrun.symm.trans he)
  obtain ⟨f, hf', hlaid'⟩ := buildAt_built (s := s.built e) hok hidle hsize hfits
  obtain rfl : u = (s.built e).built f := Host.Outcome.next.inj (hagain.symm.trans hf')
  have hbuilt : FrameBuilt s.params s.args base.toNat s.enc.tx e.terminate := hlaid.frameBuilt
  have hbuilt' : FrameBuilt s.params s.args base.toNat e.terminate.tx f.terminate := hlaid'.frameBuilt
  have hagree : e.terminate.Agrees 0 f.terminate := hbuilt.agrees hbuilt' fun j _ hj => hbuilt.outside j (.inl hj)
  exact ⟨fun j hj => hagree.bytes j (Nat.zero_le j) hj, hagree.txEnd, rfl, rfl, rfl, rfl⟩

/-- What a completed `BUILD_VALVE_SET` writes changes none of its checks. -/
theorem State.ValveSetReady.again (h : s.ValveSetReady) (k : Byte) (e : Encoder) : (s.valveSetDone k e).ValveSetReady :=
  ⟨h.fault, h.pct, h.threshLo, h.threshHi, h.record, h.idle, h.header⟩

theorem valveSet_again (hwf : s.params.wf = true) (hf : s.fault = false) (hrun : s.valveSet = .next t)
    (hok : t.fault = false) (hagain : t.valveSet = .next u) : SameStream t u := by
  obtain ⟨hready, e, k, e', he, hk, rfl⟩ := valveSet_success hf hrun hok
  obtain ⟨e₁, he₁, hbuilt⟩ := valveSetRun_built hwf
  obtain rfl : e = e₁ := TxRun.ok.inj (he.symm.trans he₁)
  obtain ⟨f, hbuilt', -, hdone⟩ := (hready.again k e').builds hwf
  have hagree : e.Agrees 0 f := hbuilt.agrees hbuilt'
  rcases appendTrailer_agrees (p := s.params) hagree (trailerMinimal (valveSetArgs s.args)) s.trailerRecord with
    ⟨c, hc, -⟩ | ⟨k₁, e₂, f', hk₁, hk', hagree'⟩
  · cases hk.symm.trans hc
  · cases hk.symm.trans hk₁
    obtain rfl := Host.Outcome.next.inj (hagain.symm.trans (hdone k f' hk'))
    exact ⟨fun j hj => hagree'.bytes j (Nat.zero_le j) hj, hagree'.txEnd, rfl, rfl, rfl, rfl⟩

/-- Settles O42: a build that faulted is ignored the second time, and one that succeeded builds the same stream again. -/
theorem buildersAreIdempotent : Obligations.BuildersAreIdempotent := by
  intro i s t u hi hwf ht hu
  have hsame : SameStream t u := by
    cases hok : t.fault with
    | true =>
      have hignored : exec i t = .next t := by
        rcases hi with ⟨base, rfl⟩ | rfl <;> exact unlessFaulted_ignore hok
      obtain rfl : u = t := Host.Outcome.next.inj (hu.symm.trans hignored)
      exact .refl u
    | false =>
      have hf : s.fault = false := by
        by_contra hfault
        have hignored : exec i s = .next s := by
          rcases hi with ⟨base, rfl⟩ | rfl <;> exact unlessFaulted_ignore (by simpa using hfault)
        obtain rfl : t = s := Host.Outcome.next.inj (ht.symm.trans hignored)
        exact hfault hok
      rcases hi with ⟨base, rfl⟩ | rfl
      · exact buildAt_again (Params.txSize_bounds hwf).1 hf ht hok hu
      · exact valveSet_again hwf hf ht hok hu
  exact ⟨hsame.bytes, hsame.txEnd, hsame.csum, hsame.kind, hsame.cmd, hsame.ext⟩

end Sys2Proof.Machine
end

section
/-! PROOF. The decode of a frame (42_frame_parser.md R172 to R174, R176): what it writes, and where it ends on a payload whose
lead bit, checksum or trailing bit decides. -/

namespace Sys2Proof.Machine

variable {s : State} {rx : Memory} {d : Decoder} {run : FrameRun} {f : Frame} {rest : List Pair} {i : Nat}

/-! ### The request past its checks (R234) -/

/-- `DECODE_BITSTREAM` past its checks writes what `DecodeFrame` leaves. -/
theorem execDecodeBitstream_run (hf : s.fault = false) (hlen : s.rxLen.toNat ≤ s.params.rxSize) :
    exec .decodeBitstream s = (s.applyFrame (decodeFrame s.rx s.rxLen)).finishDecode := by
  change execDecodeBitstream s = _
  rw [execDecodeBitstream, unlessFaulted_run hf, decide_eq_false (Nat.not_lt_of_le hlen), raiseIf_false]

/-! ### The writes of a frame decode (R174, R176) -/

theorem applyFrame_frame (h : run.frame = some f) :
    s.applyFrame run = { s.setDec run.dec with res := s.res.ofFrame f } := by
  rw [State.applyFrame, h]

theorem applyFrame_failed (h : run.frame = none) :
    s.applyFrame run = (s.failDecode run.dec).emit (run.garbage.map fun b => .entropy b s.params.entropyBits) := by
  rw [State.applyFrame, h]

@[simp] theorem applyFrame_dec : (s.applyFrame run).dec = run.dec := by
  rcases applyFrame_cases s run with ⟨f, -, he⟩ | ⟨-, he⟩ <;> rw [he] <;> rfl

/-- A decode that did not fail answers a frame. -/
theorem FrameRun.Sound.frame_of_ok {n : Byte} (h : FrameRun.Sound n run) (hok : run.dec.failed = false) :
    ∃ f, run.frame = some f := by
  rw [← Option.isSome_iff_exists, h.frame, hok, Bool.not_false]

theorem FrameRun.Sound.reason_none {n : Byte} (h : FrameRun.Sound n run) (hok : run.dec.failed = false) :
    run.dec.reason = .none := by
  by_contra hne
  exact absurd (h.reason.mpr hne) (by rw [hok]; decide)

/-- A decode that failed answers none. -/
theorem FrameRun.Sound.no_frame {n : Byte} (h : FrameRun.Sound n run) (hfailed : run.dec.failed = true) :
    run.frame = none := by
  rw [← Option.not_isSome_iff_eq_none, h.frame, hfailed]
  decide

/-- `DECODE_BITSTREAM` completes with `OK = 1 - DEC_FAILED` (R172). -/
theorem execDecodeBitstream_next (hf : s.fault = false) (hlen : s.rxLen.toNat ≤ s.params.rxSize) :
    exec .decodeBitstream s =
      .next ((s.applyFrame (decodeFrame s.rx s.rxLen)).setOk (!(decodeFrame s.rx s.rxLen).dec.failed)) := by
  rw [execDecodeBitstream_run hf hlen, State.finishDecode, okAfterDecode, applyFrame_dec]

/-! ### Where the decode of a frame ends (R174) -/

@[simp] theorem Decoder.fail_pos (d : Decoder) (r : FailReason) : (d.fail r).pos = d.pos := by
  unfold Decoder.fail
  split <;> rfl

theorem Decoder.fail_reason (hok : d.failed = false) (r : FailReason) : (d.fail r).reason = r := by
  rw [Decoder.fail_of_ok hok]

/-- Where a payload starts with a pair, `DecodeFrame` is its decode from that index on (R171). -/
theorem decodeFrame_payload (h : s.payloadAt i) (hpairs : s.rx.pairs i (s.rxLen.toNat - i) ≠ []) :
    ∃ d, decodeFrame s.rx s.rxLen = decodePayload s.rx d ∧ d.failed = false ∧ d.pos = 4 * i ∧
      d.ahead s.rx = s.rx.pairs i (s.rxLen.toNat - i) := by
  have hroom : i < s.rxLen.toNat := by
    by_contra hge
    exact hpairs (by rw [Nat.sub_eq_zero_of_le (by omega)]; rfl)
  have hi : (BitVec.ofNat 8 i).toNat = i := by
    have := h.2.1
    rw [BitVec.toNat_ofNat]
    omega
  refine ⟨freshDec s.rxLen (BitVec.ofNat 8 i), ?_, rfl, ?_, ?_⟩
  · rw [decodeFrame, scanPreamble_payload h (fun _ => hroom) hroom.le]
  · exact congrArg (4 * ·) hi
  · change (s.rx.pairs (BitVec.ofNat 8 i).toNat (s.rxLen.toNat - (BitVec.ofNat 8 i).toNat)).drop 0 = _
    rw [hi, List.drop_zero]

/-- A lead 0 fails `LEAD_BIT` after that symbol. -/
theorem decodeFrame_leadZero (h : s.payloadAt i) (hpairs : s.rx.pairs i (s.rxLen.toNat - i) = lineSymbol false ++ rest) :
    (decodeFrame s.rx s.rxLen).dec.reason = .leadBit ∧ (decodeFrame s.rx s.rxLen).dec.pos = 4 * i + 2 := by
  obtain ⟨d, hrun, hok, hpos, hahead⟩ := decodeFrame_payload h (by rw [hpairs]; exact List.cons_ne_nil _ _)
  obtain ⟨d', hdecode, hread, -⟩ := decodePayload_leadZero hok (hahead.trans hpairs)
  rw [hrun, hdecode]
  exact ⟨Decoder.fail_reason hread.ok _, by rw [Decoder.fail_pos, hread.pos, hpos]; rfl⟩

/-- The pairs of a lead 1 and the six encoded bytes after it (R174). -/
def payloadPairs (hc1 hc2 a cmd ext cs : Byte) : List Pair :=
  linePairs ([true] ++ [hc1, hc2, a, cmd, ext, cs].flatMap encodedByte)

/-- A payload has at most three pairs for each of its 55 bits. -/
theorem payloadPairs_length_le (hc1 hc2 a cmd ext cs : Byte) : (payloadPairs hc1 hc2 a cmd ext cs).length ≤ 165 := by
  have hsymbols : ∀ xs : List Bool, (linePairs xs).length ≤ 3 * xs.length := fun xs => by
    induction xs with
    | nil => exact le_rfl
    | cons x xs ih =>
      have hx : (lineSymbol x).length ≤ 3 := by cases x <;> decide
      rw [linePairs, List.flatMap_cons, List.length_append, List.length_cons]
      rw [linePairs] at ih
      omega
  exact hsymbols _

section Payload

variable {hc1 hc2 a cmd ext cs : Byte} {body : List Pair}

/-- Six bytes whose checksum is wrong fail `CHECKSUM` after the sixth. -/
theorem decodeFrame_badChecksum (h : s.payloadAt i)
    (hpairs : s.rx.pairs i (s.rxLen.toNat - i) = payloadPairs hc1 hc2 a cmd ext cs ++ rest)
    (hcs : cs ≠ checksum hc1 hc2 a cmd ext) :
    (decodeFrame s.rx s.rxLen).dec.reason = .checksum ∧
      (decodeFrame s.rx s.rxLen).dec.pos = 4 * i + (payloadPairs hc1 hc2 a cmd ext cs).length := by
  obtain ⟨d, hrun, hok, hpos, hahead⟩ := decodeFrame_payload h (by rw [hpairs]; exact List.cons_ne_nil _ _)
  obtain ⟨d', hread, -, hdecode⟩ := decodePayload_fields hc1 hc2 a cmd ext cs hok (hahead.trans hpairs)
  rw [hrun, hdecode, if_pos hcs]
  exact ⟨Decoder.fail_reason hread.ok _, by rw [Decoder.fail_pos, hread.pos, hpos, payloadPairs]⟩

theorem payloadPairs_snoc (x : Bool) :
    linePairs ([true] ++ [hc1, hc2, a, cmd, ext, cs].flatMap encodedByte ++ [x]) =
      payloadPairs hc1 hc2 a cmd ext cs ++ lineSymbol x := linePairs_snoc _ x

/-- Six bytes with their checksum and a trailing 1 fail `TRAIL_BIT` after that symbol. -/
theorem decodeFrame_trailOne (h : s.payloadAt i)
    (hbody : body = payloadPairs hc1 hc2 a cmd ext (checksum hc1 hc2 a cmd ext))
    (hpairs : s.rx.pairs i (s.rxLen.toNat - i) = body ++ (lineSymbol true ++ rest)) :
    (decodeFrame s.rx s.rxLen).dec.reason = .trailBit ∧
      (decodeFrame s.rx s.rxLen).dec.pos = 4 * i + body.length + 3 := by
  subst hbody
  obtain ⟨d, hrun, hok, hpos, hahead⟩ := decodeFrame_payload h (by rw [hpairs]; exact List.cons_ne_nil _ _)
  rw [hpairs, ← List.append_assoc, ← payloadPairs_snoc] at hahead
  obtain ⟨d', hdecode, hread, -⟩ := decodePayload_trailOne hc1 hc2 a cmd ext hok hahead
  rw [hrun, hdecode]
  refine ⟨Decoder.fail_reason hread.ok _, ?_⟩
  rw [Decoder.fail_pos, hread.pos, hpos, payloadPairs_snoc, List.length_append, Nat.add_assoc]
  rfl

/-- Six bytes with their checksum and a trailing 0 are the frame, and `next` is just past the bytes they touch. -/
theorem decodeFrame_trailZero (h : s.payloadAt i)
    (hbody : body = payloadPairs hc1 hc2 a cmd ext (checksum hc1 hc2 a cmd ext))
    (hpairs : s.rx.pairs i (s.rxLen.toNat - i) = body ++ (lineSymbol false ++ rest)) :
    ∃ d, decodeFrame s.rx s.rxLen =
        { dec := d
          frame := some { hc1 := hc1, hc2 := hc2, addr := a, cmd := cmd, ext := ext, csum := checksum hc1 hc2 a cmd ext,
                          next := nextIndex d }
          garbage := [] } ∧
      d.failed = false ∧ d.pos = 4 * i + body.length + 2 ∧ (nextIndex d).toNat = (d.pos + 3) / 4 := by
  subst hbody
  obtain ⟨d, hrun, hok, hpos, hahead⟩ := decodeFrame_payload h (by rw [hpairs]; exact List.cons_ne_nil _ _)
  rw [hpairs, ← List.append_assoc, ← payloadPairs_snoc] at hahead
  obtain ⟨d', hdecode, hread⟩ := decodePayload_frame hc1 hc2 a cmd ext hok hahead
  have hend : d'.pos = 4 * i + (payloadPairs hc1 hc2 a cmd ext (checksum hc1 hc2 a cmd ext)).length + 2 := by
    rw [hread.pos, hpos, payloadPairs_snoc, List.length_append, Nat.add_assoc]
    rfl
  have hptr : d'.ptr.toNat < 255 := by
    have hlen := payloadPairs_length_le hc1 hc2 a cmd ext (checksum hc1 hc2 a cmd ext)
    have hi : i ≤ 6 := h.2.1
    unfold Decoder.pos at hend
    omega
  exact ⟨d', hrun.trans hdecode, hread.ok, hend, nextIndex_pos hptr⟩

end Payload

/-- The checksum of a decoded frame is that of its fields (R174). -/
theorem decodePayload_csum (h : (decodePayload rx d).frame = some f) :
    f.csum = checksum f.hc1 f.hc2 f.addr f.cmd f.ext := by
  unfold decodePayload at h
  dsimp only at h
  split at h
  · cases h
  split at h
  · cases h
  split at h
  · cases h
  · rename_i hcs
    split at h
    · cases h
    · cases h
      exact not_not.mp hcs

theorem decodeFrame_csum {n : Byte} (h : (decodeFrame rx n).frame = some f) :
    f.csum = checksum f.hc1 f.hc2 f.addr f.cmd f.ext := by
  unfold decodeFrame at h
  split at h
  · cases h
  · cases h
  · exact decodePayload_csum h

/-- Settles O47: a failure and a success by what every frame decode leaves, the payloads by where their decode ends. -/
theorem decodeBitstreamCompletes : Obligations.DecodeBitstreamCompletes := by
  intro s hf hlen
  have hsound := decodeFrame_sound s.rx s.rxLen
  refine ⟨_, execDecodeBitstream_next hf hlen, ?_⟩
  simp only [State.setOk_dec, State.setOk_res, State.setOk_ok, State.setOk_events, applyFrame_dec]
  refine ⟨hsound.stop, trivial, fun hfailed => ⟨hsound.reason.mp hfailed, ?_⟩, fun hok => ?_, ?_, ?_, ?_⟩
  · rw [applyFrame_failed (hsound.no_frame hfailed)]
    rfl
  · obtain ⟨f, hframe⟩ := hsound.frame_of_ok hok
    rw [applyFrame_frame hframe]
    exact ⟨hsound.reason_none hok, rfl, rfl, decodeFrame_csum hframe, rfl⟩
  · exact fun i rest hpay hpairs => decodeFrame_leadZero hpay hpairs
  · intro i hc1 hc2 a cmd ext cs body rest hpay hbody hpairs
    have hpayload : body = payloadPairs hc1 hc2 a cmd ext cs := hbody
    refine ⟨fun hcs => ?_, fun hcs => ⟨fun more hmore => ?_, fun more hmore => ?_⟩⟩
    · rw [hpayload] at hpairs ⊢
      exact decodeFrame_badChecksum hpay hpairs hcs
    · exact decodeFrame_trailOne hpay (hcs ▸ hpayload) (hpairs.trans (by rw [hmore]; rfl))
    · obtain ⟨d, hrun, hok, hpos, hnext⟩ :=
        decodeFrame_trailZero hpay (hcs ▸ hpayload) (hpairs.trans (by rw [hmore]; rfl))
      rw [hrun, hcs]
      exact ⟨hok, hpos, hnext, rfl⟩
  · rcases applyFrame_cases s (decodeFrame s.rx s.rxLen) with ⟨f, -, he⟩ | ⟨-, he⟩ <;> rw [he] <;> rfl

end Sys2Proof.Machine
end

section
/-! PROOF. The preamble scan (42_frame_parser.md R171): where it ends, and that no failure after it is `PREAMBLE`. -/

namespace Sys2Proof.Machine

variable {s : State} {rx : Memory} {d : Decoder}

/-! ### The scan of the preamble (R171) -/

/-- The scan passes the preamble bytes at the start of the received data. -/
theorem scanPreamble_skip {n : Byte} {j : Nat} (hj : j ≤ 6) (hlen : j ≤ n.toNat) (hpre : ∀ k, k < j → rx.read k = 0xCC) :
    scanPreamble rx n = scanFrom rx n (6 - j) j := by
  induction j with
  | zero => rfl
  | succ j ih =>
    have hbyte : rx.read j = preambleByte := hpre j (Nat.lt_succ_self j)
    rw [ih (by omega) (by omega) fun k hk => hpre k (by omega), show 6 - j = (6 - (j + 1)) + 1 by omega, scanFrom,
      if_neg (by omega), if_pos hbyte]

/-- A first wrong byte at index 0 or 1 ends the scan as a mismatch there. -/
theorem scanPreamble_mismatch {n : Byte} {j : Nat} (hj : j < 2) (hlen : j < n.toNat) (hpre : ∀ k, k < j → rx.read k = 0xCC)
    (hne : rx.read j ≠ 0xCC) : scanPreamble rx n = .mismatch j := by
  rw [scanPreamble_skip (by omega) hlen.le hpre, show 6 - j = (5 - j) + 1 by omega, scanFrom, if_neg (by omega),
    if_neg (show ¬ rx.read j = preambleByte from hne), if_pos hj]

/-- Data that ends inside the preamble ends the scan there. -/
theorem scanPreamble_exhausted {n : Byte} (hn : n.toNat < 6) (hpre : ∀ k, k < n.toNat → rx.read k = 0xCC) :
    scanPreamble rx n = .exhausted n.toNat := by
  rw [scanPreamble_skip hn.le le_rfl hpre, show 6 - n.toNat = (5 - n.toNat) + 1 by omega, scanFrom, if_pos le_rfl]

/-- A mismatch is at index 0 or 1, wherever the scan goes on from. -/
theorem scanFrom_mismatch {n : Byte} {left j k : Nat} (h : scanFrom rx n left k = .mismatch j) : j < 2 := by
  induction left generalizing k with
  | zero => cases h
  | succ left ih =>
    rw [scanFrom] at h
    split at h
    · cases h
    split at h
    · exact ih h
    split at h
    · cases h
      assumption
    · cases h

/-- Settles O49, by where the scan ends. -/
theorem preambleScanFailures : Obligations.PreambleScanFailures := by
  intro s hf hlen
  refine ⟨_, execDecodeBitstream_next hf hlen, ?_, ?_, ?_⟩
  · rintro ⟨hone, hne⟩
    have hscan := scanPreamble_mismatch (j := 0) (by decide) hone (by omega) hne
    simp only [State.setOk_dec, State.setOk_events, decodeFrame, hscan]
    exact ⟨rfl, rfl⟩
  · rintro ⟨htwo, hfirst, hne⟩
    have hscan := scanPreamble_mismatch (j := 1) (by decide) htwo (fun k hk => by rwa [Nat.lt_one_iff.mp hk]) hne
    simp only [State.setOk_dec, State.setOk_events, decodeFrame, hscan]
    refine ⟨rfl, ?_⟩
    rw [← hfirst]
    rfl
  · rintro ⟨hsix, hpre⟩
    have hscan := scanPreamble_exhausted hsix hpre
    simp only [State.setOk_dec, State.setOk_events, decodeFrame, hscan, BitVec.ofNat_toNat, BitVec.setWidth_eq]
    exact ⟨rfl, List.append_nil _⟩

/-! ### No failure of the payload is `PREAMBLE` (R180) -/

/-- The recorded reason is not `PREAMBLE`. -/
def Decoder.PastPreamble (d : Decoder) : Prop := d.reason ≠ .preamble

theorem Decoder.PastPreamble.fail (h : d.PastPreamble) {r : FailReason} (hr : r ≠ .preamble) : (d.fail r).PastPreamble := by
  unfold Decoder.fail
  split
  · exact h
  · exact hr

theorem Decoder.PastPreamble.failIf (h : d.PastPreamble) (wrong : Bool) {r : FailReason} (hr : r ≠ .preamble) :
    (d.failIf wrong r).PastPreamble := by
  cases wrong with
  | false => exact h
  | true => exact h.fail hr

theorem Decoder.PastPreamble.readPair (h : d.PastPreamble) : (readPair rx d).2.PastPreamble := by
  unfold Machine.readPair
  split
  · exact h
  split
  · exact h.fail (by decide)
  · exact h

theorem Decoder.PastPreamble.readBit (h : d.PastPreamble) : (readBit rx d).2.PastPreamble := by
  have h1 := h.readPair (rx := rx)
  have h2 := h1.readPair (rx := rx)
  have h3 := h2.readPair (rx := rx)
  unfold Machine.readBit
  split
  · exact h
  dsimp only
  split
  · exact h1
  split
  · exact h1.fail (by decide)
  split
  · exact h2
  split
  · exact h2
  split
  · exact h2.fail (by decide)
  split
  · exact h3
  split
  · exact h3.fail (by decide)
  · exact h3

theorem readBits_pastPreamble (n : Nat) {r : BitsRead} (h : r.dec.PastPreamble) : (readBits rx n r).dec.PastPreamble := by
  induction n generalizing r with
  | zero => exact h
  | succ n ih => exact ih (r := ⟨_, _, (readBit rx r.dec).2⟩) h.readBit

theorem Decoder.PastPreamble.readByteP (h : d.PastPreamble) : (readByteP rx d).2.PastPreamble := by
  have hread := (readBits_pastPreamble (rx := rx) 8 (r := ⟨0, false, d⟩) h).readBit (rx := rx)
  unfold Machine.readByteP
  split
  · exact h
  dsimp only
  split
  · exact hread
  split
  · exact hread.fail (by decide)
  · exact hread

theorem decodePayload_quiet (h : d.PastPreamble) :
    (decodePayload rx d).dec.PastPreamble ∧ (decodePayload rx d).garbage = [] := by
  have h0 := h.readBit (rx := rx) |>.failIf (!(readBit rx d).1) (r := .leadBit) (by decide)
  have h6 := h0.readByteP (rx := rx) |>.readByteP (rx := rx) |>.readByteP (rx := rx) |>.readByteP (rx := rx)
    |>.readByteP (rx := rx) |>.readByteP (rx := rx)
  unfold decodePayload
  dsimp only
  split
  · exact ⟨h0, rfl⟩
  split
  · exact ⟨h6, rfl⟩
  split
  · exact ⟨h6.fail (by decide), rfl⟩
  have h7 := h6.readBit (rx := rx)
  split
  · exact ⟨h7.failIf _ (by decide), rfl⟩
  · exact ⟨h7.failIf _ (by decide), rfl⟩

/-- A frame decode ends in a mismatch of the scan, with the bytes up to it, or with another reason and no bytes (R171, R174). -/
theorem decodeFrame_mismatch_or_quiet (rx : Memory) (n : Byte) :
    (∃ j, j < 2 ∧ decodeFrame rx n =
      { dec := (freshDec n (BitVec.ofNat 8 j)).fail .preamble, frame := none, garbage := rx.readList 0 (j + 1) }) ∨
    ((decodeFrame rx n).dec.PastPreamble ∧ (decodeFrame rx n).garbage = []) := by
  have hfresh : ∀ j, (freshDec n j).PastPreamble := fun j => by simp [Decoder.PastPreamble, freshDec]
  cases hscan : scanPreamble rx n with
  | start j =>
    right
    simp only [decodeFrame, hscan]
    exact decodePayload_quiet (hfresh _)
  | exhausted j =>
    right
    simp only [decodeFrame, hscan]
    exact ⟨(hfresh _).fail (by decide), trivial⟩
  | mismatch j =>
    left
    refine ⟨j, scanFrom_mismatch hscan, ?_⟩
    simp only [decodeFrame, hscan]

end Sys2Proof.Machine
end

section
/-! PROOF. What a parse can do (42_frame_parser.md R175, R177, R178): hand its bytes over, or decode a frame and take what
follows it; and the entropy events it emits (R180). -/

namespace Sys2Proof.Machine

variable {s t : State} {run : FrameRun}

/-! ### The request past its checks (R234) -/

/-- `PARSE_FRAME` past its checks ends with its body. -/
theorem execParseFrame_run (hf : s.fault = false) (hlen : s.rxLen.toNat ≤ s.params.rxSize) :
    exec .parseFrame s = s.parse.finishDecode := by
  change execParseFrame s = _
  rw [execParseFrame, unlessFaulted_run hf, decide_eq_false (Nat.not_lt_of_le hlen), raiseIf_false]

/-! ### What a parse and its trailer can do (R175, R178) -/

/-- A trailer fails the parse where the decode stands, with one of two reasons, or it is taken with its kind recorded. -/
theorem takeTrailer_cases (s : State) (answer : Option StatsRecord) (k : Byte) :
    (∃ r, (r = .trailerCrc ∨ r = .trailerId) ∧ s.takeTrailer answer k = s.failDecode (s.dec.fail r)) ∨
    (∃ rec, s.takeTrailer answer k =
      { s with statsOut := some rec, res := { s.res with kind := (0x01 : Byte) ||| (k <<< 2) } }) := by
  cases answer with
  | none => exact .inl ⟨_, .inl rfl, rfl⟩
  | some rec =>
    cases hid : withHouseCode rec s.res.hc1 s.res.hc2 with
    | none => exact .inl ⟨_, .inr rfl, by simp only [State.takeTrailer, hid]⟩
    | some rec' => exact .inr ⟨rec', by simp only [State.takeTrailer, hid]; rfl⟩

/-- What the Stats Codec answers for the bytes after a frame when it classes them as `c` (R178, R179). -/
def State.trailerAnswer (s : State) (c : TrailerClass) : Option StatsRecord :=
  let bytes := s.rx.readList s.res.next.toNat (s.rxLen.toNat - s.res.next.toNat)
  if c = .min then statsMinDecode s.params bytes else statsDecode s.params bytes

theorem trailer_of_none (h : statsClassify s.params (s.rx.read s.res.next.toNat) = .none) : s.trailer = s := by
  simp only [State.trailer, h]

theorem trailer_of_class {c : TrailerClass} (hclass : statsClassify s.params (s.rx.read s.res.next.toNat) = c)
    (hc : c ≠ .none) : s.trailer = s.takeTrailer (s.trailerAnswer c) (if c = .min then 1 else 2) := by
  cases c with
  | none => exact absurd rfl hc
  | min => simp only [State.trailer, hclass, State.trailerAnswer, if_true]
  | full => simp only [State.trailer, hclass, State.trailerAnswer, reduceCtorEq, if_false]

/-- What follows a frame is left alone, or is a trailer of one of the two kinds. -/
theorem trailer_cases (s : State) :
    s.trailer = s ∨
    (∃ r, (r = .trailerCrc ∨ r = .trailerId) ∧ s.trailer = s.failDecode (s.dec.fail r)) ∨
    (∃ rec k, (k = 0x05 ∨ k = 0x09) ∧ s.trailer = { s with statsOut := some rec, res := { s.res with kind := k } }) := by
  by_cases hnone : statsClassify s.params (s.rx.read s.res.next.toNat) = .none
  · exact .inl (trailer_of_none hnone)
  · rw [trailer_of_class rfl hnone]
    rcases takeTrailer_cases s _ _ with hfailed | ⟨rec, he⟩
    · exact .inr (.inl hfailed)
    · exact .inr (.inr ⟨rec, _, by split <;> decide, he⟩)

/-- `STATS_OUT <- none`, what a parse starts with (R175). -/
def State.clearRecord (s : State) : State := { s with statsOut := none }

/-- A parse hands the bytes over as an alternate frame, or takes the path of the frame decode (R175). -/
theorem parse_cases (s : State) :
    (∃ answer k, (k = 0x02 ∨ k = 0x03) ∧ s.parse = s.clearRecord.altFrame answer k) ∨ s.parse = s.clearRecord.parseFht8v := by
  unfold State.parse
  dsimp only
  split
  · exact .inl ⟨_, _, .inl rfl, rfl⟩
  split
  · exact .inl ⟨_, _, .inr rfl, rfl⟩
  · exact .inr rfl

/-- The frame path ends with the frame decode, or with the trailer after a decode that did not fail (R175). -/
theorem parseFht8v_cases (s : State) :
    s.parseFht8v = s.applyFrame (decodeFrame s.rx s.rxLen) ∨
    ((decodeFrame s.rx s.rxLen).dec.failed = false ∧
      s.parseFht8v = (s.applyFrame (decodeFrame s.rx s.rxLen)).trailer) := by
  unfold State.parseFht8v
  dsimp only
  split
  · rename_i h
    rw [Bool.and_eq_true, Bool.not_eq_true', applyFrame_dec] at h
    exact .inr ⟨h.1, rfl⟩
  · exact .inl rfl

/-! ### Entropy events (R180) -/

/-- A decode from `s` that left `t` emitted an entropy event for each byte up to the index of a `PREAMBLE` failure, and none
otherwise. -/
structure EntropyOf (s t : State) : Prop where
  preamble : t.dec.reason = .preamble → t.dec.ptr.toNat < 2 ∧
    t.events = s.events ++ (s.rx.readList 0 (t.dec.ptr.toNat + 1)).map fun b => .entropy b s.params.entropyBits
  quiet : t.dec.reason ≠ .preamble → t.events = s.events

/-- A decode that emits nothing and does not fail `PREAMBLE`. -/
theorem EntropyOf.ofQuiet (hreason : t.dec.PastPreamble) (hevents : t.events = s.events) : EntropyOf s t :=
  ⟨fun h => absurd h hreason, fun _ => hevents⟩

theorem applyFrame_events_of_quiet (h : run.garbage = []) : (s.applyFrame run).events = s.events := by
  rcases applyFrame_cases s run with ⟨f, -, he⟩ | ⟨-, he⟩ <;> rw [he]
  · rfl
  · rw [h]
    exact List.append_nil _

theorem applyFrame_entropy : EntropyOf s (s.applyFrame (decodeFrame s.rx s.rxLen)) := by
  rcases decodeFrame_mismatch_or_quiet s.rx s.rxLen with ⟨j, hj, hrun⟩ | ⟨hpast, hquiet⟩
  · have hptr : (BitVec.ofNat 8 j).toNat = j := by
      rw [BitVec.toNat_ofNat]
      omega
    rw [hrun]
    refine ⟨fun _ => ?_, fun hne => absurd rfl hne⟩
    change (BitVec.ofNat 8 j).toNat < 2 ∧ s.events ++ (s.rx.readList 0 (j + 1)).map _ =
      s.events ++ (s.rx.readList 0 ((BitVec.ofNat 8 j).toNat + 1)).map _
    rw [hptr]
    exact ⟨hj, rfl⟩
  · exact .ofQuiet (applyFrame_dec.symm ▸ hpast) (applyFrame_events_of_quiet hquiet)

theorem trailer_events (s : State) : s.trailer.events = s.events := by
  rcases trailer_cases s with he | ⟨r, -, he⟩ | ⟨rec, k, -, he⟩
  · exact (congrArg State.events he :)
  · exact (congrArg State.events he :)
  · exact (congrArg State.events he :)

theorem trailer_pastPreamble (h : s.dec.PastPreamble) : s.trailer.dec.PastPreamble := by
  rcases trailer_cases s with he | ⟨r, hr, he⟩ | ⟨rec, k, -, he⟩ <;> rw [he]
  · exact h
  · exact h.fail (by rcases hr with rfl | rfl <;> decide)
  · exact h

theorem parseFht8v_entropy : EntropyOf s s.parseFht8v := by
  rcases parseFht8v_cases s with he | ⟨hok, he⟩ <;> rw [he]
  · exact applyFrame_entropy
  · have hpast : (s.applyFrame (decodeFrame s.rx s.rxLen)).dec.PastPreamble := by
      rw [applyFrame_dec, Decoder.PastPreamble, (decodeFrame_sound s.rx s.rxLen).reason_none hok]
      decide
    exact .ofQuiet (trailer_pastPreamble hpast) ((trailer_events _).trans (applyFrame_entropy.quiet hpast))

theorem altFrame_entropy (answer : Option StatsRecord) (k : Byte) : EntropyOf s (s.altFrame answer k) := by
  cases answer with
  | none | some => exact .ofQuiet (by simp [Decoder.PastPreamble, State.altFrame, freshDec, Decoder.fail]) rfl

theorem parse_entropy : EntropyOf s s.parse := by
  rcases parse_cases s with ⟨answer, k, -, he⟩ | he <;> rw [he]
  · exact { altFrame_entropy (s := s.clearRecord) answer k with }
  · exact { parseFht8v_entropy (s := s.clearRecord) with }

/-- A frame decode or a parse emits the entropy events of its body when it runs, and none in the fault state or with
`BAD_ARG`. -/
theorem frameRequest_entropy {body : State} {b : Bool} (hbody : EntropyOf s body) (hchange : DecodeBody s body)
    (h : unlessFaulted s (raiseIf b .badArg s body.finishDecode) = .next t) :
    (s.fault = false ∧ t.fault = false ∧ EntropyOf s t) ∨
      ((s.fault = true ∨ t.fault = true) ∧ t.events = s.events) := by
  rcases unlessFaulted_cases h with ⟨hf, rfl⟩ | ⟨hf, h⟩
  · exact .inr ⟨.inl hf, rfl⟩
  rcases raiseIf_cases h with ⟨-, rfl⟩ | ⟨-, h⟩
  · exact .inr ⟨.inr rfl, rfl⟩
  · cases h
    exact .inl ⟨hf, hchange.fault.trans hf, { hbody with }⟩

/-- No instruction but the frame decode and the parse emits an event. -/
theorem exec_events {i : Instr} (hdecode : i ≠ .decodeBitstream) (hparse : i ≠ .parseFrame) :
    Answers (fun t => t.events = s.events) (exec i s) := by
  cases i with
  | decodeBitstream => exact absurd rfl hdecode
  | parseFrame => exact absurd rfl hparse
  | reset => exact answers_next.mpr rfl
  | decInit start => exact unlessFaulted_answers rfl fun _ => raiseIf_answers rfl fun _ => answers_next.mpr rfl
  | decPair | decBit | decByte =>
    exact unlessFaulted_answers rfl fun _ => withinRx_answers fun _ => answers_next.mpr rfl
  | _ =>
    intro t h
    obtain ⟨-, -, hevents, -⟩ := (exec_change _ t h).decodeSide (by simp [kindOf])
    exact hevents

/-- Settles O50: the events of a frame decode or a parse are those of its body, and no other instruction emits any. -/
theorem entropyOnlyFromPreambleFailures : Obligations.EntropyOnlyFromPreambleFailures := by
  intro i s t h
  by_cases hi : i = .decodeBitstream ∨ i = .parseFrame
  · have hframe : (s.fault = false ∧ t.fault = false ∧ EntropyOf s t) ∨
        ((s.fault = true ∨ t.fault = true) ∧ t.events = s.events) := by
      rcases hi with rfl | rfl
      · exact frameRequest_entropy applyFrame_entropy (applyFrame_body _) h
      · exact frameRequest_entropy parse_entropy parse_body h
    rcases hframe with ⟨hf, htf, hentropy⟩ | ⟨hfault, hevents⟩
    · exact ⟨fun ⟨_, _, _, hpre⟩ => hentropy.preamble hpre, fun hno => hentropy.quiet fun hpre => hno ⟨hi, hf, htf, hpre⟩⟩
    · refine ⟨fun ⟨_, hf, htf, _⟩ => ?_, fun _ => hevents⟩
      rcases hfault with hfault | hfault
      · exact absurd (hf.symm.trans hfault) (by decide)
      · exact absurd (htf.symm.trans hfault) (by decide)
  · have hne := not_or.mp hi
    exact ⟨fun hpre => absurd hpre.1 hi, fun _ => exec_events hne.1 hne.2 t h⟩

end Sys2Proof.Machine
end

section
/-! PROOF. What a parse leaves (42_frame_parser.md R175 to R178), whatever it met, with an alternate framing, and with
bytes after a frame. -/

namespace Sys2Proof.Machine

variable {s t : State} {run : FrameRun} {f : Frame}

/-! ### What a parse leaves (R175 to R178) -/

/-- A parse from `s` that failed left `t`: a reason, the frame's results cleared, no record (R176). -/
structure ParseFailed (s t : State) : Prop where
  stop : t.dec.stop = s.rxLen
  val : t.res.val = s.res.val
  failed : t.dec.failed = true
  reason : t.dec.reason ≠ .none
  record : t.statsOut = none
  results : t.res = t.res.failResults

/-- A parse from `s` that took its frame left `t`: no reason, the frame's kind, and a record unless it has no trailer (R175). -/
structure ParseTaken (s t : State) : Prop where
  stop : t.dec.stop = s.rxLen
  val : t.res.val = s.res.val
  ok : t.dec.failed = false
  reason : t.dec.reason = .none
  kind : t.res.kind ∈ ([0x01, 0x02, 0x03, 0x05, 0x09] : List Byte)
  record : t.statsOut = none ↔ t.res.kind = 0x01
  events : t.events = s.events

theorem altFrame_parsed (hnone : s.statsOut = none) (answer : Option StatsRecord) {k : Byte} (hk : k = 0x02 ∨ k = 0x03) :
    ParseFailed s (s.altFrame answer k) ∨ ParseTaken s (s.altFrame answer k) := by
  cases answer with
  | none => exact .inl ⟨rfl, rfl, rfl, FailReason.noConfusion, hnone, rfl⟩
  | some r =>
    have hlisted : k ∈ ([0x01, 0x02, 0x03, 0x05, 0x09] : List Byte) ∧ k ≠ 0x01 := by rcases hk with rfl | rfl <;> decide
    exact .inr ⟨rfl, rfl, rfl, rfl, hlisted.1, iff_of_false (Option.some_ne_none r) hlisted.2, rfl⟩

theorem applyFrame_parsed (hnone : s.statsOut = none) (hsound : FrameRun.Sound s.rxLen run) :
    ParseFailed s (s.applyFrame run) ∨
      ParseTaken s (s.applyFrame run) ∧ (s.applyFrame run).statsOut = none := by
  cases hok : run.dec.failed with
  | true =>
    rw [applyFrame_failed (hsound.no_frame hok)]
    exact .inl ⟨hsound.stop, rfl, hok, hsound.reason.mp hok, hnone, rfl⟩
  | false =>
    obtain ⟨f, hframe⟩ := hsound.frame_of_ok hok
    rw [applyFrame_frame hframe]
    exact .inr ⟨⟨hsound.stop, rfl, hok, hsound.reason_none hok, List.mem_cons_self, iff_of_true hnone rfl, rfl⟩, hnone⟩

/-- What follows a frame with no record yet leaves it as it is, fails the parse, or adds a record. -/
theorem ParseTaken.trailer (h : ParseTaken s t) (hnone : t.statsOut = none) :
    ParseFailed s t.trailer ∨ ParseTaken s t.trailer := by
  rcases trailer_cases t with he | ⟨r, hr, he⟩ | ⟨rec, k, hk, he⟩ <;> rw [he]
  · exact .inr h
  · rw [Decoder.fail_of_ok h.ok]
    exact .inl ⟨h.stop, h.val, rfl, by rcases hr with rfl | rfl <;> exact FailReason.noConfusion, hnone, rfl⟩
  · have hlisted : k ∈ ([0x01, 0x02, 0x03, 0x05, 0x09] : List Byte) ∧ k ≠ 0x01 := by rcases hk with rfl | rfl <;> decide
    exact .inr ⟨h.stop, h.val, h.ok, h.reason, hlisted.1, iff_of_false (Option.some_ne_none rec) hlisted.2, h.events⟩

theorem parseFht8v_parsed (hnone : s.statsOut = none) : ParseFailed s s.parseFht8v ∨ ParseTaken s s.parseFht8v := by
  have hsound := decodeFrame_sound s.rx s.rxLen
  rcases parseFht8v_cases s with he | ⟨hok, he⟩ <;> rw [he]
  · exact (applyFrame_parsed hnone hsound).imp_right And.left
  · rcases applyFrame_parsed hnone hsound with hfailed | ⟨htaken, hrecord⟩
    · exact absurd hfailed.failed (by rw [applyFrame_dec, hok]; decide)
    · exact htaken.trailer hrecord

theorem parse_parsed (s : State) : ParseFailed s s.parse ∨ ParseTaken s s.parse := by
  have hparsed : ParseFailed s.clearRecord s.parse ∨ ParseTaken s.clearRecord s.parse := by
    rcases parse_cases s with ⟨answer, k, hk, he⟩ | he <;> rw [he]
    · exact altFrame_parsed rfl answer hk
    · exact parseFht8v_parsed rfl
  exact hparsed.imp (fun h => { h with }) (fun h => { h with })

/-- Settles O48, by the two ways a parse ends. -/
theorem parseFrameCompletes : Obligations.ParseFrameCompletes := by
  intro s hf hlen
  refine ⟨_, execParseFrame_run hf hlen, ?_⟩
  have hframe : s.parse.setOk (!s.parse.dec.failed) =
      { s with dec := s.parse.dec, res := s.parse.res, ok := !s.parse.dec.failed, events := s.parse.events,
               statsOut := s.parse.statsOut } := congrArg (·.setOk (!s.parse.dec.failed)) (parse_body (s := s))
  rcases parse_parsed s with h | h
  · refine ⟨h.stop, rfl, fun _ => ⟨h.reason, h.record, ?_⟩, fun hok => ?_, hframe⟩
    · rw [State.setOk_res, h.results]
      exact ⟨rfl, rfl, rfl, rfl, rfl, rfl, rfl, h.val⟩
    · exact absurd (h.failed.symm.trans hok) (by decide)
  · refine ⟨h.stop, rfl, fun hfailed => ?_, fun _ => ⟨h.reason, h.kind, h.record, h.val, h.events⟩, hframe⟩
    exact absurd (h.ok.symm.trans hfailed) (by decide)

/-! ### The alternate framings (R177) -/

theorem parse_json (hone : 1 ≤ s.rxLen.toNat) (hlead : jsonLead s.params (s.rxByte 0) = true) :
    s.parse = s.clearRecord.altFrame (jsonDecode s.params (s.rx.readList 0 s.rxLen.toNat)) 0x02 := by
  have hlead' : jsonLead s.params (s.rx.read 0) = true := hlead
  simp only [State.parse, hone, hlead', decide_true, Bool.and_self, if_true]
  rfl

theorem parse_legacy (hone : 1 ≤ s.rxLen.toNat) (hlead : jsonLead s.params (s.rxByte 0) = false)
    (hmatch : legacyMatch s.params (s.rx.readList 0 s.rxLen.toNat) = true) :
    s.parse = s.clearRecord.altFrame (legacyDecode s.params (s.rx.readList 0 s.rxLen.toNat)) 0x03 := by
  have hlead' : jsonLead s.params (s.rx.read 0) = false := hlead
  simp only [State.parse, hone, hlead', hmatch, decide_true, Bool.and_self, Bool.and_false, Bool.false_eq_true, if_true,
    if_false]
  rfl

/-- Settles O51: both framings are the same hand-over with their own answer and kind. -/
theorem alternateFramesAreHandedOver : Obligations.AlternateFramesAreHandedOver := by
  intro s bytes answer k hf hone hlen hbytes hframing
  have hparse : s.parse = s.clearRecord.altFrame answer k := by
    subst hbytes
    rcases hframing with ⟨hlead, rfl, rfl⟩ | ⟨hlead, hmatch, rfl, rfl⟩
    · exact parse_json hone hlead
    · exact parse_legacy hone hlead hmatch
  rw [execParseFrame_run hf hlen, hparse]
  refine ⟨fun r hr => ?_, fun hr => ?_⟩ <;> rw [hr]
  · rfl
  · rfl

/-! ### The frame path (R178) -/

/-- `DECODE_BITSTREAM` that ends with no fault and `OK = 1` decoded a frame. -/
theorem execDecodeBitstream_success (hf : s.fault = false) (h : exec .decodeBitstream s = .next t) (htf : t.fault = false)
    (hok : t.ok = true) :
    s.rxLen.toNat ≤ s.params.rxSize ∧ (decodeFrame s.rx s.rxLen).dec.failed = false ∧
      ∃ f, (decodeFrame s.rx s.rxLen).frame = some f ∧
        t = { s with dec := (decodeFrame s.rx s.rxLen).dec, res := s.res.ofFrame f, ok := true } := by
  have hlen : s.rxLen.toNat ≤ s.params.rxSize := by
    by_contra hover
    have hraised : exec .decodeBitstream s = .next (s.raise .badArg) := by
      change execDecodeBitstream s = _
      rw [execDecodeBitstream, unlessFaulted_run hf, decide_eq_true (Nat.lt_of_not_le hover), raiseIf_true]
    obtain rfl := Host.Outcome.next.inj (h.symm.trans hraised)
    cases htf
  obtain rfl := Host.Outcome.next.inj (h.symm.trans (execDecodeBitstream_next hf hlen))
  have hdec : (decodeFrame s.rx s.rxLen).dec.failed = false := by simpa using hok
  obtain ⟨f, hframe⟩ := (decodeFrame_sound s.rx s.rxLen).frame_of_ok hdec
  refine ⟨hlen, hdec, f, hframe, ?_⟩
  rw [applyFrame_frame hframe, hdec]
  rfl

/-- Bytes that begin with 0xCC are in neither alternate framing (00_scope.md R8). -/
theorem parse_of_preamble (h : s.rxByte 0 = 0xCC) : s.parse = s.clearRecord.parseFht8v := by
  have hbyte : s.rx.read 0 = preambleByte := h
  have hjson : jsonLead s.params (s.rx.read 0) = false := if_pos hbyte
  have hlegacy : (decide (1 ≤ s.rxLen.toNat) && legacyMatch s.params (s.rx.readList 0 s.rxLen.toNat)) = false := by
    cases hn : s.rxLen.toNat with
    | zero => rfl
    | succ n =>
      have hhead : (s.rx.readList 0 (n + 1)).head? = some preambleByte := congrArg some hbyte
      rw [legacyMatch, if_pos hhead, Bool.and_false]
  simp only [State.parse, hjson, hlegacy, Bool.and_false, Bool.false_eq_true, if_false]
  rfl

theorem withHouseCode_own {r : StatsRecord} {hc1 hc2 : Byte} (h : r.id = none ∨ r.id = some (hc1, hc2)) :
    withHouseCode r hc1 hc2 = some { r with id := some (hc1, hc2) } := by
  obtain ⟨id, body⟩ := r
  rcases h with rfl | rfl
  · rfl
  · exact if_pos rfl

theorem withHouseCode_foreign {r : StatsRecord} {hc1 hc2 : Byte} {j : Byte × Byte} (h : r.id = some j)
    (hne : j ≠ (hc1, hc2)) : withHouseCode r hc1 hc2 = none := by
  rw [withHouseCode, h]
  exact if_neg hne

theorem takeTrailer_own {r : StatsRecord} (h : r.id = none ∨ r.id = some (s.res.hc1, s.res.hc2)) (k : Byte) :
    s.takeTrailer (some r) k =
      { s with statsOut := some { r with id := some (s.res.hc1, s.res.hc2) },
               res := { s.res with kind := (0x01 : Byte) ||| (k <<< 2) } } := by
  simp only [State.takeTrailer, withHouseCode_own h]
  rfl

theorem takeTrailer_foreign {r : StatsRecord} {j : Byte × Byte} (h : r.id = some j) (hne : j ≠ (s.res.hc1, s.res.hc2))
    (k : Byte) : s.takeTrailer (some r) k = s.failDecode (s.dec.fail .trailerId) := by
  simp only [State.takeTrailer, withHouseCode_foreign h hne]

/-- A frame decoded to `f` and taken by a parse: its fields and no record (R174, R175). -/
def State.framed (s : State) (d : Decoder) (f : Frame) : State :=
  { s with dec := d, res := s.res.ofFrame f, statsOut := none }

/-- After a decoded frame a parse goes on to a trailer exactly when bytes follow (R175). -/
theorem parse_frame (hfirst : s.rxByte 0 = 0xCC) (hok : (decodeFrame s.rx s.rxLen).dec.failed = false)
    (hframe : (decodeFrame s.rx s.rxLen).frame = some f) :
    s.parse = if f.next < s.rxLen then (s.framed (decodeFrame s.rx s.rxLen).dec f).trailer
      else s.framed (decodeFrame s.rx s.rxLen).dec f := by
  have hframed : s.clearRecord.applyFrame (decodeFrame s.clearRecord.rx s.clearRecord.rxLen) =
      s.framed (decodeFrame s.rx s.rxLen).dec f := applyFrame_frame hframe
  have hdec : (s.framed (decodeFrame s.rx s.rxLen).dec f).dec.failed = false := hok
  rw [parse_of_preamble hfirst, State.parseFht8v, hframed]
  simp only [hdec, Bool.not_false, Bool.true_and, decide_eq_true_eq]
  rfl

/-- Where `DECODE_BITSTREAM` succeeds on bytes that begin with 0xCC, `PARSE_FRAME` takes the same frame. -/
theorem execParseFrame_of_decodeBitstream (hf : s.fault = false) (hfirst : s.rxByte 0 = 0xCC)
    (h : exec .decodeBitstream s = .next t) (htf : t.fault = false) (hok : t.ok = true) :
    ∃ d f, d.failed = false ∧ t = { s with dec := d, res := s.res.ofFrame f, ok := true } ∧
      exec .parseFrame s = (if f.next < s.rxLen then (s.framed d f).trailer else s.framed d f).finishDecode := by
  obtain ⟨hlen, hdec, f, hframe, ht⟩ := execDecodeBitstream_success hf h htf hok
  exact ⟨_, f, hdec, ht, by rw [execParseFrame_run hf hlen, parse_frame hfirst hdec hframe]⟩

theorem finishDecode_of_ok (h : t.dec.failed = false) : t.finishDecode = .next (t.setOk true) := by
  rw [State.finishDecode, okAfterDecode, h, Bool.not_false]

/-- A trailer that fails the parse of a frame (R178). -/
theorem finishDecode_trailerFailed (h : t.dec.failed = false) (r : FailReason) :
    (t.failDecode (t.dec.fail r)).finishDecode =
      .next ((t.failDecode { t.dec with failed := true, reason := r }).setOk false) := by
  rw [Decoder.fail_of_ok h]
  rfl

/-- Settles O52, by the class of the bytes after the frame and what the codec answers for them. -/
theorem trailerIsDecodedOrRejected : Obligations.TrailerIsDecodedOrRejected := by
  intro s t bytes c answer hf hfirst hrun htf htok
  obtain ⟨d, f, hok, rfl, hparse⟩ := execParseFrame_of_decodeBitstream hf hfirst hrun htf htok
  have hframed : (s.framed d f).dec.failed = false := hok
  rw [hparse]
  refine ⟨fun hend => ?_, fun hmore hbytes hclass hanswer => ?_⟩
  · rw [if_neg fun hlt : f.next < s.rxLen => absurd hend (BitVec.ne_of_lt hlt)]
    exact finishDecode_of_ok hframed
  have htrailer : c ≠ .none → (s.framed d f).trailer = (s.framed d f).takeTrailer answer (if c = .min then 1 else 2) := by
    intro hc
    rw [trailer_of_class hclass.symm hc, hanswer, hbytes]
    rfl
  rw [if_pos (show f.next < s.rxLen from hmore)]
  refine ⟨fun hc => ?_, fun hc hnone => ?_, fun r hc hsome hid => ?_, fun r j hc hsome hid hj => ?_⟩
  · rw [trailer_of_none (hclass.symm.trans hc)]
    exact finishDecode_of_ok hframed
  · rw [htrailer hc, hnone]
    exact finishDecode_trailerFailed hframed .trailerCrc
  · have hkind : (0x01 : Byte) ||| ((if c = .min then 1 else 2 : Byte) <<< 2) = if c = .min then 0x05 else 0x09 := by
      split <;> rfl
    rw [htrailer hc, hsome, takeTrailer_own (s := s.framed d f) hid, hkind]
    exact finishDecode_of_ok hok
  · rw [htrailer hc, hsome, takeTrailer_foreign (s := s.framed d f) hid hj]
    exact finishDecode_trailerFailed hframed .trailerId

end Sys2Proof.Machine
end

section
/-! PROOF. The command rows that build a frame (43_valve_commands.md R201, R203): each is `BUILD_BITSTREAM 0` with its command in the
argument registers (log 10), so what a build that fits leaves is what the row leaves. -/

namespace Sys2Proof.Machine

variable {s : State} {i : Instr} {a : ArgRegs}

/-- The rows `CMD_SET_ZERO` and `CMD_SYNC_TICK` are the host's writes and the build after them (R201, R203, log 10). -/
theorem exec_commandRow (hrow : (i = .cmdSetZero ∧ a = { s.args with cmd := 0x20, ext := 0x00 }) ∨
      (i = .cmdSyncTick ∧ a = { s.args with cmd := 0x2C })) :
    exec i s = exec (.buildBitstream 0) { s with args := a } := by
  rcases hrow with ⟨rfl, rfl⟩ | ⟨rfl, rfl⟩ <;> rfl

/-- Settles O46: the frame `BUILD_BITSTREAM` lays down at index 0 once the row has written its arguments. -/
theorem commandRowsBuildTheirFrames : Obligations.CommandRowsBuildTheirFrames := by
  intro s i a hrow hf hidle hsize hfits
  have hstart : (0 : Byte).toNat + frameLen s.params a = frameLen s.params a := Nat.zero_add _
  obtain ⟨t, hrun, hframe, hend, houtside, hstate⟩ :=
    buildBitstreamLaysDownTheFrame { s with args := a } 0 hf hidle hsize (by rw [hstart]; exact hfits)
  rw [hstart] at hend houtside
  exact ⟨t, (exec_commandRow hrow).trans hrun, hframe, hend, fun k hk => houtside k (.inr hk), hstate⟩

end Sys2Proof.Machine
end

section
/-! PROOF. `RESET` and the transmission (44_control.md R210, R216): what each register reads after a reset, the checks of `TX_START`,
and the transceiver's steps from its index to the first sentinel. -/

namespace Sys2Proof.Machine

variable {s : State} {rest : List HostStep} {k : Byte}

/-! ### The registers after `RESET` (R210, 10_state.md R40) -/

/-- Every register but `STATUS`, which also mirrors `TX_ACTIVE`, reads its reset value. -/
theorem readReg_resetRegisters {n : Byte} (h : n ≠ 0x01) : s.resetRegisters.readReg n = State.reset.readReg n := by
  unfold State.readReg
  split
  case h_1 hstatus => exact absurd (BitVec.eq_of_toNat_eq hstatus) h
  all_goals rfl

/-- `STATUS` keeps `HC_OK`, of two house codes 0, and the transceiver's `TX_ACTIVE` (R28). -/
theorem statusByte_resetRegisters : statusByte s.resetRegisters = if s.txActive then 0x50 else 0x10 := by
  have hreset : ∀ active, statusByte { State.reset with txActive := active } = if active then 0x50 else 0x10 := by decide
  exact hreset s.txActive

/-- Settles O6, by the registers `RESET` leaves. -/
theorem resetRequestRestoresRegisters : Obligations.ResetRequestRestoresRegisters := fun s =>
  ⟨s.resetRegisters, rfl, fun _ hn => readReg_resetRegisters hn, statusByte_resetRegisters, rfl, rfl,
    fun _ => rfl, fun _ => rfl, rfl⟩

/-! ### `TX_START` (R216) -/

theorem txStart_busy (hf : s.fault = false) (hactive : s.txActive = true) : txStart k s = .next (s.raise .txBusy) := by
  rw [txStart, unlessFaulted_run hf, hactive, raiseIf_true]

/-- Past the check for `TX_BUSY` the stream decides. -/
theorem txStart_idle (hf : s.fault = false) (hidle : s.txActive = false) :
    txStart k s = raiseIf (!s.enc.txValid || s.enc.txEnd < k) .txInvalid s
      (.next { s with txActive := true, txIndex := k.toNat }) := by
  rw [txStart, unlessFaulted_run hf, hidle, raiseIf_false]

theorem txStart_invalid (hf : s.fault = false) (hidle : s.txActive = false)
    (h : s.enc.txValid = false ∨ s.enc.txEnd.toNat < k.toNat) : txStart k s = .next (s.raise .txInvalid) := by
  have hcheck : (!s.enc.txValid || s.enc.txEnd < k) = true := by simpa [BitVec.lt_def] using h
  rw [txStart_idle hf hidle, hcheck, raiseIf_true]

theorem txStart_starts (hf : s.fault = false) (hidle : s.txActive = false) (hvalid : s.enc.txValid = true)
    (hend : k.toNat ≤ s.enc.txEnd.toNat) : txStart k s = .next { s with txActive := true, txIndex := k.toNat } := by
  have hcheck : (!s.enc.txValid || s.enc.txEnd < k) = false := by simpa [BitVec.le_def, hvalid] using hend
  rw [txStart_idle hf hidle, hcheck, raiseIf_false]

/-- Settles O58, check by check. -/
theorem txStartChecksThenStarts : Obligations.TxStartChecksThenStarts := fun _ _ _ hf hsched =>
  ⟨fun hactive => (step_scheduled hsched).trans (txStart_busy hf hactive),
   fun hidle h => (step_scheduled hsched).trans (txStart_invalid hf hidle h),
   fun hidle hvalid hend => (step_scheduled hsched).trans (txStart_starts hf hidle hvalid hend)⟩

/-! ### The transmission (R216, 70_reset_and_hazards.md R280) -/

theorem transceiverStep_sentinel (hactive : s.txActive = true) (hin : s.txIndex < s.params.txSize)
    (hbyte : s.txByte s.txIndex = sentinel) : transceiverStep s = .next { s with txActive := false } := by
  rw [State.txByte] at hbyte
  rw [transceiverStep, if_pos hactive, withinTx_run hin, if_pos hbyte]

/-- The state after the transceiver has sent the byte at its index. -/
def State.byteSent (s : State) : State := { s.emit [.sent (s.txByte s.txIndex)] with txIndex := s.txIndex + 1 }

theorem transceiverStep_sends (hactive : s.txActive = true) (hin : s.txIndex < s.params.txSize)
    (hbyte : s.txByte s.txIndex ≠ sentinel) :
    transceiverStep s = .next s.byteSent := by
  rw [State.txByte] at hbyte
  rw [transceiverStep, if_pos hactive, withinTx_run hin, if_neg hbyte, State.byteSent, State.txByte]

/-- A run whose next entry is a transceiver step that answers a next state goes on from there. -/
theorem run_transceiver {t : State} {n : Nat} (hsched : s.schedule = .transceiver :: rest)
    (h : transceiverStep { s with schedule := rest } = .next t) :
    Host.Core.run Sys2Proof.core (n + 1) s = Host.Core.run Sys2Proof.core n t :=
  core_run_of_step (M := Sys2Proof.core) ((step_scheduled hsched).trans h)

/-- Settles O59, by induction on the bytes before the sentinel: one step sends the first of them, and the transmission goes on
from the index after it. -/
theorem transmissionSendsUpToTheSentinel : Obligations.TransmissionSendsUpToTheSentinel := by
  intro n
  induction n with
  | zero =>
    intro s rest hactive hsched hin _ hend
    rw [run_transceiver hsched (transceiverStep_sentinel hactive hin hend)]
    simp [Host.Core.run, Memory.readList]
  | succ n ih =>
    intro s rest hactive hsched hin hbytes hend
    have hshift : ∀ j, s.txIndex + 1 + j = s.txIndex + (j + 1) := by omega
    have hhere : s.txIndex < s.params.txSize := by omega
    have hsends := run_transceiver (n := n + 1) hsched (transceiverStep_sends hactive hhere (hbytes 0 (Nat.succ_pos n)))
    refine hsends.trans ((ih (State.byteSent { s with schedule := _ }) rest hactive rfl ?_ (fun j hj => ?_) ?_).trans ?_)
    · exact (hshift n).trans_lt hin
    · exact ne_of_eq_of_ne (congrArg s.txByte (hshift j)) (hbytes (j + 1) (Nat.succ_lt_succ hj))
    · exact (congrArg s.txByte (hshift n)).trans hend
    · simp [State.byteSent, State.txByte, Memory.readList, hshift]

end Sys2Proof.Machine
end

section
/-! PROOF. The fault state (60_exceptions.md R233, R235): every request but `RESET` and `TX_START` end at check 1, the other
scheduled steps keep `FAULT` and `FCODE`, and only `RESET` and power-on clear them. -/

namespace Sys2Proof.Machine

variable {P : State → Prop} {s u : State} {r : Result} {i : Instr}

/-! ### Requests and `TX_START` (R233) -/

/-- A request but `RESET`, whose word is 0, ends at check 1. -/
theorem exec_ignored {w : ReqWord} (hf : s.fault = true) (hi : encode i = .request w) (hw : w ≠ 0) :
    exec i s = .next s := by
  cases i with
  | reset => exact absurd (Encoded.request.inj hi).symm hw
  | cmdSetZero | cmdSyncTick => cases hi
  | _ => exact unlessFaulted_ignore hf

/-- Every word but `RESET`'s is ignored, legal or not. -/
theorem submitRequest_ignored {w : ReqWord} (hf : s.fault = true) (hw : w ≠ 0) : submitRequest w s = .next s := by
  cases hdec : decode (.request w) with
  | none => exact (submitRequest_illegal hdec).trans (unlessFaulted_ignore hf)
  | some i => exact (submitRequest_decoded hdec).trans (exec_ignored hf (encode_of_decodeRequest hdec) hw)

theorem txStart_ignored (hf : s.fault = true) (k : Byte) : txStart k s = .next s := unlessFaulted_ignore hf

/-! ### The fault kept (R235, 10_state.md R29) -/

/-- The fault of `s` stands in `t`, with its code. -/
def FaultKept (s t : State) : Prop := t.fault = true ∧ t.fcode = s.fcode

/-- A request submitted while the fault stands ends at check 1, whatever the host has written just before it (log 10). -/
theorem unlessFaulted_faultKept (hu : FaultKept s u) : Answers (FaultKept s) (unlessFaulted u r) := by
  rw [unlessFaulted_ignore hu.1]
  exact answers_next.mpr hu

theorem exec_faultKept (hf : s.fault = true) (hi : i ≠ .reset) : Answers (FaultKept s) (exec i s) := by
  cases i with
  | reset => exact absurd rfl hi
  | cmdSetZero => exact unlessFaulted_faultKept (u := s.setCommand 0x20 0x00) ⟨hf, rfl⟩
  | cmdSyncTick => exact unlessFaulted_faultKept (u := s.setCommand 0x2C s.args.ext) ⟨hf, rfl⟩
  | _ => exact unlessFaulted_faultKept ⟨hf, rfl⟩

/-- No codeword is `RESET`. -/
theorem applyCodeword_faultKept (hf : s.fault = true) (w : Byte) : Answers (FaultKept s) (applyCodeword w s) := by
  cases hdec : decode (.codeword w) with
  | none =>
    rw [applyCodeword_unknown hdec]
    exact fun _ ht => nomatch ht
  | some i =>
    have hi : i ≠ .reset := by
      rintro rfl
      cases encode_of_decodeCodeword hdec
    rw [applyCodeword_decoded hdec]
    exact exec_faultKept hf hi

theorem readRxStep_answers {a : Byte} (h : P (s.setHostData ((s.rxByte a.toNat).setWidth 16))) :
    Answers P (readRxStep a s) := by
  rcases Nat.lt_or_ge a.toNat s.params.rxSize with ha | ha
  · rw [readRxStep_inside ha]; exact answers_next.mpr h
  · rw [readRxStep_outside ha]; exact fun _ ht => nomatch ht

theorem writeRxStep_answers {a v : Byte} (h : P { s with rx := s.rx.write a.toNat v }) :
    Answers P (writeRxStep a v s) := by
  rcases Nat.lt_or_ge a.toNat s.params.rxSize with ha | ha
  · rw [writeRxStep_inside v ha]; exact answers_next.mpr h
  · rw [writeRxStep_outside v ha]; exact fun _ ht => nomatch ht

theorem writeReg_faultKept (hf : s.fault = true) (n v : Byte) : FaultKept s (s.writeReg n v) := by
  rw [writeReg_frame]
  exact ⟨hf, rfl⟩

theorem transceiverStep_faultKept (hf : s.fault = true) : Answers (FaultKept s) (transceiverStep s) := by
  unfold transceiverStep
  split
  · refine withinTx_answers fun _ => ?_
    split <;> exact answers_next.mpr ⟨hf, rfl⟩
  · exact answers_next.mpr ⟨hf, rfl⟩

/-- Every scheduled step but the word of `RESET` and power-on keeps the fault. -/
theorem runHostStep_faultKept (hf : s.fault = true) {x : HostStep} (hreset : x ≠ .request 0)
    (hpower : ∀ drives, x ≠ .powerOn drives) : Answers (FaultKept s) (runHostStep x s) := by
  have hkept : FaultKept s s := ⟨hf, rfl⟩
  cases x with
  | request w =>
    have hw : w ≠ 0 := fun h => hreset (congrArg _ h)
    exact fun t ht => answers_next.mpr hkept t ((submitRequest_ignored hf hw).symm.trans ht)
  | codeword w => exact applyCodeword_faultKept hf w
  | readReq => exact answers_next.mpr hkept
  | readReg n => exact answers_next.mpr hkept
  | writeReg n v => exact answers_next.mpr (writeReg_faultKept hf n v)
  | readTx a => exact withinTx_answers fun _ => answers_next.mpr hkept
  | writeTx a v => exact answers_next.mpr hkept
  | readRx a => exact readRxStep_answers hkept
  | writeRx a v => exact writeRxStep_answers hkept
  | txStart k => exact unlessFaulted_faultKept hkept
  | transceiver => exact transceiverStep_faultKept hf
  | setStatsIn r => exact answers_next.mpr hkept
  | powerOn drives => exact absurd rfl (hpower drives)

/-! ### The statements -/

/-- Settles O10, entry by entry. -/
theorem faultStateIsSticky : Obligations.FaultStateIsSticky := by
  intro s rest hf
  refine ⟨fun w hw hsched => ?_, fun k hsched => ?_, fun n hsched => ?_, fun n v hsched => ?_, fun a v ha hsched => ?_,
    fun a ha hsched => ?_, fun hactive hin hsched => ⟨fun hend => ?_, fun hbyte => ?_⟩, fun hsched => ?_⟩
  · exact (step_scheduled hsched).trans (submitRequest_ignored hf hw)
  · exact (step_scheduled hsched).trans (txStart_ignored (s := { s with schedule := rest }) hf k)
  · exact step_scheduled hsched
  · exact step_scheduled hsched
  · exact (step_scheduled hsched).trans (writeRxStep_inside v ha)
  · exact (step_scheduled hsched).trans (readTxStep_inside ha)
  · exact (step_scheduled hsched).trans (transceiverStep_sentinel hactive hin hend)
  · exact (step_scheduled hsched).trans (transceiverStep_sends hactive hin hbyte)
  · exact ⟨State.resetRegisters { s with schedule := rest }, step_entry (i := .reset) hsched, rfl⟩

/-- Settles O11, by the entry the step takes off the schedule. -/
theorem faultLeftOnlyByReset : Obligations.FaultLeftOnlyByReset := by
  intro s t hf hstep
  cases hsched : s.schedule with
  | nil =>
    have hidle : step s = transceiverStep s := by simp only [step, hsched, idleStep]
    exact .inl (transceiverStep_faultKept hf t (hidle.symm.trans hstep))
  | cons x rest =>
    by_cases hreset : x = .request 0
    · exact .inr (.inl ⟨rest, by rw [hreset]⟩)
    by_cases hpower : ∃ drives, x = .powerOn drives
    · obtain ⟨drives, rfl⟩ := hpower
      exact .inr (.inr ⟨drives, rest, rfl⟩)
    · have hkept := runHostStep_faultKept (s := { s with schedule := rest }) hf hreset (not_exists.mp hpower)
      exact .inl (hkept t ((step_scheduled hsched).symm.trans hstep))

end Sys2Proof.Machine
end

section
/-! PROOF. The checks before a request's body, in the order of 60_exceptions.md R234: which of them raises, and that it changes
nothing but the fault's flags (R232). -/

namespace Sys2Proof.Machine

variable {s : State} {r : Result} {b b' : Bool} {c : FaultCode}

/-! ### One check after another -/

theorem raiseIf_raises (h : b = true) : raiseIf b c s r = .next (s.raise c) := if_pos h

theorem raiseIf_passes (h : b = false) : raiseIf b c s r = r := if_neg (ne_true_of_eq_false h)

/-- Two checks in a row for the same fault are one check for either. -/
theorem raiseIf_raiseIf : raiseIf b c s (raiseIf b' c s r) = raiseIf (b || b') c s r := by
  cases b <;> rfl

/-- The checks every encoder request but `ENC_INIT` begins with, when the stream is not open. -/
theorem raise_notReady (hf : s.fault = false) (hready : s.enc.ready = false) :
    unlessFaulted s (raiseIf (!s.enc.ready) .notReady s r) = .next (s.raise .notReady) :=
  (unlessFaulted_run hf).trans (raiseIf_raises (by rw [hready]; rfl))

/-- The same checks on an open stream. -/
theorem pass_ready (hf : s.fault = false) (hready : s.enc.ready = true) :
    unlessFaulted s (raiseIf (!s.enc.ready) .notReady s r) = r :=
  (unlessFaulted_run hf).trans (raiseIf_passes (by rw [hready]; rfl))

/-- An encoder request that appends has its check for `TX_BUSY` right after that for an open stream. -/
theorem encodeWith_busy (append : Nat → Encoder → TxRun) (hf : s.fault = false) (hready : s.enc.ready = true)
    (hactive : s.txActive = true) : s.encodeWith append = .next (s.raise .txBusy) :=
  (pass_ready hf hready).trans (raiseIf_raises hactive)

/-- With its operands in range and the record a trailer needs, `BUILD_VALVE_SET` meets its check for `TX_BUSY` (R150). -/
theorem valveSet_busy (hf : s.fault = false) (hpct : s.args.pct.toNat ≤ 100) (hlo : 1 ≤ s.args.thresh.toNat)
    (hhi : s.args.thresh.toNat ≤ 100) (hrecord : (trailerWanted s.args && s.statsIn.isNone) = false)
    (hactive : s.txActive = true) : s.valveSet = .next (s.raise .txBusy) := by
  have hthresh : (decide (s.args.thresh.toNat < 1) || decide (100 < s.args.thresh.toNat)) = false := by
    simp only [Bool.or_eq_false_iff, decide_eq_false_iff_not]
    omega
  rw [State.valveSet, unlessFaulted_run hf, raiseIf_passes (decide_eq_false (Nat.not_lt_of_le hpct)),
    raiseIf_passes hthresh, raiseIf_passes hrecord, raiseIf_raises hactive]

/-- A percentage or a threshold out of range, or a trailer without its record, is a `BAD_ARG` of `BUILD_VALVE_SET`, whichever of
its three checks meets it first (R150). -/
theorem valveSet_badArg (hf : s.fault = false)
    (h : 100 < s.args.pct.toNat ∨ s.args.thresh = 0 ∨ 100 < s.args.thresh.toNat ∨
      (s.args.flags.getLsbD 0 = true ∧ s.args.flags.getLsbD 3 = true ∧ s.statsIn = none)) :
    s.valveSet = .next (s.raise .badArg) := by
  have hthresh : s.args.thresh = 0 ↔ s.args.thresh.toNat < 1 := by bv_omega
  rw [State.valveSet, unlessFaulted_run hf, raiseIf_raiseIf, raiseIf_raiseIf]
  refine raiseIf_raises ?_
  simp only [trailerWanted, trlPresent, minstatsEn, Bool.or_eq_true, Bool.and_eq_true, decide_eq_true_eq,
    Option.isNone_iff_eq_none]
  rw [hthresh] at h
  tauto

/-! ### The statements -/

/-- Settles O13: each request passes its earlier checks and meets the one for `TX_BUSY`. -/
theorem txWritingRequestsRaiseTxBusy : Obligations.TxWritingRequestsRaiseTxBusy := by
  intro s i hf hactive hi
  rcases hi with ⟨pos, rfl, hpos⟩ | ⟨v, rfl, hready, hv⟩ | ⟨x, rfl, hready⟩ | ⟨v, rfl, hready⟩ | ⟨rfl, hready⟩ |
    ⟨base, rfl, hbase⟩ | ⟨rfl, hpct, hlo, hhi, hrecord⟩
  · exact (unlessFaulted_run hf).trans <| (raiseIf_passes (decide_eq_false (Nat.not_le_of_lt hpos))).trans <|
      raiseIf_raises hactive
  · exact (pass_ready hf hready).trans <| (raiseIf_passes (beq_eq_false_iff_ne.mpr hv)).trans <| raiseIf_raises hactive
  · exact (exec_encBit x).trans (encodeWith_busy _ hf hready hactive)
  · exact (exec_encByte v).trans (encodeWith_busy _ hf hready hactive)
  · exact (pass_ready hf hready).trans <| raiseIf_raises hactive
  · exact (unlessFaulted_run hf).trans <| (raiseIf_passes (decide_eq_false (Nat.not_le_of_lt hbase))).trans <|
      raiseIf_raises hactive
  · exact valveSet_busy hf hpct hlo hhi (trailerCheck_passes hrecord) hactive

/-- Settles O14, check by check. -/
theorem encoderChecksComeInOrder : Obligations.EncoderChecksComeInOrder := by
  refine ⟨fun s i hf hready hi => ?_, fun s hf hready => ?_, fun s v hf hready hv hidle hptr hfilled => ?_⟩
  · rcases hi with ⟨v, rfl⟩ | ⟨x, rfl⟩ | ⟨v, rfl⟩ | rfl <;> exact raise_notReady hf hready
  · exact (pass_ready hf hready).trans <| raiseIf_raises rfl
  · exact (pass_ready hf hready).trans <| (raiseIf_passes (beq_eq_false_iff_ne.mpr hv)).trans <|
      (raiseIf_passes hidle).trans <| (withinTx_run hptr).trans <| raiseIf_raises (bne_iff_ne.mpr hfilled)

/-- Settles O15: the range check is the first after check 1, or one of `BUILD_VALVE_SET`'s three. -/
theorem outOfRangeOperandsRaiseBadArg : Obligations.OutOfRangeOperandsRaiseBadArg := by
  intro s i hf hi
  rcases hi with ⟨pos, rfl, hpos⟩ | ⟨base, rfl, hbase⟩ | ⟨hi, hlen⟩ | ⟨rfl, hargs⟩
  · exact (unlessFaulted_run hf).trans <| raiseIf_raises (decide_eq_true hpos)
  · exact (unlessFaulted_run hf).trans <| raiseIf_raises (decide_eq_true hbase)
  · rcases hi with rfl | rfl | ⟨start, rfl⟩ <;> exact (unlessFaulted_run hf).trans <| raiseIf_raises (decide_eq_true hlen)
  · exact valveSet_badArg hf hargs

end Sys2Proof.Machine
end

section
/-! PROOF. The faults each instruction may raise (60_exceptions.md R230, R236), read off its checks and the ends of its body. -/

namespace Sys2Proof.Machine

variable {s t : State} {codes : List FaultCode} {c : FaultCode}

/-- A fault in `t` is one of `codes`, and `OK` is 0 with it (R232). -/
def RaisesOnly (codes : List FaultCode) (t : State) : Prop := t.fault = true → t.fcode ∈ codes ∧ t.ok = false

/-- A state without a fault. -/
theorem raisesOnly_of_ok (h : t.fault = false) : RaisesOnly codes t := fun hfault => by
  rw [h] at hfault
  cases hfault

theorem raise_raisesOnly (h : c ∈ codes) : RaisesOnly codes (s.raise c) := fun _ => ⟨h, rfl⟩

/-! ### The encoder requests -/

theorem encodeWith_raisesOnly (hf : s.fault = false) (append : Nat → Encoder → TxRun) :
    Answers (RaisesOnly [.notReady, .txBusy, .txOverflow]) (s.encodeWith append) :=
  unlessFaulted_answers (raisesOnly_of_ok hf) fun _ => raiseIf_answers (raise_raisesOnly (by decide)) fun _ =>
    raiseIf_answers (raise_raisesOnly (by decide)) fun _ => withinTx_answers fun _ =>
      finishTx_answers (fun _ _ => raisesOnly_of_ok hf) (fun _ _ => raise_raisesOnly (by decide))

theorem execEncInit_raisesOnly (hf : s.fault = false) (pos : Byte) :
    Answers (RaisesOnly [.badArg, .txBusy]) (execEncInit pos s) :=
  unlessFaulted_answers (raisesOnly_of_ok hf) fun _ => raiseIf_answers (raise_raisesOnly (by decide)) fun _ =>
    raiseIf_answers (raise_raisesOnly (by decide)) fun _ => answers_next.mpr (raisesOnly_of_ok hf)

theorem execEncRaw_raisesOnly (hf : s.fault = false) (v : Byte) :
    Answers (RaisesOnly [.notReady, .badArg, .txBusy, .encNotEmpty, .txOverflow]) (execEncRaw v s) :=
  unlessFaulted_answers (raisesOnly_of_ok hf) fun _ => raiseIf_answers (raise_raisesOnly (by decide)) fun _ =>
    raiseIf_answers (raise_raisesOnly (by decide)) fun _ => raiseIf_answers (raise_raisesOnly (by decide)) fun _ =>
      withinTx_answers fun _ => raiseIf_answers (raise_raisesOnly (by decide)) fun _ =>
        finishTx_answers (fun _ _ => raisesOnly_of_ok hf) (fun _ _ => raise_raisesOnly (by decide))

theorem execEncTerm_raisesOnly (hf : s.fault = false) : Answers (RaisesOnly [.notReady, .txBusy]) (execEncTerm s) :=
  unlessFaulted_answers (raisesOnly_of_ok hf) fun _ => raiseIf_answers (raise_raisesOnly (by decide)) fun _ =>
    raiseIf_answers (raise_raisesOnly (by decide)) fun _ => withinTx_answers fun _ =>
      answers_next.mpr (raisesOnly_of_ok hf)

/-! ### The builders -/

theorem buildAt_raisesOnly (hf : s.fault = false) (base : Byte) :
    Answers (RaisesOnly [.badArg, .txBusy, .txOverflow]) (s.buildAt base) := by
  refine unlessFaulted_answers (raisesOnly_of_ok hf) fun _ => raiseIf_answers (raise_raisesOnly (by decide)) fun _ =>
    raiseIf_answers (raise_raisesOnly (by decide)) fun _ => ?_
  dsimp only
  split
  · exact answers_next.mpr (raise_raisesOnly (by decide))
  · exact answers_next.mpr (raisesOnly_of_ok hf)

/-- A trailer raises `STATS_BAD` for an answer that breaks the codec's contract and `TX_OVERFLOW` for one that does not fit
(41_frame_builder.md R154), from any encoder state. -/
theorem appendTrailer_raised {p : Params} {minimal : Bool} {rec : Option StatsRecord} {e : Encoder}
    (h : appendTrailer p minimal rec e = .raised c) : c = .statsBad ∨ c = .txOverflow := by
  cases rec with
  | none => cases h
  | some r =>
    cases minimal with
    | true =>
      simp only [appendTrailer, appendMinTrailer, if_true] at h
      split_ifs at h <;> cases h
      · exact .inl rfl
      · exact .inr rfl
    | false =>
      simp only [appendTrailer, appendFullTrailer, Bool.false_eq_true, if_false] at h
      split at h
      · cases h
      · split_ifs at h
        cases h
        exact .inl rfl

/-- Past its checks `BUILD_VALVE_SET` raises what its build and its trailer raise. -/
theorem valveSetBody_raisesOnly (hf : s.fault = false) :
    Answers (RaisesOnly [.badArg, .txBusy, .txOverflow, .statsBad]) s.valveSetBody := by
  cases hrun : s.valveSetRun with
  | overflow e =>
    rw [valveSetBody_overflow hrun]
    exact answers_next.mpr (raise_raisesOnly (by decide))
  | ok e =>
    cases htrailer : s.valveSetTrailer e with
    | raised c =>
      rw [valveSetBody_raised hrun htrailer]
      rcases appendTrailer_raised htrailer with rfl | rfl <;> exact answers_next.mpr (raise_raisesOnly (by decide))
    | done kind e' =>
      rw [valveSetBody_done hrun htrailer]
      exact answers_next.mpr (raisesOnly_of_ok hf)

theorem valveSet_raisesOnly (hf : s.fault = false) :
    Answers (RaisesOnly [.badArg, .txBusy, .txOverflow, .statsBad]) s.valveSet :=
  unlessFaulted_answers (raisesOnly_of_ok hf) fun _ => raiseIf_answers (raise_raisesOnly (by decide)) fun _ =>
    raiseIf_answers (raise_raisesOnly (by decide)) fun _ => raiseIf_answers (raise_raisesOnly (by decide)) fun _ =>
      raiseIf_answers (raise_raisesOnly (by decide)) fun _ => withinTx_answers fun _ => valveSetBody_raisesOnly hf

/-! ### The decoder and the parser -/

/-- A primitive decode raises none: its failures are no faults (R236). -/
theorem primitiveDecode_raisesOnly (hf : s.fault = false) (v : Byte) (d : Decoder) :
    Answers (RaisesOnly []) (unlessFaulted s (withinRx s (s.finishRead v d))) :=
  unlessFaulted_answers (raisesOnly_of_ok hf) fun _ => withinRx_answers fun _ => answers_next.mpr (raisesOnly_of_ok hf)

theorem execDecInit_raisesOnly (hf : s.fault = false) (start : Byte) :
    Answers (RaisesOnly [.badArg]) (execDecInit start s) :=
  unlessFaulted_answers (raisesOnly_of_ok hf) fun _ => raiseIf_answers (raise_raisesOnly (by decide)) fun _ =>
    answers_next.mpr (raisesOnly_of_ok hf)

/-- The end of a frame decode raises none: its body leaves `FAULT` alone. -/
theorem DecodeBody.finish_raisesOnly (h : DecodeBody s t) (hf : s.fault = false) :
    Answers (RaisesOnly codes) t.finishDecode :=
  answers_next.mpr (raisesOnly_of_ok (h.fault.trans hf))

theorem execDecodeBitstream_raisesOnly (hf : s.fault = false) :
    Answers (RaisesOnly [.badArg]) (execDecodeBitstream s) :=
  unlessFaulted_answers (raisesOnly_of_ok hf) fun _ => raiseIf_answers (raise_raisesOnly (by decide)) fun _ =>
    (applyFrame_body _).finish_raisesOnly hf

theorem execParseFrame_raisesOnly (hf : s.fault = false) : Answers (RaisesOnly [.badArg]) (execParseFrame s) :=
  unlessFaulted_answers (raisesOnly_of_ok hf) fun _ => raiseIf_answers (raise_raisesOnly (by decide)) fun _ =>
    parse_body.finish_raisesOnly hf

theorem execChecksum_raisesOnly (hf : s.fault = false) : Answers (RaisesOnly []) (execChecksum s) :=
  unlessFaulted_answers (raisesOnly_of_ok hf) fun _ => answers_next.mpr (raisesOnly_of_ok hf)

/-! ### Every instruction -/

/-- An instruction raises the faults listed for it and no others. -/
theorem exec_raisesOnly (hf : s.fault = false) (i : Instr) : Answers (RaisesOnly (mayRaise i)) (exec i s) := by
  cases i with
  | reset => exact answers_next.mpr (raisesOnly_of_ok rfl)
  | encInit pos => exact execEncInit_raisesOnly hf pos
  | encRaw v => exact execEncRaw_raisesOnly hf v
  | encBit x => rw [exec_encBit]; exact encodeWith_raisesOnly hf _
  | encByte v => rw [exec_encByte]; exact encodeWith_raisesOnly hf _
  | encTerm => exact execEncTerm_raisesOnly hf
  | decInit start => exact execDecInit_raisesOnly hf start
  | decPair | decBit | decByte => exact primitiveDecode_raisesOnly hf _ _
  | checksum => exact execChecksum_raisesOnly hf
  | buildBitstream base => exact buildAt_raisesOnly hf base
  | buildValveSet | cmdSetPercent => exact valveSet_raisesOnly hf
  | decodeBitstream => exact execDecodeBitstream_raisesOnly hf
  | parseFrame => exact execParseFrame_raisesOnly hf
  | line0 => rw [exec_line0]; exact encodeWith_raisesOnly hf _
  | line1 => rw [exec_line1]; exact encodeWith_raisesOnly hf _
  | cmdSetZero => exact buildAt_raisesOnly (s := s.setCommand 0x20 0x00) hf 0
  | cmdSyncTick => exact buildAt_raisesOnly (s := s.setCommand 0x2C s.args.ext) hf 0

/-- Settles O12, instruction by instruction. -/
theorem onlyListedFaultsAreRaised : Obligations.OnlyListedFaultsAreRaised :=
  fun i _ t hf hrun => exec_raisesOnly hf i t hrun

end Sys2Proof.Machine
end

section
/-! PROOF. Power-on reset (70_reset_and_hazards.md R260, R261): `RESET` of a state whose buffers hold a new draw and whose
transmission is what the transceiver drives, so its registers read what they read after `RESET`. -/

namespace Sys2Proof.Machine

variable {s : State} {drives : Option Byte}

/-- The two ways in which power-on differs from `RESET` (R260, R261), before the registers are reset. -/
def State.redrawn (s : State) (drives : Option Byte) : State :=
  { s with enc := { s.enc with tx := s.enc.tx.powerOn }, rx := s.rx.powerOn, txActive := drives.isSome,
           txIndex := (drives.getD 0).toNat }

theorem powerOn_eq_resetRegisters : s.powerOn drives = (s.redrawn drives).resetRegisters := rfl

theorem readReg_powerOn {n : Byte} (h : n ≠ 0x01) : (s.powerOn drives).readReg n = State.reset.readReg n := by
  rw [powerOn_eq_resetRegisters, readReg_resetRegisters h]

/-- `STATUS` mirrors `TX_ACTIVE`, which reads what the transceiver drives (10_state.md R41, R42). -/
theorem statusByte_powerOn : statusByte (s.powerOn drives) = if drives = none then 0x10 else 0x50 := by
  rw [powerOn_eq_resetRegisters, statusByte_resetRegisters]
  cases drives <;> rfl

/-- `TX_ACTIVE` reads 1 exactly when the transceiver drives an index. -/
theorem txActive_powerOn : (s.powerOn drives).txActive = decide (drives ≠ none) := by
  cases drives <;> rfl

/-- An index the transceiver drives is the one the transmission is at. -/
theorem txIndex_powerOn {k : Byte} (h : drives = some k) : (s.powerOn drives).txIndex = k.toNat := by
  rw [State.powerOn_txIndex, h, Option.getD_some]

/-- Settles O7, by the registers `RESET` leaves and the transmission the transceiver drives. -/
theorem powerOnRestoresRegisters : Obligations.PowerOnRestoresRegisters := fun s drives rest hsched =>
  ⟨State.powerOn { s with schedule := rest } drives, step_scheduled hsched, fun _ hn => readReg_powerOn hn,
    statusByte_powerOn, rfl, rfl, rfl, rfl, rfl, txActive_powerOn, fun _ hk => txIndex_powerOn hk, rfl, rfl, rfl, rfl⟩

end Sys2Proof.Machine
end
